-- ==== Sys2Proof/Word.lean ====
section
/-!
DEFINITION. The three fixed widths the machine is built from: a byte of the buffer, the 64-bit container in which a
register of width `W` (32 or 64) is kept, and the 192-bit command word.  Every other width is a parameter of
`Config.lean`; the arithmetic on words stands in `Machine/Operands.lean`.
-/

namespace Sys2Proof

/-- One byte of the buffer (`20_memory.md` R40). -/
abbrev Byte := BitVec 8

/-- The container of a `W`-bit register: 64 bits, of which the low `W` hold the value and the rest are zero
(`00_scope.md` R8; DESIGN CHOICE, assumption log 3). -/
abbrev Word := BitVec 64

/-- The word on the command port, `cmd_word[191:0]` (`30_encoding.md` R62, R63). -/
abbrev CommandWord := BitVec 192

end Sys2Proof
end

