-- ==== Sys2Proof/Config.lean ====
section
/-!
DEFINITION. What one built instance of the block fixes (`00_scope.md` R8 to R17, `92_eei_decisions.md` section 5) and
the values the spec leaves free (`93_implementation_defined.md` part 1).  None of it is state (`10_state.md` R25, R32).

The model computes with an explicit `Config`; the machine's own instance is chosen by `opaque` constants without a
body, so nothing can be proved about it except that it is well formed and has the hardware's `SHIFTS(64)`: a claim about
the machine is a claim about every such instance, of either width (assumption log 1).
-/

namespace Sys2Proof

/-- A byte order (`00_scope.md` R15, R18). -/
inductive ByteOrder where
  | little
  | big
  deriving DecidableEq, Repr, Inhabited

/-- `BETA_WINDOW` (`00_scope.md` R16, `43_expansion.md` R128). -/
inductive BetaWindow where
  | same
  | recomputed
  deriving DecidableEq, Repr, Inhabited

/-- `SHIFTS(W) = (a, b, c)`: left, right and left shift amounts (`00_scope.md` R9). -/
structure Shifts where
  a : Nat
  b : Nat
  c : Nat
  deriving DecidableEq, Repr, Inhabited

/-- `SHIFTS(64) = (13, 7, 17)`, which the spec takes as the hardware's values (R9, `40_mixer.md` R81, D7). -/
def Shifts.hardware64 : Shifts := ⟨13, 7, 17⟩

/-- The configuration constants of one instance (`10_state.md` R25; the list of `92_eei_decisions.md` section 5), but
for `RESET_SEED`, which is a free value below. -/
structure Params where
  /-- `W`, the width in bits of the state and of every lane (R8). -/
  W : Nat
  /-- `SHIFTS(64)` (R9); every built instance has the value `Shifts.hardware64`. -/
  shifts64 : Shifts
  /-- `SHIFTS(32)` (R9; the source gives none). -/
  shifts32 : Shifts
  /-- `N`, the number of lanes (R10). -/
  N : Nat
  /-- `R`, the rotation factor (R10). -/
  R : Nat
  /-- `INIT_RANGE_SIZE`, in bytes (R11). -/
  initRangeSize : Nat
  /-- `STEP_LIST`, `P[0 .. K-1]` (R12). -/
  stepList : List Nat
  /-- `ALPHA`, 64 bits (R13). -/
  alpha : Word
  /-- `BETA`, 64 bits (R13). -/
  beta : Word
  /-- `XW`, the integer width of the expansion in bits (R14). -/
  XW : Nat
  /-- `HOST_ORDER` (R15). -/
  hostOrder : ByteOrder
  /-- `NEUTRAL_ORDER` (R15). -/
  neutralOrder : ByteOrder
  /-- `BETA_WINDOW` (R16). -/
  betaWindow : BetaWindow
  deriving DecidableEq, Repr

/-- `SHIFTS(W)` of the instance (R9). -/
def Params.shifts (p : Params) : Shifts :=
  if p.W = 32 then p.shifts32 else p.shifts64

/-- A shift amount the mixing function may use at width `w` (R17). -/
abbrev Params.ShiftOk (w k : Nat) : Prop := 1 ≤ k ∧ k ≤ w - 1

/-- The well-formed configurations, clause by clause as `00_scope.md` R17 lists them.  An ill-formed configuration is
not a fault: no such block exists (R17, U11). -/
abbrev Params.WF (p : Params) : Prop :=
  (p.W = 32 ∨ p.W = 64) ∧
  (p.N % 2 = 0 ∧ 0 < p.N) ∧
  1 ≤ p.R ∧
  (p.XW = p.W ∨ p.XW = 64) ∧
  (0 < p.initRangeSize ∧ p.initRangeSize % (p.XW / 8) = 0) ∧
  (p.stepList ≠ [] ∧ (∀ s ∈ p.stepList, s % 2 = 1) ∧ p.stepList.Pairwise (· < ·)) ∧
  (Params.ShiftOk p.W p.shifts.a ∧ Params.ShiftOk p.W p.shifts.b ∧ Params.ShiftOk p.W p.shifts.c)

/-- The default step list, the 17 odd primes from 3 to 61 (R12). -/
def Params.defaultSteps : List Nat :=
  [3, 5, 7, 11, 13, 17, 19, 23, 29, 31, 37, 41, 43, 47, 53, 59, 61]

/-- The instance of width `w` with the given masks and every other constant at the default the spec names (R9 to R16;
`SHIFTS(32)` and `NEUTRAL_ORDER` are the spec's general knowledge, G1 and G2).  The machine does not use it: it shows
that well-formed configurations exist, and the tests run on it. -/
def Params.defaults (w : Nat) (alpha beta : Word) : Params where
  W := w
  shifts64 := .hardware64
  shifts32 := ⟨13, 17, 5⟩
  N := 8
  R := 3
  initRangeSize := 2048
  stepList := Params.defaultSteps
  alpha := alpha
  beta := beta
  XW := 64
  hostOrder := .little
  neutralOrder := .big
  betaWindow := .same

/-- A configuration that may be built: constants together with the check of R17, `SHIFTS(64)` being the hardware's (R9).
The default of each field only witnesses that the type is inhabited. -/
structure Instance where
  params : Params := Params.defaults 64 0 0
  wf : params.WF := by decide
  shifts64_eq : params.shifts64 = Shifts.hardware64 := by decide
  deriving Inhabited

/-- The values the spec calls unspecified or "any value" (`93_implementation_defined.md`), as functions of the number of
the draw (and of a lane or an address). -/
structure FreeValues where
  /-- `RESET_SEED` of the `d`-th reset: "an open value, possibly different at every reset" (R180, U9). -/
  resetSeed : Nat → Word
  /-- What a buffer byte reads as that nobody has written (R139, U3). -/
  unwritten : Nat → Byte
  /-- `S` after an imprecise fault (R161, U1). -/
  lostS : Nat → Word
  /-- Lane `i` after an imprecise fault (R161, U1). -/
  lostLane : Nat → Nat → Word
  /-- The byte at an address after a command was cut short by a fault or a reset (R161, R180, U1, U7). -/
  lostByte : Nat → Nat → Byte
  /-- What the port `STATE_Q` shows while `BUSY = 1` or `FAULT = 1` (R26, U6). -/
  hiddenStateQ : Nat → Word
  deriving Inhabited

/-- The configuration record the model computes with: the constants, their check, and the free values. -/
structure Config extends Instance, FreeValues

/-- The machine's own constants: any record that may be built, and nothing else is known of it (assumption log 1). -/
opaque Config.chosen : Instance

/-- Free value: `RESET_SEED` at the `d`-th reset (assumption log 5). -/
opaque Config.freeResetSeed : Nat → Word

/-- Free value: a buffer byte nobody has written, by address (assumption log 6). -/
opaque Config.freeUnwritten : Nat → Byte

/-- Free value: `S` after an imprecise fault, by draw (assumption log 7). -/
opaque Config.freeLostS : Nat → Word

/-- Free value: a lane after an imprecise fault, by draw and lane number (assumption log 7). -/
opaque Config.freeLostLane : Nat → Nat → Word

/-- Free value: a byte of a buffer left partly written, by draw and address (assumption logs 7 and 8). -/
opaque Config.freeLostByte : Nat → Nat → Byte

/-- Free value: `STATE_Q` while it is not valid, by draw (assumption log 9). -/
opaque Config.freeHiddenStateQ : Nat → Word

namespace Config

/-- `W` (R8). -/
abbrev W (c : Config) : Nat := c.params.W

/-- `WB = W / 8`, the lane integer width in bytes (R8). -/
abbrev WB (c : Config) : Nat := c.W / 8

/-- `XW` (R14). -/
abbrev XW (c : Config) : Nat := c.params.XW

/-- `XB = XW / 8` (R14). -/
abbrev XB (c : Config) : Nat := c.XW / 8

/-- `N` (R10). -/
abbrev N (c : Config) : Nat := c.params.N

end Config

end Sys2Proof
end

