-- ==== Sys2Proof/Machine/Instance.lean ====
section
/-!
DEFINITION. The configuration of the machine that `exec` and `step` run: the opaque well-formed constants of
`Config.chosen` with the opaque free values.
-/

namespace Sys2Proof.Machine

/-- The machine's configuration: some well-formed instance of either variant, and nothing more is known of it
(`00_scope.md` R2, R8 to R17; assumption log 1). -/
def cfg : Config where
  toInstance := Config.chosen
  resetSeed := Config.freeResetSeed
  unwritten := Config.freeUnwritten
  lostS := Config.freeLostS
  lostLane := Config.freeLostLane
  lostByte := Config.freeLostByte
  hiddenStateQ := Config.freeHiddenStateQ

end Sys2Proof.Machine
end

