-- ==== Sys2Proof/Syntax.lean ====
section
/-!
DEFINITION. The five commands of the block, one constructor per row of `spec/opcode_table.json` (`30_encoding.md` R60,
R61, R64), with the operands the textual syntax of R69 gives them.
-/

namespace Sys2Proof

/-- EndiannessMode, the operand `E`: 0 `specific`, 1 `neutral` (`30_encoding.md` R61). -/
inductive EndianMode where
  | specific
  | neutral
  deriving DecidableEq, Repr, Inhabited

/-- ExecutionMode, the operand `X`: 0 `sequential`, 1 `parallel` (`30_encoding.md` R61). -/
inductive ExecMode where
  | sequential
  | parallel
  deriving DecidableEq, Repr, Inhabited

/-- A command (`30_encoding.md` R60, R64).  `value` is a `W`-bit unsigned integer in a 64-bit field; `count`, `len` and
`f0` are 64-bit unsigned integers (R61). -/
inductive Instr where
  | seed (value : BitVec 64)
  | discard (count : BitVec 64)
  | fillLane (len : BitVec 64) (e : EndianMode)
  | expand (len f0 : BitVec 64) (e : EndianMode) (x : ExecMode)
  | fill (len : BitVec 64) (e : EndianMode) (x : ExecMode)
  deriving DecidableEq, Repr

end Sys2Proof
end

