-- ==== Sys2Proof/Machine/Operands.lean ====
section
/-!
DEFINITION. The pure functions on operands: the primitives of `00_scope.md` R18, the mixing function, the seed remap,
the lane derivation, the two per-slot transforms, the fallback byte, the byte orders and the length arithmetic.
No function here reads or writes state.
-/

namespace Sys2Proof.Machine

/-! ## Primitives (`00_scope.md` R18, `40_mixer.md` R86) -/

/-- `rotl_n(v, k)`: rotate left, the amount taken modulo the width (R18). -/
def rotl {n : Nat} (v : BitVec n) (k : Nat) : BitVec n := v.rotateLeft k

/-- `rotr_n(v, k) = rotl_n(v, (n - (k mod n)) mod n)` (R18). -/
def rotr {n : Nat} (v : BitVec n) (k : Nat) : BitVec n := rotl v ((n - k % n) % n)

/-- The byte of weight `256^i` of `v`, `v[8i+7 : 8i]` (R18). -/
def byteOf {w : Nat} (v : BitVec w) (i : Nat) : Byte := v.extractLsb' (8 * i) 8

/-- `enc(o, v, n)`: the `n` bytes of `v` in byte order `o` (R18). -/
def enc {w : Nat} (o : ByteOrder) (v : BitVec w) (n : Nat) : List Byte :=
  match o with
  | .little => (List.range n).map (fun i => byteOf v i)
  | .big => (List.range n).map (fun i => byteOf v (n - 1 - i))

/-- The number a byte sequence spells with its first byte the least significant. -/
def littleValue : List Byte → Nat
  | [] => 0
  | b :: bs => b.toNat + 256 * littleValue bs

/-- `dec(o, b, n)`, the inverse of `enc`, at width `w` (R18). -/
def dec (w : Nat) (o : ByteOrder) (bs : List Byte) : BitVec w :=
  match o with
  | .little => BitVec.ofNat w (littleValue bs)
  | .big => BitVec.ofNat w (littleValue bs.reverse)

/-- `ord(E)`: `HOST_ORDER` for `specific`, `NEUTRAL_ORDER` for `neutral` (`20_memory.md` R44). -/
def ord (c : Config) : EndianMode → ByteOrder
  | .specific => c.params.hostOrder
  | .neutral => c.params.neutralOrder

/-! ## The mixing function and the seed (`40_mixer.md`, `41_seed_state.md`) -/

/-- `M(x)`: left shift by `a`, right shift by `b`, left shift by `c`, each XORed into the running value
(`40_mixer.md` R80). -/
def mix {w : Nat} (sh : Shifts) (x : BitVec w) : BitVec w :=
  let x1 := x ^^^ (x <<< sh.a)
  let x2 := x1 ^^^ (x1 >>> sh.b)
  x2 ^^^ (x2 <<< sh.c)

/-- `remap(v)`: the all-ones value for 0, else `v` (`41_seed_state.md` R90). -/
def remap {w : Nat} (v : BitVec w) : BitVec w := if v = 0#w then BitVec.allOnes w else v

/-- SEED's operand has width `W`: nothing to check at `W = 64`, the upper half of its field zero at `W = 32`
(`30_encoding.md` R61, R64).  The value is looked at before the width, so that a small value is accepted whatever the
instance is. -/
def valueFits (c : Config) (value : BitVec 64) : Bool :=
  decide (value.toNat < 2 ^ 32) || decide (c.W = 64)

/-! ## The lane derivation (`42_lane_fill.md` R100) -/

/-- `L[0 .. N-1]` from `S`: the first half rotates `S` left, the second half rotates its complement right, by multiples
of `R` reduced modulo `W`. -/
def deriveLanes (c : Config) (s : BitVec c.W) : List (BitVec c.W) :=
  (List.range (c.N / 2)).map (fun i => rotl s ((i * c.params.R) % c.W)) ++
  (List.range (c.N / 2)).map (fun j => rotr (~~~s) ((j * c.params.R) % c.W))

/-! ## The expansion's functions (`43_expansion.md`) -/

/-- `A = ALPHA[XW-1:0]` (R120). -/
def maskA (c : Config) : BitVec c.XW := c.params.alpha.setWidth c.XW

/-- `B = BETA[XW-1:0]` (R120). -/
def maskB (c : Config) : BitVec c.XW := c.params.beta.setWidth c.XW

/-- `TA(v, s) = rotl_XW(xor(v, A), s)` (R121). -/
def transformA (c : Config) (s : Nat) (v : BitVec c.XW) : BitVec c.XW := rotl (v ^^^ maskA c) s

/-- `TB(v, s) = not_XW(rotr_XW(xor(v, B), s))` (R121). -/
def transformB (c : Config) (s : Nat) (v : BitVec c.XW) : BitVec c.XW := ~~~(rotr (v ^^^ maskB c) s)

/-- `rotr_8(b, 2)`, the byte function of the fallback pass (R133). -/
def fallbackByte (b : Byte) : Byte := rotr b 2

/-- `P[k]`, the step of iteration `k` (R120, R123). -/
def stepAt (c : Config) (k : Nat) : Nat := c.params.stepList.getD k 0

/-- The offset of the next iteration: one more, and once more where that is a multiple of `XB` (R124). -/
def nextOffset (c : Config) (offset : Nat) : Nat :=
  if (offset + 1) % c.XB = 0 then offset + 2 else offset + 1

/-- The input window in whole integers, `floor((FILLED monus OFFSET) / XB)` (R125). -/
def inputWindow (c : Config) (filled offset : Nat) : Nat := (filled - offset) / c.XB

/-- The number of slots of a sub-step: the smaller of the input window and the whole integers that still fit in the
buffer (R125, R128). -/
def slotCount (c : Config) (len filled nin : Nat) : Nat := min nin ((len - filled) / c.XB)

/-- `seg`, the initial segment of a FILL: `min(INIT_RANGE_SIZE, floor(LEN / XB) * XB)` (`44_composite.md` R150). -/
def initialSegment (c : Config) (len : Nat) : Nat := min c.params.initRangeSize (len / c.XB * c.XB)

end Sys2Proof.Machine
end

