-- ==== Sys2Proof/Machine/State.lean ====
section
/-!
DEFINITION. The state of the block and of the buffer attached to it, as plain data (`10_state.md`), the reasons a step
can stop without a next state, and the state after reset.
-/

namespace Sys2Proof.Machine

/-- The buffer's contents: address and byte, addresses strictly rising, no entry equal to what its address reads as when
unlisted (`10_state.md` R30, `20_memory.md` R40; the operations stand in `Machine/Ops.lean`). -/
abbrev Memory := List Host.Cell

/-- `PHASE` (`10_state.md` R27). -/
inductive Phase where
  | idle
  | discarding
  | laneInit
  | laneSlots
  | laneChain
  | laneTail
  | expAlpha
  | expBeta
  | expFallback
  | faulted
  deriving DecidableEq, Repr

/-- The causes of `STATUS.CAUSE` (`60_exceptions.md` R160); the reserved codes 4 to 15 are never produced. -/
inductive Cause where
  | none
  | illegalCommand
  | fallbackUnderrun
  | bufferAccess
  deriving DecidableEq, Repr

/-- What the world outside the block does in one step (`30_encoding.md` R62, `70_reset_and_hazards.md` R180, R181).
These are inputs, not state of the block, and `State` holds no sequence of them (`10_state.md` R32): only what the input
ports show now, because a step takes nothing else (assumption log 10). -/
inductive HostEvent where
  /-- The host drives `cmd_valid = 1` with this `cmd_word` (R62). -/
  | present (w : CommandWord)
  /-- The host attaches a buffer of `size` bytes with these contents (R181); `none`: a memory that admits every
  address (`20_memory.md` R48). -/
  | attach (size : Option Nat) (cells : List Host.Cell)
  /-- The reset input, between commands or after a fault (R180). -/
  | reset
  /-- The host presents the word and the reset input comes before the command completes (R180). -/
  | resetDuring (w : CommandWord)
  deriving DecidableEq, Repr

/-- The state: every element `10_state.md` names (R20 to R27, R30), then the buffer's extent, what the input
ports show, and the model's own counter of draws.  The 64-bit working registers of R23 are held as naturals (D21). -/
structure State where
  /-- `S`, the EngineState: `W` bits in a 64-bit container (R20). -/
  S : Word
  /-- `L[0 .. N-1]`, the LaneSet: each `W` bits in a 64-bit container (R22). -/
  L : List Word
  /-- `LEN`, the buffer length of the current fill command (R23). -/
  len : Nat
  /-- `F0`, the initial filled byte count of EXPAND, or the initial segment of FILL (R23). -/
  f0 : Nat
  /-- `E`, the endianness mode of the current fill command (R23). -/
  e : EndianMode
  /-- `CNT`, the remaining DISCARD count (R23). -/
  cnt : Nat
  /-- `T`, the lane-fill slot index (R23). -/
  t : Nat
  /-- `FILLED` (R23). -/
  filled : Nat
  /-- `OFFSET` (R23). -/
  offset : Nat
  /-- `KIDX`, the index into `STEP_LIST` (R23). -/
  kidx : Nat
  /-- `NIN`, the input-window length in integers (R23). -/
  nin : Nat
  /-- `STATUS.BUSY` (R24). -/
  busy : Bool
  /-- `STATUS.FAULT` (R24). -/
  fault : Bool
  /-- `STATUS.UNDERFILL` (R24). -/
  underfill : Bool
  /-- `STATUS.CAUSE` (R24). -/
  cause : Cause
  /-- `PHASE` (R27). -/
  phase : Phase
  /-- `BUF`, the bytes of the attached buffer (R30). -/
  mem : Memory
  /-- How many bytes the attached buffer has; `none` when the memory admits every access (`20_memory.md` R48,
  `60_exceptions.md` R164). -/
  attached : Option Nat
  /-- What the host drives on the input ports at this moment: at most one input, `none` for `cmd_valid = 0` and no reset
  (`30_encoding.md` R62; not the command stream, which stays with the host: R32, assumption log 10). -/
  port : Option HostEvent
  /-- The model's own: how many draws of free values have been made (assumption log 5). -/
  draws : Nat
  deriving DecidableEq, Repr

/-- Where a step stops with a fault. -/
inductive Fault where
  /-- Raised by `step` in a state with `BUSY = 1`: the model performs a command in one step, so it has no way to go on
  in the middle of one (`92_eei_decisions.md` D1).  No step leaves such a state.  Safe. -/
  | midCommand
  deriving DecidableEq, Repr

/-- Where a step is refused. -/
inductive Refusal where
  /-- Raised by an arm of `exec` whose command has no meaning yet; no arm does.  Safe. -/
  | notModelled (mnemonic : String)
  /-- Raised by `step` when the host moves on the buffer while `BUSY = 1`: the host has no such move
  (`70_reset_and_hazards.md` R186, U4).  Safe. -/
  | bufferInUse
  deriving DecidableEq, Repr

/-- The state after reset for the instance `c` (`10_state.md` R34): `S = remap(RESET_SEED)`, `STATUS = 0`,
`PHASE = IDLE`.  The lanes and the working registers, which the spec leaves unspecified, are zero (DESIGN CHOICE,
assumption log 4).  No buffer byte is listed and the ports show nothing. -/
def State.resetIn (c : Config) : State where
  S := (remap ((c.resetSeed 0).setWidth c.W)).setWidth 64
  L := List.replicate c.N 0#64
  len := 0
  f0 := 0
  e := .specific
  cnt := 0
  t := 0
  filled := 0
  offset := 0
  kidx := 0
  nin := 0
  busy := false
  fault := false
  underfill := false
  cause := .none
  phase := .idle
  mem := []
  attached := none
  port := none
  draws := 1

/-- The machine right after reset. -/
def State.reset : State := State.resetIn cfg

end Sys2Proof.Machine
end

