-- ==== Sys2Proof/Machine/Flags.lean ====
section
/-!
DEFINITION. The status word, the ports that show it, and the computation of every flag (`10_state.md` R24, R26;
`30_encoding.md` R62; `43_expansion.md` R134; `60_exceptions.md` R160, R161).
-/

namespace Sys2Proof.Machine

/-- The code of a cause (R160). -/
def Cause.code : Cause → BitVec 4
  | .none => 0#4
  | .illegalCommand => 1#4
  | .fallbackUnderrun => 2#4
  | .bufferAccess => 3#4

/-- `STATUS[7:0]`: `BUSY` bit 0, `FAULT` bit 1, `UNDERFILL` bit 2, bit 3 reads 0, `CAUSE` bits 7:4 (R24). -/
def statusWord (s : State) : BitVec 8 :=
  s.cause.code ++ 0#1 ++ BitVec.ofBool s.underfill ++ BitVec.ofBool s.fault ++ BitVec.ofBool s.busy

/-- `cmd_ready = 1` exactly when `BUSY = 0` and `FAULT = 0` (R62). -/
def cmdReady (s : State) : Bool := !s.busy && !s.fault

/-- `STATE_Q`: `S` while `BUSY = 0` and `FAULT = 0`, else a free value (R26). -/
def stateQ (c : Config) (s : State) : BitVec c.W :=
  if cmdReady s then s.S.setWidth c.W else (c.hiddenStateQ s.draws).setWidth c.W

/-- The numbered registers of R26, for a debugger only: 0 is `STATUS`, 1 is `STATE_Q`, and there are no others. -/
def numberedRegister (c : Config) (s : State) : Nat → Option Word
  | 0 => some ((statusWord s).setWidth 64)
  | 1 => some ((stateQ c s).setWidth 64)
  | _ => none

/-- Acceptance sets `BUSY` (R24, R62). -/
def accept (s : State) : State := { s with busy := true }

/-- Completion clears `BUSY`; the sequencer is idle again (R27, R62). -/
def complete (s : State) : State := { s with busy := false, phase := .idle }

/-- `raise <Cause>`, the one fault-entry action (R161): `FAULT` set, `CAUSE` kept if there was a fault already, `PHASE`
faulted, `BUSY` cleared. -/
def raise (cause : Cause) (s : State) : State :=
  { s with
    fault := true
    cause := if s.fault then s.cause else cause
    phase := .faulted
    busy := false }

/-- `UNDERFILL` is set by a fallback pass over `rem >= XB` bytes and never cleared by a command (R134). -/
def flagUnderfill (c : Config) (rem : Nat) (s : State) : State :=
  { s with underfill := s.underfill || decide (c.XB ≤ rem) }

end Sys2Proof.Machine
end

