-- ==== Sys2Proof/Machine/Ops.lean ====
section
/-!
DEFINITION. The named operations over the buffer and the registers that every meaning is built from: reading and
writing bytes in the canonical form, the register accessors, the outcome of a phase, the loss of state at an imprecise
fault, reset, and attaching a buffer.
-/

namespace Sys2Proof.Machine

/-! ## The buffer (`20_memory.md` R40 to R42)

Every operation takes `d`, what an unlisted address reads as (`Config.unwritten`, assumption log 6). -/

/-- The canonical form of the entries above an address `lo`. -/
def Memory.wfFrom (d : Nat → Byte) : Nat → Memory → Bool
  | _, [] => true
  | lo, (a, b) :: m => decide (lo ≤ a) && decide (b ≠ d a) && Memory.wfFrom d (a + 1) m

/-- The canonical form: addresses strictly rising, no entry equal to what its address reads as when unlisted. -/
def Memory.wf (d : Nat → Byte) (m : Memory) : Bool := Memory.wfFrom d 0 m

/-- The byte at an address. -/
def Memory.read (d : Nat → Byte) : Memory → Nat → Byte
  | [], a => d a
  | (k, b) :: m, a => if a = k then b else Memory.read d m a

/-- A new entry in front, left out where the address reads as `b` anyway. -/
def Memory.consCell (d : Nat → Byte) (a : Nat) (b : Byte) (m : Memory) : Memory :=
  if b = d a then m else (a, b) :: m

/-- Store one byte, keeping the canonical form. -/
def Memory.write (d : Nat → Byte) : Memory → Nat → Byte → Memory
  | [], a, b => Memory.consCell d a b []
  | (k, v) :: m, a, b =>
    if a < k then Memory.consCell d a b ((k, v) :: m)
    else if a = k then Memory.consCell d a b m
    else (k, v) :: Memory.write d m a b

/-- `MemRead(addr, n)` (`00_scope.md` R18). -/
def Memory.readBytes (d : Nat → Byte) (m : Memory) (a n : Nat) : List Byte :=
  (List.range n).map (fun i => Memory.read d m (a + i))

/-- `MemWrite(addr, n, b)`, byte by byte from the lowest address (`00_scope.md` R18, `20_memory.md` R41). -/
def Memory.writeBytes (d : Nat → Byte) : Memory → Nat → List Byte → Memory
  | m, _, [] => m
  | m, a, b :: bs => Memory.writeBytes d (Memory.write d m a b) (a + 1) bs

/-- Bytes `lo .. lo + n - 1` become free values (R161, R180). -/
def Memory.scramble (d free : Nat → Byte) (m : Memory) (lo : Nat) : Nat → Memory
  | 0 => m
  | n + 1 => Memory.write d (Memory.scramble d free m lo n) (lo + n) (free (lo + n))

/-- `BUF[a]`: the model's read of one byte of the buffer (`10_state.md` R30). -/
def bufByte (c : Config) (s : State) (a : Nat) : Byte := Memory.read c.unwritten s.mem a

/-- The platform admits accesses up to, not including, the address `hi` (`20_memory.md` R48, `60_exceptions.md` R164). -/
def admits (s : State) (hi : Nat) : Bool :=
  match s.attached with
  | none => true
  | some size => decide (hi ≤ size)

/-! ## The registers of width `W` -/

/-- Read `S` (`10_state.md` R20). -/
def readS (c : Config) (s : State) : BitVec c.W := s.S.setWidth c.W

/-- Write `S`. -/
def writeS (c : Config) (v : BitVec c.W) (s : State) : State := { s with S := v.setWidth 64 }

/-- Read lane register `L[i]` (`10_state.md` R22). -/
def readLane (c : Config) (s : State) (i : Nat) : BitVec c.W := (s.L.getD i 0#64).setWidth c.W

/-- Write lane register `L[i]`. -/
def writeLane (c : Config) (i : Nat) (v : BitVec c.W) (s : State) : State :=
  { s with L := s.L.set i (v.setWidth 64) }

/-- Write the whole lane file. -/
def writeLanes (c : Config) (vs : List (BitVec c.W)) (s : State) : State :=
  { s with L := vs.map (fun v => v.setWidth 64) }

/-! ## The outcome of a phase -/

/-- A command under way: it runs on, or a cause has been raised at this point of its pseudocode
(`60_exceptions.md` R167). -/
inductive Progress where
  | running (s : State)
  | raised (cause : Cause) (s : State)
  deriving DecidableEq, Repr

/-- The state a command under way has reached. -/
def Progress.state : Progress → State
  | .running s => s
  | .raised _ s => s

/-- The next phase runs if no cause has been raised. -/
def Progress.andThen (p : Progress) (f : State → Progress) : Progress :=
  match p with
  | .running s => f s
  | .raised cause s => .raised cause s

/-- What an imprecise fault leaves (R161, R168, U1): `S`, the lanes and every byte from `lo` up to `LEN` are free
values.  `UNDERFILL` keeps the value it has (assumption log 7). -/
def loseState (c : Config) (lo : Nat) (s : State) : State :=
  { s with
    S := ((c.lostS s.draws).setWidth c.W).setWidth 64
    L := (List.range c.N).map (fun i => ((c.lostLane s.draws i).setWidth c.W).setWidth 64)
    mem := Memory.scramble c.unwritten (c.lostByte s.draws) s.mem lo (s.len - lo)
    draws := s.draws + 1 }

/-- The end of a fill command that owes the bytes `lo .. LEN-1`: completion, or fault entry after the losses of R161. -/
def finish (c : Config) (lo : Nat) (p : Progress) : Host.Outcome State Fault Refusal :=
  match p with
  | .running s => .next (complete s)
  | .raised cause s => .next (raise cause (loseState c lo s))

/-! ## The input ports, reset and the host's buffer -/

/-- The input on the ports has been taken: `cmd_valid` falls, the reset input is released (`30_encoding.md` R62). -/
def takeInput (s : State) : State := { s with port := none }

/-- The reset event (`70_reset_and_hazards.md` R180): every element of the block's state at its reset value, with a new
draw of `RESET_SEED`; the buffer is not the block's, and the input has been taken. -/
def resetEvent (c : Config) (s : State) : State :=
  { State.resetIn c with
    S := (remap ((c.resetSeed s.draws).setWidth c.W)).setWidth 64
    mem := s.mem
    attached := s.attached
    draws := s.draws + 1 }

/-- A fill command of length `n` was cut short by reset: no guarantee about any of the buffer's bytes (R180, U7). -/
def loseBuffer (c : Config) (n : Nat) (s : State) : State :=
  { s with
    mem := Memory.scramble c.unwritten (c.lostByte s.draws) s.mem 0 n
    draws := s.draws + 1 }

/-- Does the byte at this address exist in a buffer of the given extent? -/
def insideExtent (size : Option Nat) (a : Nat) : Bool :=
  match size with
  | none => true
  | some n => decide (a < n)

/-- The host attaches a buffer: its extent and its contents, cells outside the extent left out (R181). -/
def attachBuffer (c : Config) (size : Option Nat) (cells : List Host.Cell) (s : State) : State :=
  { s with
    attached := size
    mem := (cells.filter (fun p => insideExtent size p.1)).foldl (fun m p => Memory.write c.unwritten m p.1 p.2) [] }

end Sys2Proof.Machine
end

