-- ==== Sys2Proof/Machine/Expansion.lean ====
section
/-!
DEFINITION. The geometric_fill_doubler with its rotate_xor_transform: the phases of the expansion in the order they run,
and EXPAND (`43_expansion.md` R120 to R137).
-/

namespace Sys2Proof.Machine

/-- Slot `j` of a sub-step: the integer at `src + j*XB`, transformed, stored at `dst + j*XB` (R126, R129). -/
def copySlot (c : Config) (o : ByteOrder) (f : BitVec c.XW → BitVec c.XW) (src dst : Nat) (m : Memory) (j : Nat) :
    Memory :=
  Memory.writeBytes c.unwritten m (dst + j * c.XB)
    (enc o (f (dec c.XW o (Memory.readBytes c.unwritten m (src + j * c.XB) c.XB))) c.XB)

/-- Slots `0 .. n-1` of a sub-step, in ascending order; any order gives the same buffer (R136, assumption log 14). -/
def copySlots (c : Config) (o : ByteOrder) (f : BitVec c.XW → BitVec c.XW) (src dst : Nat) (m : Memory) : Nat → Memory
  | 0 => m
  | n + 1 => copySlot c o f src dst (copySlots c o f src dst m n) n

/-- A sub-step with transform `f` over the window `OFFSET`, `NIN`: its slots, then `FILLED` advances (R125 to R129).
An output byte the platform refuses raises BUFFER_ACCESS (`60_exceptions.md` R164). -/
def subStep (c : Config) (f : BitVec c.XW → BitVec c.XW) (phase : Phase) (s : State) : Progress :=
  let n := slotCount c s.len s.filled s.nin
  if n = 0 || admits s (s.filled + n * c.XB) then
    .running { s with
      mem := copySlots c (ord c s.e) f s.offset s.filled s.mem n
      filled := s.filled + n * c.XB
      phase := phase }
  else .raised .bufferAccess s

/-- The Alpha sub-step with step `p`: the window is computed, then the slots run (R125 to R127). -/
def alphaStep (c : Config) (p : Nat) (s : State) : Progress :=
  subStep c (transformA c p) .expAlpha { s with nin := inputWindow c s.filled s.offset }

/-- The input window of the Beta sub-step: the Alpha window, or a new one where the instance recomputes it (R128). -/
def betaWindow (c : Config) (s : State) : Nat :=
  match c.params.betaWindow with
  | .same => s.nin
  | .recomputed => inputWindow c s.filled s.offset

/-- The Beta sub-step with step `p`, only if space remains (R128, R129). -/
def betaStep (c : Config) (p : Nat) (s : State) : Progress :=
  if s.filled < s.len then subStep c (transformB c p) .expBeta { s with nin := betaWindow c s }
  else .running s

/-- The end of an iteration: `KIDX` and `OFFSET` advance (R124, R130). -/
def nextIteration (c : Config) (s : State) : State :=
  { s with kidx := s.kidx + 1, offset := nextOffset c s.offset }

/-- One iteration, with the step `P[KIDX]` (R123). -/
def iteration (c : Config) (s : State) : Progress :=
  ((alphaStep c (stepAt c s.kidx) s).andThen (betaStep c (stepAt c s.kidx))).andThen
    (fun s => .running (nextIteration c s))

/-- The loop, `while FILLED < LEN and KIDX < K`, for at most the given number of iterations (R123, R131). -/
def expandLoop (c : Config) : Nat → State → Progress
  | 0, s => .running s
  | n + 1, s =>
    if s.filled < s.len ∧ s.kidx < c.params.stepList.length then (iteration c s).andThen (expandLoop c n)
    else .running s

/-- The initialisation of every expansion (R122). -/
def expandStart (s : State) : State := { s with filled := min s.f0 s.len, offset := 1, kidx := 0 }

/-- Bytes `lo .. lo + n - 1` of the fallback pass, ascending: each is the fallback function of the byte `rem` positions
earlier (R133). -/
def fallbackBytes (c : Config) (rem lo : Nat) (m : Memory) : Nat → Memory
  | 0 => m
  | n + 1 =>
    let m' := fallbackBytes c rem lo m n
    Memory.write c.unwritten m' (lo + n) (fallbackByte (Memory.read c.unwritten m' (lo + n - rem)))

/-- The fallback pass: nothing when no byte remains, FALLBACK_UNDERRUN when more remain than are filled, else the flag
and the bytes (R132 to R134). -/
def fallbackPass (c : Config) (s : State) : Progress :=
  let rem := s.len - s.filled
  if rem = 0 then .running s
  else if s.filled < rem then .raised .fallbackUnderrun { s with phase := .expFallback }
  else
    let flagged := flagUnderfill c rem { s with phase := .expFallback }
    if admits s s.len then .running { flagged with mem := fallbackBytes c rem s.filled s.mem rem }
    else .raised .bufferAccess flagged

/-- The whole expansion (R137): at most `K` iterations, since each advances `KIDX`.  `FILLED < LEN` is looked at before
the step list, so that an expansion with nothing to do does not ask for it. -/
def expansion (c : Config) (s : State) : Progress :=
  let start := expandStart s
  (if start.filled < start.len then expandLoop c c.params.stepList.length start else .running start).andThen (fallbackPass c)

/-- `EXPAND len, f0, e, x` (R137).  `x` changes nothing (R136, D28). -/
def expandIn (c : Config) (len f0 : BitVec 64) (e : EndianMode) (_x : ExecMode) (s : State) :
    Host.Outcome State Fault Refusal :=
  finish c (min f0.toNat len.toNat) (expansion c { accept s with len := len.toNat, f0 := f0.toNat, e := e })

/-- The meaning of EXPAND. -/
def execExpand (len f0 : BitVec 64) (e : EndianMode) (x : ExecMode) (s : State) : Host.Outcome State Fault Refusal :=
  expandIn cfg len f0 e x s

end Sys2Proof.Machine
end

