-- ==== Sys2Proof/Machine/LaneFill.lean ====
section
/-!
DEFINITION. The lane_rotation_expander: the phases of the lane fill in the order they run, and FILL_LANE
(`42_lane_fill.md` R100 to R109).
-/

namespace Sys2Proof.Machine

/-- Phase LANE_INIT: all `N` lanes from `S` (R100). -/
def laneInit (c : Config) (s : State) : State :=
  { writeLanes c (deriveLanes c (readS c s)) s with t := 0, phase := .laneInit }

/-- The slot step for slot `T`: lane `T mod N` advances first, then its new value is written (R104, R105). -/
def laneSlot (c : Config) (s : State) : State :=
  let l := s.t % c.N
  let v := mix c.params.shifts (readLane c s l)
  { writeLane c l v s with
    mem := Memory.writeBytes c.unwritten s.mem (s.t * c.WB) (enc (ord c s.e) v c.WB)
    t := s.t + 1
    phase := .laneSlots }

/-- Phase LANE_SLOTS: the slot steps `0 .. n-1` in order (R105). -/
def laneSlots (c : Config) (n : Nat) (s : State) : State := Nat.iterate (laneSlot c) n s

/-- Phase LANE_CHAIN: `S <- M(L[0])` (R106). -/
def laneChain (c : Config) (s : State) : State :=
  { writeS c (mix c.params.shifts (readLane c s 0)) s with phase := .laneChain }

/-- Phase LANE_TAIL, for the `r` bytes after slot `n - 1`: one more step of the chained state, the first `r` bytes of
its encoding (R108). -/
def laneTail (c : Config) (n r : Nat) (s : State) : State :=
  let v := mix c.params.shifts (readS c s)
  { writeS c v s with
    mem := Memory.writeBytes c.unwritten s.mem (n * c.WB) ((enc (ord c s.e) v c.WB).take r)
    phase := .laneTail }

/-- The phases on the first `len > 0` bytes of the buffer (R109). -/
def lanePhases (c : Config) (len : Nat) (s : State) : State :=
  let chained := laneChain c (laneSlots c (len / c.WB) (laneInit c s))
  if len % c.WB = 0 then chained else laneTail c (len / c.WB) (len % c.WB) chained

/-- The lane fill of the first `len` bytes of the buffer: nothing for a length of 0; a byte the platform refuses raises
BUFFER_ACCESS (R109; `60_exceptions.md` R164). -/
def laneFill (c : Config) (len : Nat) (s : State) : Progress :=
  if len = 0 then .running s
  else if admits s len then .running (lanePhases c len s)
  else .raised .bufferAccess s

/-- `FILL_LANE len, e` (R109).  A zero length changes nothing at all (D13). -/
def fillLaneIn (c : Config) (len : BitVec 64) (e : EndianMode) (s : State) : Host.Outcome State Fault Refusal :=
  if len = 0#64 then finish c 0 (.running (accept s))
  else finish c 0 (laneFill c len.toNat { accept s with len := len.toNat, e := e })

/-- The meaning of FILL_LANE. -/
def execFillLane (len : BitVec 64) (e : EndianMode) (s : State) : Host.Outcome State Fault Refusal :=
  fillLaneIn cfg len e s

end Sys2Proof.Machine
end

