-- ==== Sys2Proof/Machine/Composite.lean ====
section
/-!
DEFINITION. The composite fill: the initial segment by lanes, the rest by expansion (`44_composite.md` R150).
-/

namespace Sys2Proof.Machine

/-- `FILL len, e, x` (R150): a lane fill of the initial segment, then the expansion with `F0 = seg`.  A zero length
changes nothing at all (D13). -/
def fillIn (c : Config) (len : BitVec 64) (e : EndianMode) (_x : ExecMode) (s : State) :
    Host.Outcome State Fault Refusal :=
  if len = 0#64 then finish c 0 (.running (accept s))
  else
    let seg := initialSegment c len.toNat
    finish c 0 ((laneFill c seg { accept s with len := len.toNat, f0 := seg, e := e }).andThen (expansion c))

/-- The meaning of FILL. -/
def execFill (len : BitVec 64) (e : EndianMode) (x : ExecMode) (s : State) : Host.Outcome State Fault Refusal :=
  fillIn cfg len e x s

end Sys2Proof.Machine
end

