-- ==== Sys2Proof/Machine/SeedState.lean ====
section
/-!
DEFINITION. The seed_state_machine: SEED and DISCARD (`41_seed_state.md` R90, R92).  Neither touches the buffer, a lane
or a flag.
-/

namespace Sys2Proof.Machine

/-- `SEED value`: `S <- remap(value)` (R90). -/
def seedIn (c : Config) (value : BitVec 64) (s : State) : Host.Outcome State Fault Refusal :=
  .next (complete (writeS c (remap (value.setWidth c.W)) (accept s)))

/-- One application of `M` to `S`, one off the remaining count (R92). -/
def discardStep (c : Config) (s : State) : State :=
  { writeS c (mix c.params.shifts (readS c s)) s with cnt := s.cnt - 1 }

/-- `DISCARD count`: `S <- M^count(S)`, by iteration (R92). -/
def discardIn (c : Config) (count : BitVec 64) (s : State) : Host.Outcome State Fault Refusal :=
  .next (complete (Nat.iterate (discardStep c) count.toNat
    { accept s with cnt := count.toNat, phase := .discarding }))

/-- The meaning of SEED. -/
def execSeed (value : BitVec 64) (s : State) : Host.Outcome State Fault Refusal := seedIn cfg value s

/-- The meaning of DISCARD. -/
def execDiscard (count : BitVec 64) (s : State) : Host.Outcome State Fault Refusal := discardIn cfg count s

end Sys2Proof.Machine
end

