-- ==== Sys2Proof/Machine/Dispatch.lean ====
section
/-! DEFINITION. One arm per command: the meaning it calls. -/

namespace Sys2Proof.Machine

def exec (i : Instr) (s : State) : Host.Outcome State Fault Refusal :=
  match i with
  | .seed value => Sys2Proof.Machine.execSeed value s
  | .discard count => Sys2Proof.Machine.execDiscard count s
  | .fillLane len e => Sys2Proof.Machine.execFillLane len e s
  | .expand len f0 e x => Sys2Proof.Machine.execExpand len f0 e x s
  | .fill len e x => Sys2Proof.Machine.execFill len e x s

end Sys2Proof.Machine
end

