-- ==== Sys2Proof/WellFormed.lean ====
section
/-!
DEFINITION. Which commands a word can carry.  The only operand that may not fit its field's meaning is SEED's `value`:
it is a `W`-bit integer, and for `W = 32` the upper half of its field must be 0 (`30_encoding.md` R61, R64).  Every
other operand value is legal (R67).
-/

namespace Sys2Proof

/-- The commands of R64 for the instance `c`. -/
def Instr.WellFormed (c : Config) : Instr → Bool
  | .seed value => Machine.valueFits c value
  | .discard _ => true
  | .fillLane _ _ => true
  | .expand _ _ _ _ => true
  | .fill _ _ _ => true

end Sys2Proof
end

