-- ==== Sys2Proof/Decode.lean ====
section
/-!
DEFINITION. From a 192-bit command word to a command, total and rejecting by name (`30_encoding.md` R63 to R66), and
the encoder written from the same table.  A word arrives whole on the command port: there is no fetch, no byte order and
no variable length (R60, R68; `20_memory.md` R45).
-/

namespace Sys2Proof

/-- Why a word is no command: the three checks of R65, in the order it makes them. -/
inductive IllegalWord where
  /-- `w[63:10]` is not 0. -/
  | reservedBits
  /-- `w[7:0]` is not one of 0x01 to 0x05. -/
  | unknownOpcode
  /-- A field the row of R64 does not use is not 0. -/
  | mustBeZero
  deriving DecidableEq, Repr

namespace CommandWord

/-- `OP`, bits 7:0 (R63). -/
def op (w : CommandWord) : BitVec 8 := w.extractLsb' 0 8

/-- `E`, bit 8 (R63). -/
def e (w : CommandWord) : Bool := w.getLsbD 8

/-- `X`, bit 9 (R63). -/
def x (w : CommandWord) : Bool := w.getLsbD 9

/-- `RSV`, bits 63:10 (R63). -/
def rsv (w : CommandWord) : BitVec 54 := w.extractLsb' 10 54

/-- `ARG0`, bits 127:64 (R63). -/
def arg0 (w : CommandWord) : BitVec 64 := w.extractLsb' 64 64

/-- `ARG1`, bits 191:128 (R63). -/
def arg1 (w : CommandWord) : BitVec 64 := w.extractLsb' 128 64

end CommandWord

/-- The mode an `E` bit spells: 0 `specific`, 1 `neutral` (R61). -/
def EndianMode.ofBit : Bool → EndianMode
  | false => .specific
  | true => .neutral

/-- The `E` bit of a mode (R61). -/
def EndianMode.toBit : EndianMode → Bool
  | .specific => false
  | .neutral => true

/-- The mode an `X` bit spells: 0 `sequential`, 1 `parallel` (R61). -/
def ExecMode.ofBit : Bool → ExecMode
  | false => .sequential
  | true => .parallel

/-- The `X` bit of a mode (R61). -/
def ExecMode.toBit : ExecMode → Bool
  | .sequential => false
  | .parallel => true

/-- The command `i` when the row's must-be-0 fields are 0 (R65, third check). -/
def whenZero (zero : Bool) (i : Instr) : Except IllegalWord Instr :=
  if zero then .ok i else .error .mustBeZero

/-- The decoder of R65 for the instance `c`, rows as in the opcode map of R64. -/
def decodeIn (c : Config) (w : CommandWord) : Except IllegalWord Instr :=
  if w.rsv ≠ 0#54 then .error .reservedBits
  else match w.op.toNat with
    | 0x01 => whenZero (!w.e && !w.x && w.arg1 == 0#64 && Machine.valueFits c w.arg0) (.seed w.arg0)
    | 0x02 => whenZero (!w.e && !w.x && w.arg1 == 0#64) (.discard w.arg0)
    | 0x03 => whenZero (!w.x && w.arg1 == 0#64) (.fillLane w.arg0 (.ofBit w.e))
    | 0x04 => whenZero true (.expand w.arg0 w.arg1 (.ofBit w.e) (.ofBit w.x))
    | 0x05 => whenZero (w.arg1 == 0#64) (.fill w.arg0 (.ofBit w.e) (.ofBit w.x))
    | _ => .error .unknownOpcode

/-- The machine's decoder. -/
def decode (w : CommandWord) : Except IllegalWord Instr := decodeIn Machine.cfg w

/-- What the decoder reads from a row of `spec/opcode_table.json` given as a number: the low `nbits` bits of `w`, every
other bit 0.  A number that does not fit the port's 192 bits is no word. -/
def decodeTableWord (nbits w : Nat) : Option Instr :=
  if w % 2 ^ nbits < 2 ^ 192 then (decode (BitVec.ofNat 192 (w % 2 ^ nbits))).toOption else none

/-! ## The encoder -/

/-- `OP` of a command (R64). -/
def Instr.opcode : Instr → BitVec 8
  | .seed _ => 0x01#8
  | .discard _ => 0x02#8
  | .fillLane _ _ => 0x03#8
  | .expand _ _ _ _ => 0x04#8
  | .fill _ _ _ => 0x05#8

/-- A word put together from its fields, `RSV` 0 (R63). -/
def assemble (arg1 arg0 : BitVec 64) (x e : Bool) (op : BitVec 8) : CommandWord :=
  arg1 ++ arg0 ++ 0#54 ++ BitVec.ofBool x ++ BitVec.ofBool e ++ op

/-- The word of a command (R63, R64). -/
def encode (i : Instr) : CommandWord :=
  match i with
  | .seed value => assemble 0#64 value false false i.opcode
  | .discard count => assemble 0#64 count false false i.opcode
  | .fillLane len e => assemble 0#64 len false e.toBit i.opcode
  | .expand len f0 e x => assemble f0 len x.toBit e.toBit i.opcode
  | .fill len e x => assemble 0#64 len x.toBit e.toBit i.opcode

/-! ## Textual syntax -/

/-- The word R69 writes for an endianness mode. -/
def EndianMode.text : EndianMode → String
  | .specific => "specific"
  | .neutral => "neutral"

/-- The word R69 writes for an execution mode. -/
def ExecMode.text : ExecMode → String
  | .sequential => "sequential"
  | .parallel => "parallel"

/-- A command in the textual syntax of R69, numbers in decimal. -/
def Instr.text : Instr → String
  | .seed value => "SEED " ++ toString value.toNat
  | .discard count => "DISCARD " ++ toString count.toNat
  | .fillLane len e => "FILL_LANE " ++ toString len.toNat ++ ", " ++ e.text
  | .expand len f0 e x =>
    "EXPAND " ++ toString len.toNat ++ ", " ++ toString f0.toNat ++ ", " ++ e.text ++ ", " ++ x.text
  | .fill len e x => "FILL " ++ toString len.toNat ++ ", " ++ e.text ++ ", " ++ x.text

end Sys2Proof
end

