-- ==== Sys2Proof/Machine/Port.lean ====
section
/-!
DEFINITION. What one input from the host does: the command handshake, the buffer attachment and the reset input
(`30_encoding.md` R62, R65, R66; `60_exceptions.md` R162; `70_reset_and_hazards.md` R180, R181, R186).
-/

namespace Sys2Proof.Machine

/-- An accepted word: the command it decodes to is performed, or ILLEGAL_COMMAND is raised before any effect
(R65, R66, R162). -/
def perform (c : Config) (run : Instr → State → Host.Outcome State Fault Refusal) (w : CommandWord) (s : State) :
    Host.Outcome State Fault Refusal :=
  match decodeIn c w with
  | .ok i => run i s
  | .error _ => .next (raise .illegalCommand s)

/-- The host presents a word: it is accepted, and leaves the port, exactly when `cmd_ready = 1`; in the faulted state it
is not, and nothing changes (R62; assumption log 11). -/
def presentWord (c : Config) (run : Instr → State → Host.Outcome State Fault Refusal) (w : CommandWord) (s : State) :
    Host.Outcome State Fault Refusal :=
  if cmdReady s then perform c run w (takeInput s)
  else if s.busy then .fault .midCommand
  else .next s

/-- How many buffer bytes a command cut short may leave in any state: those of the buffer it was to fill. -/
def ownedBytes : Instr → Nat
  | .seed _ => 0
  | .discard _ => 0
  | .fillLane len _ => len.toNat
  | .expand len _ _ _ => len.toNat
  | .fill len _ _ => len.toNat

/-- A command cut short by reset (R180, U7): if the word was accepted and was a fill, its buffer is lost; then the
reset event. -/
def resetDuringWord (c : Config) (w : CommandWord) (s : State) : State :=
  match cmdReady s, decodeIn c w with
  | true, .ok i => resetEvent c (loseBuffer c (ownedBytes i) s)
  | _, _ => resetEvent c s

/-- The effect of the input `ev` on the ports. -/
def inputStep (c : Config) (run : Instr → State → Host.Outcome State Fault Refusal) (ev : HostEvent) (s : State) :
    Host.Outcome State Fault Refusal :=
  match ev with
  | .present w => presentWord c run w s
  | .attach size cells => if s.busy then .refused .bufferInUse else .next (attachBuffer c size cells (takeInput s))
  | .reset => .next (resetEvent c s)
  | .resetDuring w => .next (resetDuringWord c w s)

/-- One step: the input on the ports has its effect; with none, `cmd_valid = 0` and an idle block stays as it is. -/
def portStep (c : Config) (run : Instr → State → Host.Outcome State Fault Refusal) (s : State) :
    Host.Outcome State Fault Refusal :=
  match s.port with
  | none => if s.busy then .fault .midCommand else .next s
  | some ev => inputStep c run ev s

end Sys2Proof.Machine
end

