-- ==== Sys2Proof/Machine/Step.lean ====
section
/-!
DEFINITION. One step of the machine: one input of the host, and with a command word the whole command, from idle to idle
or to the faulted state (`92_eei_decisions.md` D1).
-/

namespace Sys2Proof.Machine

/-- The machine's step. -/
def step (s : State) : Host.Outcome State Fault Refusal := portStep cfg exec s

/-- `s` with the word of a table row (the low `nbits` bits of `w`) on the command port: the host presents
it. -/
def State.withFetchWord (s : State) (nbits w : Nat) : State :=
  { s with port := some (.present (BitVec.ofNat 192 (w % 2 ^ nbits))) }

end Sys2Proof.Machine
end

