-- ==== Sys2Proof/Safety.lean ====
section
/-!
DEFINITION. The terms claims are made in: the legal states (the invariant of a command boundary), a sequence of
commands, and the length arithmetic a host can do beforehand to know where an expansion ends (`40_mixer.md` R88,
`60_exceptions.md` R163).
-/

namespace Sys2Proof.Safety

open Sys2Proof.Machine

/-- A word kept in a 64-bit container has width `W`. -/
abbrev FitsW (c : Config) (v : Word) : Prop := v.toNat < 2 ^ c.W

/-- The states of a command boundary: no command is being performed; `PHASE` is `FAULTED` exactly when `FAULT = 1`, else
`IDLE` (`10_state.md` R27); `CAUSE` is 0 exactly when `FAULT = 0` (R24); `S` is not zero unless the run has faulted
(R21); the `W`-bit registers hold `W`-bit values; there are `N` lanes; the buffer is in canonical form. -/
abbrev Legal (c : Config) (s : State) : Prop :=
  s.busy = false ∧
  s.phase = (if s.fault then Phase.faulted else Phase.idle) ∧
  (s.cause = Cause.none ↔ s.fault = false) ∧
  (s.fault = false → s.S ≠ 0#64) ∧
  FitsW c s.S ∧
  s.L.length = c.N ∧
  (∀ v ∈ s.L, FitsW c v) ∧
  Memory.wf c.unwritten s.mem = true

/-- The illegal encodings as R66 lists them: `OP = 0x00`, `OP` in 0x06 to 0xFF, a nonzero `RSV` bit, or a nonzero
must-be-0 field of the opcode's row of R64. -/
abbrev IllegalEncoding (c : Config) (w : CommandWord) : Prop :=
  w.op = 0x00#8 ∨ 0x06 ≤ w.op.toNat ∨ w.rsv ≠ 0#54 ∨
  (w.op = 0x01#8 ∧ (w.e = true ∨ w.x = true ∨ w.arg1 ≠ 0#64 ∨ (c.W = 32 ∧ w.arg0.extractLsb' 32 32 ≠ 0#32))) ∨
  (w.op = 0x02#8 ∧ (w.e = true ∨ w.x = true ∨ w.arg1 ≠ 0#64)) ∨
  (w.op = 0x03#8 ∧ (w.x = true ∨ w.arg1 ≠ 0#64)) ∨
  (w.op = 0x05#8 ∧ w.arg1 ≠ 0#64)

/-- Commands one after another, stopping where one does not answer a next state (`20_memory.md` R52). -/
def runCommands : List Instr → State → Host.Outcome State Fault Refusal
  | [], s => .next s
  | i :: is, s =>
    match exec i s with
    | .next s' => runCommands is s'
    | .fault r => .fault r
    | .refused r => .refused r

/-- A run (`70_reset_and_hazards.md` R182): the host drives its inputs one after another, each taking one step. -/
def runInputs : List HostEvent → State → Host.Outcome State Fault Refusal
  | [], s => .next s
  | ev :: evs, s =>
    match step { s with port := some ev } with
    | .next s' => runInputs evs s'
    | .fault r => .fault r
    | .refused r => .refused r

/-- `FILLED` after an Alpha sub-step and, where space remains, a Beta sub-step, from lengths alone (R125 to R129). -/
def grow (c : Config) (len filled offset : Nat) : Nat :=
  let nin := inputWindow c filled offset
  let mid := filled + slotCount c len filled nin * c.XB
  if mid < len then
    let nin' := match c.params.betaWindow with
      | .same => nin
      | .recomputed => inputWindow c mid offset
    mid + slotCount c len mid nin' * c.XB
  else mid

/-- `FILLED` after at most `n` iterations from the given `FILLED` and `OFFSET` (R123, R130). -/
def growLoop (c : Config) (len : Nat) : Nat → Nat → Nat → Nat
  | 0, filled, _ => filled
  | n + 1, filled, offset =>
    if filled < len then growLoop c len n (grow c len filled offset) (nextOffset c offset) else filled

/-- `FILLED` at the end of the loop of an expansion of `len` bytes with `f0` filled (R131): a function of the lengths and
the constants, not of data (R88). -/
def reach (c : Config) (len f0 : Nat) : Nat := growLoop c len c.params.stepList.length (min f0 len) 1

/-- The bytes left to the fallback pass (R132). -/
def remaining (c : Config) (len f0 : Nat) : Nat := len - reach c len f0

/-- The expansion ends in FALLBACK_UNDERRUN: more bytes remain than are filled (R132, R163). -/
abbrev Underruns (c : Config) (len f0 : Nat) : Prop := reach c len f0 < remaining c len f0

/-- `FILLED` after one iteration on a buffer without end (R135). -/
def growFree (c : Config) (filled offset : Nat) : Nat :=
  let nin := inputWindow c filled offset
  let mid := filled + nin * c.XB
  let nin' := match c.params.betaWindow with
    | .same => nin
    | .recomputed => inputWindow c mid offset
  mid + nin' * c.XB

/-- `FILLED` after `n` iterations on a buffer without end (R135). -/
def freeReach (c : Config) : Nat → Nat → Nat → Nat
  | 0, filled, _ => filled
  | n + 1, filled, offset => freeReach c n (growFree c filled offset) (nextOffset c offset)

/-- `G`, the last figure of the table of R135 for the configuration: how far the step list carries a FILL. -/
def growthLimit (c : Config) : Nat := freeReach c c.params.stepList.length c.params.initRangeSize 1

/-- `c0 = ceil(n / N)`, the number of slots lane 0 serves (`41_seed_state.md` R94). -/
def laneZeroSlots (c : Config) (n : Nat) : Nat := (n + c.N - 1) / c.N

/-- `M^k` on a `W`-bit register in its container. -/
def mixed (c : Config) (k : Nat) (v : Word) : Word :=
  ((Nat.iterate (mix c.params.shifts) k (v.setWidth c.W)).setWidth 64)

end Sys2Proof.Safety
end

