-- ==== Sys2Proof/Certificates/Slice0/Obligations.lean ====
section
/-!
DEFINITION. The statements about this model, for the provers.  `cfg` is the machine's opaque configuration, so a
statement about it holds of every well-formed instance of either width.  The working registers of R23, which the spec
leaves unspecified outside a command, are left open wherever a fill command may change them (`len := t.len` and so on).
-/

open Sys2Proof Sys2Proof.Machine Sys2Proof.Safety

/-! ## Encoding (`30_encoding.md`) -/

/-- The encoded examples of R71, which the spec marks derived from R63 and R64: five legal words and three illegal ones. -/
def Obligations.DecodeWorkedWords : Prop :=
  decode 0x0000000000000000000000000000002A0000000000000001#192 = .ok (.seed 42#64) ∧
  decode 0x000000000000000000000000000000030000000000000002#192 = .ok (.discard 3#64) ∧
  decode 0x000000000000000000000000000000140000000000000103#192 = .ok (.fillLane 20#64 .neutral) ∧
  decode 0x000000000000001000000000000000280000000000000204#192 =
    .ok (.expand 40#64 16#64 .specific .parallel) ∧
  decode 0x00000000000000000000000000000FA00000000000000305#192 = .ok (.fill 4000#64 .neutral .parallel) ∧
  (∃ err, decode 0#192 = .error err) ∧
  (∃ err, decode 0x000000000000000000000000000000140000000000000203#192 = .error err) ∧
  (∃ err, decode 0x0000000000000001000000000000002A0000000000000001#192 = .error err)

/-- Decoding the word of any well-formed command gives the command back, every operand at every value (R63 to R65). -/
def Obligations.DecodeEncodeRoundTrip : Prop :=
  ∀ i : Instr, i.WellFormed cfg = true → decode (encode i) = .ok i

/-- A word that decodes to a command is that command's one word, and the command is well formed (R65: "each word is
either exactly one legal command or illegal"). -/
def Obligations.EncodeDecodeRoundTrip : Prop :=
  ∀ (w : CommandWord) (i : Instr), decode w = .ok i → encode i = w ∧ i.WellFormed cfg = true

/-- The decoder as match and mask over the 192-bit word (R65), with the operands of each row. -/
def Obligations.DecoderAsMatchAndMask : Prop :=
  ∀ w : CommandWord,
    ((∃ v, decode w = .ok (.seed v)) ↔
      w &&& (if cfg.W = 32 then 0xFFFFFFFFFFFFFFFFFFFFFFFF00000000FFFFFFFFFFFFFFFF#192
        else 0xFFFFFFFFFFFFFFFF0000000000000000FFFFFFFFFFFFFFFF#192) = 0x01#192) ∧
    ((∃ k, decode w = .ok (.discard k)) ↔
      w &&& 0xFFFFFFFFFFFFFFFF0000000000000000FFFFFFFFFFFFFFFF#192 = 0x02#192) ∧
    ((∃ n e, decode w = .ok (.fillLane n e)) ↔
      w &&& 0xFFFFFFFFFFFFFFFF0000000000000000FFFFFFFFFFFFFEFF#192 = 0x03#192) ∧
    ((∃ n f e x, decode w = .ok (.expand n f e x)) ↔
      w &&& 0x00000000000000000000000000000000FFFFFFFFFFFFFCFF#192 = 0x04#192) ∧
    ((∃ n e x, decode w = .ok (.fill n e x)) ↔
      w &&& 0xFFFFFFFFFFFFFFFF0000000000000000FFFFFFFFFFFFFCFF#192 = 0x05#192) ∧
    (∀ i, decode w = .ok i →
      match i with
      | .seed v => v = w.extractLsb' 64 64
      | .discard k => k = w.extractLsb' 64 64
      | .fillLane n e => n = w.extractLsb' 64 64 ∧ (e = .neutral ↔ w.getLsbD 8 = true)
      | .expand n f e x =>
        n = w.extractLsb' 64 64 ∧ f = w.extractLsb' 128 64 ∧
          (e = .neutral ↔ w.getLsbD 8 = true) ∧ (x = .parallel ↔ w.getLsbD 9 = true)
      | .fill n e x =>
        n = w.extractLsb' 64 64 ∧ (e = .neutral ↔ w.getLsbD 8 = true) ∧ (x = .parallel ↔ w.getLsbD 9 = true))

/-- The illegal encodings are exactly those R66 lists, and an accepted illegal word raises ILLEGAL_COMMAND and changes
no other state (R66, R162).  That `S`, the lanes, the buffer and `UNDERFILL` stay as they were, where R161 lets one rely
on nothing, is the model's reading of the more specific rules (assumption log 18), and that the word leaves the port is
the form of its input (assumption log 10). -/
def Obligations.IllegalWordRaisesIllegalCommand : Prop :=
  (∀ w : CommandWord, (∃ err, decode w = .error err) ↔ IllegalEncoding cfg w) ∧
  (∀ (s : State) (w : CommandWord),
    s.port = some (.present w) → cmdReady s = true → IllegalEncoding cfg w →
    step s = .next { s with port := none, fault := true, cause := .illegalCommand, phase := .faulted })

/-! ## The step and the ports (`30_encoding.md` R62, `60_exceptions.md`, `70_reset_and_hazards.md`) -/

/-- A ready block performs the command the presented word decodes to (R62); the form of the input, a word on the port that
leaves it when accepted, is the model's (assumption log 10). -/
def Obligations.StepRunsDecodedCommand : Prop :=
  ∀ (s : State) (w : CommandWord) (i : Instr),
    s.port = some (.present w) → cmdReady s = true → decode w = .ok i →
    step s = exec i { s with port := none }

/-- `raise` sets `FAULT`, keeps the first cause, and makes the block not ready (R161).  That it keeps `S`, the lanes, the
buffer and `UNDERFILL`, where R161 lets one rely on none of them, is the model's reading for ILLEGAL_COMMAND (assumption
log 18); an imprecise fault loses them outside `raise`, but for `UNDERFILL` (assumption log 7). -/
def Obligations.RaiseEntersFaultedState : Prop :=
  ∀ (cause : Cause) (s : State),
    raise cause s = { s with
      fault := true, cause := if s.fault = true then s.cause else cause, phase := .faulted, busy := false } ∧
    cmdReady (raise cause s) = false

/-- In the faulted state no command is ever accepted, and only reset leaves it (R161, R169): one step with each input
and with none, and any sequence of inputs without a reset.  That a word presented there stays on the port is the form of
the model's input (assumption log 11). -/
def Obligations.FaultedUntilReset : Prop :=
  ∀ s : State, s.fault = true → s.busy = false →
    (match s.port with
      | none => step s = .next s
      | some (.present _) => step s = .next s
      | some (.attach size _) =>
        ∃ t, step s = .next t ∧ t = { s with port := none, attached := size, mem := t.mem } ∧ t.fault = true
      | some .reset => ∃ t, step s = .next t ∧ t.fault = false ∧ cmdReady t = true
      | some (.resetDuring _) => ∃ t, step s = .next t ∧ t.fault = false ∧ cmdReady t = true) ∧
    (∀ evs : List HostEvent, (∀ ev ∈ evs, ev ≠ .reset ∧ ∀ w, ev ≠ .resetDuring w) →
      ∃ t, runInputs evs s = .next t ∧
        t = { s with port := t.port, attached := t.attached, mem := t.mem } ∧ cmdReady t = false)

/-- The reset event (R180): every element at the value of R34, `S` the remap of a new draw of `RESET_SEED`; the buffer
is untouched.  (The lanes and the working registers are unspecified and not named; the draw is the
model's form of the open value, assumption log 5.) -/
def Obligations.ResetEventReachesResetValues : Prop :=
  ∀ s : State, s.port = some .reset →
    ∃ t, step s = .next t ∧
      t.S = (remap ((cfg.resetSeed s.draws).setWidth cfg.W)).setWidth 64 ∧ t.S ≠ 0#64 ∧
      statusWord t = 0#8 ∧ t.phase = .idle ∧ cmdReady t = true ∧
      t.mem = s.mem ∧ t.attached = s.attached ∧ t.port = none

/-- The state after reset (R34).  That no buffer byte is listed is the model's form of unwritten memory (assumption
log 6). -/
def Obligations.ResetStateValues : Prop :=
  State.reset.S = (remap ((cfg.resetSeed 0).setWidth cfg.W)).setWidth 64 ∧ State.reset.S ≠ 0#64 ∧
  statusWord State.reset = 0#8 ∧ State.reset.phase = .idle ∧ cmdReady State.reset = true ∧ State.reset.mem = []

/-- A command cut short by reset: the reset values, and no byte beyond the command's buffer has changed (R180; that
no other byte is lost is the model's inference, assumption log 8). -/
def Obligations.ResetDuringCommand : Prop :=
  ∀ (s : State) (w : CommandWord), Memory.wf cfg.unwritten s.mem = true →
    s.port = some (.resetDuring w) →
    ∃ t, step s = .next t ∧ t.S ≠ 0#64 ∧ statusWord t = 0#8 ∧ t.phase = .idle ∧ cmdReady t = true ∧
      t.attached = s.attached ∧ t.port = none ∧
      ∀ a, (w.extractLsb' 64 64).toNat ≤ a → bufByte cfg t a = bufByte cfg s a

/-- Attaching a buffer replaces the contents and nothing of the block (R181); an address listed more than once holds the
byte listed last, and an unlisted one a free value (the model's form of the input, assumption log 17). -/
def Obligations.AttachReplacesBuffer : Prop :=
  ∀ (s : State) (size : Option Nat) (cells : List Host.Cell),
    s.busy = false → s.port = some (.attach size cells) →
    ∃ t, step s = .next t ∧ t = { s with port := none, attached := size, mem := t.mem } ∧
      Memory.wf cfg.unwritten t.mem = true ∧
      (∀ a, (∀ b, (a, b) ∉ cells) → bufByte cfg t a = cfg.unwritten a) ∧
      (∀ (front back : List Host.Cell) (a : Nat) (b : Byte), cells = front ++ (a, b) :: back →
        (∀ b', (a, b') ∉ back) → insideExtent size a = true → bufByte cfg t a = b)

/-- The state right after reset is legal. -/
def Obligations.ResetStateIsLegal : Prop := Legal cfg State.reset

/-- Every step keeps the legal states: `S` nonzero unless faulted, `PHASE` and `CAUSE` as R24 and R27 say, `N` lanes of
`W` bits, `S` of `W` bits, the buffer canonical. -/
def Obligations.StepKeepsLegal : Prop :=
  ∀ s t : State, Legal cfg s → step s = .next t → Legal cfg t

/-- From a legal state every step answers a next state: no command is refused, and every accepted command completes or
faults (R193; `92_eei_decisions.md` D35). -/
def Obligations.LegalStepAnswersNext : Prop :=
  ∀ s : State, Legal cfg s → ∃ t, step s = .next t

/-- `STATUS` (R24) with the cause codes of R160. -/
def Obligations.StatusWordLayout : Prop :=
  ∀ s : State,
    (statusWord s).getLsbD 0 = s.busy ∧ (statusWord s).getLsbD 1 = s.fault ∧ (statusWord s).getLsbD 2 = s.underfill ∧
    (statusWord s).getLsbD 3 = false ∧
    (statusWord s).extractLsb' 4 4 = (match s.cause with
      | .none => 0#4 | .illegalCommand => 1#4 | .fallbackUnderrun => 2#4 | .bufferAccess => 3#4)

/-- `cmd_ready` and the numbered registers: `STATE_Q` shows `S` while `BUSY = 0` and `FAULT = 0` (R26, R62). -/
def Obligations.ReadyAndStateQ : Prop :=
  ∀ s : State,
    (cmdReady s = true ↔ s.busy = false ∧ s.fault = false) ∧
    numberedRegister cfg s 0 = some ((statusWord s).setWidth 64) ∧
    (FitsW cfg s.S → cmdReady s = true → numberedRegister cfg s 1 = some s.S) ∧
    ∀ n, 2 ≤ n → numberedRegister cfg s n = none

/-- No step but reset clears `UNDERFILL` (R24).  That a fault keeps it too is the model's choice (assumption log 7). -/
def Obligations.UnderfillIsSticky : Prop :=
  ∀ s t : State, step s = .next t → s.underfill = true →
    t.underfill = true ∨ s.port = some .reset ∨ ∃ w, s.port = some (.resetDuring w)

/-! ## SEED and DISCARD (`41_seed_state.md`) -/

/-- `SEED value` (R90): `S <- remap(value)` and nothing else. -/
def Obligations.SeedResult : Prop :=
  ∀ (value : BitVec 64) (s : State), (Instr.seed value).WellFormed cfg = true →
    exec (.seed value) s = .next { s with
      S := if value = 0#64 then (BitVec.allOnes cfg.W).setWidth 64 else value
      busy := false
      phase := .idle }

/-- Zero-seed equivalence (R91, marked derived from R90): every later command sequence gives the same. -/
def Obligations.ZeroSeedEquivalence : Prop :=
  ∀ (is : List Instr) (s : State),
    runCommands (.seed 0#64 :: is) s = runCommands (.seed ((BitVec.allOnes cfg.W).setWidth 64) :: is) s

/-- `DISCARD count` (R92): `S <- M^count(S)`, no flag, no memory; what the working register `CNT` holds afterwards is left
open. -/
def Obligations.DiscardResult : Prop :=
  ∀ (count : BitVec 64) (s : State), FitsW cfg s.S →
    ∃ t, exec (.discard count) s = .next t ∧
      t = { s with S := mixed cfg count.toNat s.S, cnt := t.cnt, busy := false, phase := .idle }

/-- `DISCARD j` then `DISCARD k` is `DISCARD (j + k)`, and `DISCARD k` is `k` times `DISCARD 1` (R93, marked derived from
R92); for `k = 0`, no command at all, up to the working register `CNT`.  That for `k > 0` the whole states agree, `CNT`
among them, is the model's choice (assumption log 20). -/
def Obligations.DiscardsCompose : Prop :=
  (∀ (j k : BitVec 64) (s : State), FitsW cfg s.S → j.toNat + k.toNat < 2 ^ 64 →
    runCommands [.discard j, .discard k] s = exec (.discard (j + k)) s) ∧
  (∀ (k : BitVec 64) (s : State), FitsW cfg s.S → 0 < k.toNat →
    runCommands (List.replicate k.toNat (.discard 1#64)) s = exec (.discard k) s) ∧
  (∀ s : State, FitsW cfg s.S →
    ∃ t, exec (.discard 0#64) s = .next t ∧ t = { s with cnt := t.cnt, busy := false, phase := .idle })

/-! ## The mixing function (`40_mixer.md`) -/

/-- `M(0) = 0`, `M` sends no other value to 0, and it is a bijection (R83, marked derived from R80), at every width and for every legal shift
triple. -/
def Obligations.MixIsBijectionFixingZero : Prop :=
  ∀ (w : Nat) (sh : Shifts), 1 ≤ sh.a → 1 ≤ sh.b → 1 ≤ sh.c →
    mix sh 0#w = 0#w ∧ (∀ x : BitVec w, x ≠ 0#w → mix sh x ≠ 0#w) ∧
    Function.Bijective (mix sh : BitVec w → BitVec w)

/-- The worked values of R81, R82, R84 and R85, which the spec marks derived from R80, and the amounts (13, 7, 17) of the
64-bit variant with `M` of 42 on a register of it.  The triple (13, 17, 5) of the 32-bit values is not the hardware's but
general knowledge (assumption log 21). -/
def Obligations.MixWorkedValues : Prop :=
  mix ⟨13, 7, 17⟩ 1#64 = 0x0000000040822041#64 ∧
  mix ⟨13, 7, 17⟩ (BitVec.allOnes 64) = 0x000000003F801FC0#64 ∧
  mix ⟨13, 17, 5⟩ 1#32 = 0x00042021#32 ∧
  mix ⟨13, 17, 5⟩ (BitVec.allOnes 32) = 0x0003E01F#32 ∧
  (List.range 4).map (fun k => Nat.iterate (mix ⟨13, 7, 17⟩) (k + 1) 42#64) =
    [0x0000000A95514AAA#64, 0xA00AAAFDF80202BF#64, 0x8B13399CD1D1497A#64, 0x283B88FE5FDFF568#64] ∧
  (List.range 3).map (fun k => Nat.iterate (mix ⟨13, 17, 5⟩) (k + 1) 42#32) =
    [0x00AD4528#32, 0xA90A34AC#32, 0x1C67AF03#32] ∧
  (∀ c : Config, c.W = 64 →
    c.params.shifts = ⟨13, 7, 17⟩ ∧ mixed c 1 42#64 = 0x0000000A95514AAA#64)

/-! ## Notation (`00_scope.md` R18) -/

/-- Rotations as R18 defines them, and the one undoes the other. -/
def Obligations.RotationsFollowNotation : Prop :=
  ∀ (n : Nat) (v : BitVec n) (k : Nat), 0 < n →
    (k % n = 0 → rotl v k = v) ∧
    (k % n ≠ 0 → (rotl v k).toNat = (v.toNat * 2 ^ (k % n)) % 2 ^ n + v.toNat / 2 ^ (n - k % n)) ∧
    rotr (rotl v k) k = v ∧ rotl (rotr v k) k = v

/-- `enc` puts the bytes where R18 says, and `dec` is its inverse. -/
def Obligations.EncodingOfIntegers : Prop :=
  ∀ (n : Nat) (v : BitVec (8 * n)),
    (∀ i, i < n → (enc .little v n).getD i 0#8 = v.extractLsb' (8 * i) 8) ∧
    (∀ i, i < n → (enc .big v n).getD i 0#8 = v.extractLsb' (8 * (n - 1 - i)) 8) ∧
    (∀ o, dec (8 * n) o (enc o v n) = v) ∧
    (∀ o (bs : List Byte), bs.length = n → enc o (dec (8 * n) o bs) n = bs)

/-! ## The lane fill (`42_lane_fill.md`) -/

/-- The lane derivation (R100): all `N` lanes, `L[0] = S` and `L[N/2] = not S`; `S` itself is kept. -/
def Obligations.LaneDerivation : Prop :=
  ∀ s : State,
    (laneInit cfg s).L.length = cfg.N ∧ (laneInit cfg s).S = s.S ∧
    (∀ i, i < cfg.N / 2 → readLane cfg (laneInit cfg s) i = rotl (readS cfg s) ((i * cfg.params.R) % cfg.W)) ∧
    (∀ j, j < cfg.N / 2 →
      readLane cfg (laneInit cfg s) (cfg.N / 2 + j) = rotr (~~~(readS cfg s)) ((j * cfg.params.R) % cfg.W)) ∧
    readLane cfg (laneInit cfg s) 0 = readS cfg s ∧
    readLane cfg (laneInit cfg s) (cfg.N / 2) = ~~~(readS cfg s)

/-- Lanes of the first half are never zero; a lane of the second half is zero exactly when `S = MAXW`, and then all of
them are (R102, marked derived from R100). -/
def Obligations.LanesZeroOnlyAtMaxW : Prop :=
  ∀ v : BitVec cfg.W, v ≠ 0#cfg.W →
    (∀ i, i < cfg.N / 2 → (deriveLanes cfg v).getD i 0#cfg.W ≠ 0#cfg.W) ∧
    (∀ j, j < cfg.N / 2 →
      ((deriveLanes cfg v).getD (cfg.N / 2 + j) 0#cfg.W = 0#cfg.W ↔ v = BitVec.allOnes cfg.W))

/-- `FILL_LANE` of a nonzero length the platform admits completes (R109): no flag, count or expansion register changes,
and no byte outside `0 .. LEN-1`. -/
def Obligations.FillLaneCompletes : Prop :=
  ∀ (len : BitVec 64) (e : EndianMode) (s : State),
    Memory.wf cfg.unwritten s.mem = true → len ≠ 0#64 → admits s len.toNat = true →
    ∃ t, exec (.fillLane len e) s = .next t ∧
      t = { s with
        S := t.S, L := t.L, mem := t.mem, len := t.len, e := t.e, t := t.t, busy := false, phase := .idle } ∧
      ∀ a, len.toNat ≤ a → bufByte cfg t a = bufByte cfg s a

/-- The integer written to slot `t` is `M^(floor(t / N) + 1)(L0[t mod N])`, stored in the command's byte order (R104,
marked derived from R105). -/
def Obligations.FillLaneSlots : Prop :=
  ∀ (len : BitVec 64) (e : EndianMode) (s : State),
    Memory.wf cfg.unwritten s.mem = true → admits s len.toNat = true →
    ∃ t, exec (.fillLane len e) s = .next t ∧
      ∀ slot, slot < len.toNat / cfg.WB →
        Memory.readBytes cfg.unwritten t.mem (slot * cfg.WB) cfg.WB =
          enc (ord cfg e)
            (Nat.iterate (mix cfg.params.shifts) (slot / cfg.N + 1)
              ((deriveLanes cfg (readS cfg s)).getD (slot % cfg.N) 0#cfg.W)) cfg.WB

/-- `S` after FILL_LANE and the tail bytes (R110, marked derived from R106, R108 and R109). -/
def Obligations.FillLaneStateAndTail : Prop :=
  ∀ (len : BitVec 64) (e : EndianMode) (s : State),
    Memory.wf cfg.unwritten s.mem = true → admits s len.toNat = true →
    ∃ t, exec (.fillLane len e) s = .next t ∧
      (len = 0#64 → t.S = s.S) ∧
      (len ≠ 0#64 → len.toNat % cfg.WB = 0 →
        t.S = mixed cfg (laneZeroSlots cfg (len.toNat / cfg.WB) + 1) s.S) ∧
      (len ≠ 0#64 → len.toNat % cfg.WB ≠ 0 →
        t.S = mixed cfg (laneZeroSlots cfg (len.toNat / cfg.WB) + 2) s.S) ∧
      Memory.readBytes cfg.unwritten t.mem (len.toNat / cfg.WB * cfg.WB) (len.toNat % cfg.WB) =
        (enc (ord cfg e) ((mixed cfg (laneZeroSlots cfg (len.toNat / cfg.WB) + 2) s.S).setWidth cfg.W) cfg.WB).take
          (len.toNat % cfg.WB)

/-- A zero-length fill changes nothing (R109, R150; `90_conflicts.md` C1); for EXPAND no register but its own working
registers (R137).  That the working registers are kept too is the model's choice (assumption log 19). -/
def Obligations.ZeroLengthFillsChangeNothing : Prop :=
  ∀ (f0 : BitVec 64) (e : EndianMode) (x : ExecMode) (s : State),
    exec (.fillLane 0#64 e) s = .next { s with busy := false, phase := .idle } ∧
    exec (.fill 0#64 e x) s = .next { s with busy := false, phase := .idle } ∧
    ∃ t, exec (.expand 0#64 f0 e x) s = .next t ∧
      t = { s with
        len := t.len, f0 := t.f0, e := t.e, filled := t.filled, offset := t.offset, kidx := t.kidx, nin := t.nin,
        busy := false, phase := .idle }

/-- The bytes a lane fill writes and the `S` it leaves are a function of `S`, `LEN` and the byte order: not of the
buffer's previous contents, the lanes, or anything else (R111). -/
def Obligations.FillLaneIsDeterminedBySeedAndLength : Prop :=
  ∀ (len : BitVec 64) (e e' : EndianMode) (s s' : State),
    Memory.wf cfg.unwritten s.mem = true → Memory.wf cfg.unwritten s'.mem = true →
    s.S = s'.S → ord cfg e = ord cfg e' → admits s len.toNat = true → admits s' len.toNat = true →
    ∃ t t', exec (.fillLane len e) s = .next t ∧ exec (.fillLane len e') s' = .next t' ∧ t.S = t'.S ∧
      ∀ a, a < len.toNat → bufByte cfg t a = bufByte cfg t' a

/-- The whole-slot part of the `neutral` output, converted integer by integer, is the `specific` output (R112, marked
derived from R105). -/
def Obligations.FillLaneEndiannessRoundTrip : Prop :=
  ∀ (len : BitVec 64) (s : State), Memory.wf cfg.unwritten s.mem = true → admits s len.toNat = true →
    ∃ t t', exec (.fillLane len .specific) s = .next t ∧ exec (.fillLane len .neutral) s = .next t' ∧
      ∀ slot, slot < len.toNat / cfg.WB →
        enc cfg.params.hostOrder
          (dec cfg.W cfg.params.neutralOrder
            (Memory.readBytes cfg.unwritten t'.mem (slot * cfg.WB) cfg.WB)) cfg.WB =
          Memory.readBytes cfg.unwritten t.mem (slot * cfg.WB) cfg.WB

/-- The degenerate start `S = MAXW` (R103): every slot of a lane of the second half is zero bytes, and all lanes of the
first half give the same sequence. -/
def Obligations.DegenerateStartPattern : Prop :=
  ∀ (len : BitVec 64) (e : EndianMode) (s : State),
    Memory.wf cfg.unwritten s.mem = true → admits s len.toNat = true →
    s.S = (BitVec.allOnes cfg.W).setWidth 64 →
    ∃ t, exec (.fillLane len e) s = .next t ∧
      ∀ slot, slot < len.toNat / cfg.WB →
        (cfg.N / 2 ≤ slot % cfg.N →
          Memory.readBytes cfg.unwritten t.mem (slot * cfg.WB) cfg.WB = List.replicate cfg.WB 0#8) ∧
        (slot % cfg.N < cfg.N / 2 →
          Memory.readBytes cfg.unwritten t.mem (slot * cfg.WB) cfg.WB =
            enc (ord cfg e)
              (Nat.iterate (mix cfg.params.shifts) (slot / cfg.N + 1) (BitVec.allOnes cfg.W)) cfg.WB)

/-- No command reads a lane an earlier command left (R22): a fill of nonzero length is the same whatever the lane file
held. -/
def Obligations.StaleLanesAreNeverRead : Prop :=
  ∀ (len : BitVec 64) (e : EndianMode) (x : ExecMode) (stale : List Word) (s : State), len ≠ 0#64 →
    exec (.fillLane len e) { s with L := stale } = exec (.fillLane len e) s ∧
    exec (.fill len e x) { s with L := stale } = exec (.fill len e x) s

/-- A lane fill of a buffer shorter than its length raises BUFFER_ACCESS (R164), entering the faulted state of R161.  The
buffer's extent is the model's choice (assumption log 15); that the bytes from `LEN` on are as before is its inference
from R47 (assumption log 7). -/
def Obligations.FillLaneOnShortBufferFaults : Prop :=
  ∀ (len : BitVec 64) (e : EndianMode) (size : Nat) (s : State),
    Memory.wf cfg.unwritten s.mem = true → s.fault = false → s.attached = some size → size < len.toNat →
    ∃ t, exec (.fillLane len e) s = .next t ∧
      t = { s with
        S := t.S, L := t.L, mem := t.mem, len := t.len, e := t.e, underfill := t.underfill, draws := t.draws,
        fault := true, cause := .bufferAccess, phase := .faulted, busy := false } ∧
      ∀ a, len.toNat ≤ a → bufByte cfg t a = bufByte cfg s a

/-! ## The expansion (`43_expansion.md`) -/

/-- `TA` and `TB` are bijections, and complement and rotation commute in `TB` (R121). -/
def Obligations.TransformsAreBijections : Prop :=
  ∀ s : Nat, Function.Bijective (transformA cfg s) ∧ Function.Bijective (transformB cfg s) ∧
    ∀ v, transformA cfg s v = rotl (v ^^^ cfg.params.alpha.setWidth cfg.XW) s ∧
      transformB cfg s v = ~~~(rotr (v ^^^ cfg.params.beta.setWidth cfg.XW) s) ∧
      transformB cfg s v = rotr (~~~(v ^^^ cfg.params.beta.setWidth cfg.XW)) s

/-- The offset sequence (R124): ascending, exactly the positive integers that are no multiple of `XB`, with the listed
values for `XB = 8` and `XB = 4`. -/
def Obligations.OffsetSequence : Prop :=
  ∀ c : Config,
    (∀ k, Nat.iterate (nextOffset c) k 1 < Nat.iterate (nextOffset c) (k + 1) 1) ∧
    (∀ m, (∃ k, Nat.iterate (nextOffset c) k 1 = m) ↔ 0 < m ∧ m % c.XB ≠ 0) ∧
    (c.XB = 8 → (List.range 17).map (fun k => Nat.iterate (nextOffset c) k 1) =
      [1, 2, 3, 4, 5, 6, 7, 9, 10, 11, 12, 13, 14, 15, 17, 18, 19]) ∧
    (c.XB = 4 → (List.range 17).map (fun k => Nat.iterate (nextOffset c) k 1) =
      [1, 2, 3, 5, 6, 7, 9, 10, 11, 13, 14, 15, 17, 18, 19, 21, 22])

/-- The Alpha sub-step from any state (R125 to R127): its window, its slots, each the transform of the input integer as
it was, `FILLED`, and no other byte. -/
def Obligations.AlphaSubStep : Prop :=
  ∀ (p : Nat) (s : State),
    Memory.wf cfg.unwritten s.mem = true → s.filled ≤ s.len → admits s s.len = true →
    ∃ t, alphaStep cfg p s = .running t ∧
      t.nin = (s.filled - s.offset) / cfg.XB ∧
      t.filled = s.filled + min ((s.filled - s.offset) / cfg.XB) ((s.len - s.filled) / cfg.XB) * cfg.XB ∧
      (∀ j, j < min ((s.filled - s.offset) / cfg.XB) ((s.len - s.filled) / cfg.XB) →
        Memory.readBytes cfg.unwritten t.mem (s.filled + j * cfg.XB) cfg.XB =
          enc (ord cfg s.e) (transformA cfg p (dec cfg.XW (ord cfg s.e)
            (Memory.readBytes cfg.unwritten s.mem (s.offset + j * cfg.XB) cfg.XB))) cfg.XB) ∧
      (∀ a, a < s.filled ∨ t.filled ≤ a → bufByte cfg t a = bufByte cfg s a) ∧
      t = { s with mem := t.mem, filled := t.filled, nin := t.nin, phase := .expAlpha }

/-- The Beta sub-step from any state whose Alpha window lies below `FILLED` (R128, R129): nothing if no space remains;
else the same window, or a new one where the instance recomputes it, and its slots. -/
def Obligations.BetaSubStep : Prop :=
  ∀ (p : Nat) (s : State),
    Memory.wf cfg.unwritten s.mem = true → admits s s.len = true →
    (0 < s.nin → s.offset + s.nin * cfg.XB ≤ s.filled) →
    (s.len ≤ s.filled → betaStep cfg p s = .running s) ∧
    (s.filled < s.len → ∃ t, betaStep cfg p s = .running t ∧
      t.nin = (match cfg.params.betaWindow with
        | .same => s.nin
        | .recomputed => (s.filled - s.offset) / cfg.XB) ∧
      t.filled = s.filled + min t.nin ((s.len - s.filled) / cfg.XB) * cfg.XB ∧
      (∀ j, j < min t.nin ((s.len - s.filled) / cfg.XB) →
        Memory.readBytes cfg.unwritten t.mem (s.filled + j * cfg.XB) cfg.XB =
          enc (ord cfg s.e) (transformB cfg p (dec cfg.XW (ord cfg s.e)
            (Memory.readBytes cfg.unwritten s.mem (s.offset + j * cfg.XB) cfg.XB))) cfg.XB) ∧
      (∀ a, a < s.filled ∨ t.filled ≤ a → bufByte cfg t a = bufByte cfg s a) ∧
      t = { s with mem := t.mem, filled := t.filled, nin := t.nin, phase := .expBeta })

/-- The slots of one sub-step may be computed in any order (R136): every order gives the same buffer. -/
def Obligations.SlotOrderIsFree : Prop :=
  ∀ (o : ByteOrder) (f : BitVec cfg.XW → BitVec cfg.XW) (src dst n : Nat) (m : Memory) (order : List Nat),
    Memory.wf cfg.unwritten m = true → src + n * cfg.XB ≤ dst → order.Perm (List.range n) →
    order.foldl (copySlot cfg o f src dst) m = copySlots cfg o f src dst m n

/-- The execution mode has no effect (R136, R140, R154). -/
def Obligations.ExecutionModeHasNoEffect : Prop :=
  ∀ (len f0 : BitVec 64) (e : EndianMode) (s : State),
    exec (.expand len f0 e .parallel) s = exec (.expand len f0 e .sequential) s ∧
    exec (.fill len e .parallel) s = exec (.fill len e .sequential) s

/-- `EXPAND` completes when its loop leaves no more bytes than it filled (R132, R137): `S` and the lanes are untouched
(R138), no byte below `min(F0, LEN)` or beyond `LEN - 1` is written (R47), and `UNDERFILL` is set when `XB` or more
bytes were left to the fallback (R134). -/
def Obligations.ExpandCompletes : Prop :=
  ∀ (len f0 : BitVec 64) (e : EndianMode) (x : ExecMode) (s : State),
    Memory.wf cfg.unwritten s.mem = true → (len.toNat ≤ f0.toNat ∨ admits s len.toNat = true) →
    ¬ Underruns cfg len.toNat f0.toNat →
    ∃ t, exec (.expand len f0 e x) s = .next t ∧
      t = { s with
        mem := t.mem, len := t.len, f0 := t.f0, e := t.e, filled := t.filled, offset := t.offset, kidx := t.kidx,
        nin := t.nin, underfill := s.underfill || decide (cfg.XB ≤ remaining cfg len.toNat f0.toNat),
        busy := false, phase := .idle } ∧
      ∀ a, a < min f0.toNat len.toNat ∨ len.toNat ≤ a → bufByte cfg t a = bufByte cfg s a

/-- The Alpha and Beta windows in the finished buffer (R137): in every iteration `k`, with `FILLED` and `OFFSET` as the
lengths give them, each Alpha slot holds `TA(v, P[k])` and each Beta slot `TB(v, P[k])` of the integer `v` that stands at
its input slot.  (The prefix, the fallback bytes and the registers are in ExpandCompletes and ExpandFallbackBytes.) -/
def Obligations.ExpandEveryWindow : Prop :=
  ∀ (len f0 : BitVec 64) (e : EndianMode) (x : ExecMode) (s : State),
    Memory.wf cfg.unwritten s.mem = true → admits s len.toNat = true → ¬ Underruns cfg len.toNat f0.toNat →
    ∃ t, exec (.expand len f0 e x) s = .next t ∧
      ∀ k, k < cfg.params.stepList.length →
        let filled := growLoop cfg len.toNat k (min f0.toNat len.toNat) 1
        let offset := Nat.iterate (nextOffset cfg) k 1
        let nA := slotCount cfg len.toNat filled (inputWindow cfg filled offset)
        let mid := filled + nA * cfg.XB
        let nB := slotCount cfg len.toNat mid (match cfg.params.betaWindow with
          | .same => inputWindow cfg filled offset
          | .recomputed => inputWindow cfg mid offset)
        (∀ j, j < nA →
          Memory.readBytes cfg.unwritten t.mem (filled + j * cfg.XB) cfg.XB =
            enc (ord cfg e) (transformA cfg (stepAt cfg k) (dec cfg.XW (ord cfg e)
              (Memory.readBytes cfg.unwritten t.mem (offset + j * cfg.XB) cfg.XB))) cfg.XB) ∧
        (∀ j, j < nB →
          Memory.readBytes cfg.unwritten t.mem (mid + j * cfg.XB) cfg.XB =
            enc (ord cfg e) (transformB cfg (stepAt cfg k) (dec cfg.XW (ord cfg e)
              (Memory.readBytes cfg.unwritten t.mem (offset + j * cfg.XB) cfg.XB))) cfg.XB)

/-- The fallback bytes (R133): each of the last `rem` bytes is the byte `rem` positions earlier, rotated right by 2. -/
def Obligations.ExpandFallbackBytes : Prop :=
  ∀ (len f0 : BitVec 64) (e : EndianMode) (x : ExecMode) (s : State),
    Memory.wf cfg.unwritten s.mem = true → admits s len.toNat = true →
    ¬ Underruns cfg len.toNat f0.toNat →
    ∃ t, exec (.expand len f0 e x) s = .next t ∧
      ∀ i, reach cfg len.toNat f0.toNat ≤ i → i < len.toNat →
        bufByte cfg t i = (bufByte cfg t (i - remaining cfg len.toNat f0.toNat)).rotateRight 2

/-- `EXPAND` raises FALLBACK_UNDERRUN when more bytes remain than are filled, a condition on lengths and constants alone
(R132, R163), and enters the faulted state of R161.  That the bytes below `min(F0, LEN)` and from `LEN` on are as before is
the model's inference from R47 and R125 (assumption log 7). -/
def Obligations.ExpandUnderrunFaults : Prop :=
  ∀ (len f0 : BitVec 64) (e : EndianMode) (x : ExecMode) (s : State),
    Memory.wf cfg.unwritten s.mem = true → admits s len.toNat = true → s.fault = false →
    Underruns cfg len.toNat f0.toNat →
    ∃ t, exec (.expand len f0 e x) s = .next t ∧
      t = { s with
        S := t.S, L := t.L, mem := t.mem, len := t.len, f0 := t.f0, e := t.e, filled := t.filled, offset := t.offset,
        kidx := t.kidx, nin := t.nin, underfill := t.underfill, draws := t.draws,
        fault := true, cause := .fallbackUnderrun, phase := .faulted, busy := false } ∧
      ∀ a, a < min f0.toNat len.toNat ∨ len.toNat ≤ a → bufByte cfg t a = bufByte cfg s a

/-- `EXPAND` that owes bytes to a buffer shorter than `LEN` faults: BUFFER_ACCESS, unless FALLBACK_UNDERRUN is reached
first (R164, R167; the buffer's extent is the model's choice, assumption log 15). -/
def Obligations.ExpandOnShortBufferFaults : Prop :=
  ∀ (len f0 : BitVec 64) (e : EndianMode) (x : ExecMode) (s : State),
    s.fault = false → f0.toNat < len.toNat → admits s len.toNat = false →
    ∃ t, exec (.expand len f0 e x) s = .next t ∧ t.fault = true ∧ t.phase = .faulted ∧ t.busy = false ∧
      (t.cause = .bufferAccess ∨ (t.cause = .fallbackUnderrun ∧ Underruns cfg len.toNat f0.toNat))

/-- The bytes EXPAND writes are a function of the prefix bytes, the lengths and the byte order: not of `S`, of the
execution mode, or of any byte it owes (R140). -/
def Obligations.ExpandIsDeterminedByPrefix : Prop :=
  ∀ (len f0 f0' : BitVec 64) (e e' : EndianMode) (x x' : ExecMode) (s s' : State),
    Memory.wf cfg.unwritten s.mem = true → Memory.wf cfg.unwritten s'.mem = true →
    admits s len.toNat = true → admits s' len.toNat = true → ord cfg e = ord cfg e' →
    min f0.toNat len.toNat = min f0'.toNat len.toNat →
    (∀ a, a < min f0.toNat len.toNat → bufByte cfg s a = bufByte cfg s' a) →
    ¬ Underruns cfg len.toNat f0.toNat →
    ∃ t t', exec (.expand len f0 e x) s = .next t ∧ exec (.expand len f0' e' x') s' = .next t' ∧
      ∀ a, a < len.toNat → bufByte cfg t a = bufByte cfg t' a

/-- The growth table of R135: `FILLED` before each iteration and after the last. -/
def Obligations.GrowthTable : Prop :=
  ∀ c : Config, c.XB = 8 → c.params.betaWindow = .same →
    (List.range 18).map (fun k => freeReach c k 2048 1) =
      [2048, 6128, 18368, 55088, 165248, 495728, 1487168, 4461488, 13384432, 40153264, 120459760, 361379248,
        1084137712, 3252413104, 9757239280, 29271717792, 87815153328, 263445459936]

/-- What a FILL leaves to the fallback (R135, R155, R163).  From `LEN = XB` on: `XB` bytes or more exactly from `G + XB`
on, and more than are filled exactly beyond `2 * G`, `G` being the last figure of the table of R135 for the
configuration.  Of 1 to `XB - 1` bytes nothing is filled, so more always remain (R155 (b)). -/
def Obligations.FillThresholds : Prop :=
  ∀ (c : Config) (len : Nat), 0 < len →
    (c.XB ≤ len →
      (c.XB ≤ remaining c len (initialSegment c len) ↔ growthLimit c + c.XB ≤ len) ∧
      (Underruns c len (initialSegment c len) ↔ 2 * growthLimit c < len)) ∧
    (len < c.XB → reach c len (initialSegment c len) = 0 ∧ Underruns c len (initialSegment c len))

/-- `FILL` completes for `XB <= LEN` when the loop leaves no more bytes than it filled (R150): `S` as R152 says,
`UNDERFILL` by R134, no count changed, and no byte outside `0 .. LEN-1`. -/
def Obligations.FillCompletes : Prop :=
  ∀ (len : BitVec 64) (e : EndianMode) (x : ExecMode) (s : State),
    Memory.wf cfg.unwritten s.mem = true → cfg.XB ≤ len.toNat → admits s len.toNat = true →
    ¬ Underruns cfg len.toNat (initialSegment cfg len.toNat) →
    ∃ t, exec (.fill len e x) s = .next t ∧
      t = { s with
        S := mixed cfg (laneZeroSlots cfg (initialSegment cfg len.toNat / cfg.WB) + 1) s.S, L := t.L, mem := t.mem,
        len := t.len, f0 := t.f0, e := t.e, t := t.t, filled := t.filled, offset := t.offset, kidx := t.kidx,
        nin := t.nin,
        underfill := s.underfill || decide (cfg.XB ≤ remaining cfg len.toNat (initialSegment cfg len.toNat)),
        busy := false, phase := .idle } ∧
      ∀ a, len.toNat ≤ a → bufByte cfg t a = bufByte cfg s a

/-- `FILL len, e, x` has the same effect as `FILL_LANE seg, e` followed by `EXPAND len, seg, e, x` (R70, R150).  That the working
registers agree too is the model's choice (assumption log 20). -/
def Obligations.FillIsLaneFillThenExpand : Prop :=
  ∀ (len : BitVec 64) (e : EndianMode) (x : ExecMode) (s : State),
    len ≠ 0#64 → admits s len.toNat = true →
    ¬ Underruns cfg len.toNat (initialSegment cfg len.toNat) →
    ∃ t, exec (.fill len e x) s = .next t ∧
      runCommands [.fillLane (BitVec.ofNat 64 (initialSegment cfg len.toNat)) e,
        .expand len (BitVec.ofNat 64 (initialSegment cfg len.toNat)) e x] s = .next t

/-- Prefix equivalence (R153): the first `L1` bytes of a FILL, `L1` a whole number of lane integers inside the initial
segment, are the whole output of `FILL_LANE L1` from the same `S`; and for the whole segment the final `S` is the same. -/
def Obligations.FillPrefixEquivalence : Prop :=
  ∀ (len l1 : BitVec 64) (e : EndianMode) (x : ExecMode) (s : State),
    Memory.wf cfg.unwritten s.mem = true → cfg.XB ≤ len.toNat → admits s len.toNat = true →
    ¬ Underruns cfg len.toNat (initialSegment cfg len.toNat) →
    l1.toNat ≤ initialSegment cfg len.toNat → l1.toNat % cfg.WB = 0 →
    ∃ t t', exec (.fill len e x) s = .next t ∧ exec (.fillLane l1 e) s = .next t' ∧
      (∀ a, a < l1.toNat → bufByte cfg t a = bufByte cfg t' a) ∧
      (l1.toNat = initialSegment cfg len.toNat → t.S = t'.S)

/-- The bytes FILL writes and the `S` it leaves are a function of `S`, `LEN` and the byte order; the previous contents of
the buffer and the execution mode have no effect (R150, R154). -/
def Obligations.FillIsDeterminedBySeedAndLength : Prop :=
  ∀ (len : BitVec 64) (e e' : EndianMode) (x x' : ExecMode) (s s' : State),
    Memory.wf cfg.unwritten s.mem = true → Memory.wf cfg.unwritten s'.mem = true →
    s.S = s'.S → ord cfg e = ord cfg e' → admits s len.toNat = true → admits s' len.toNat = true →
    cfg.XB ≤ len.toNat → ¬ Underruns cfg len.toNat (initialSegment cfg len.toNat) →
    ∃ t t', exec (.fill len e x) s = .next t ∧ exec (.fill len e' x') s' = .next t' ∧ t.S = t'.S ∧
      ∀ a, a < len.toNat → bufByte cfg t a = bufByte cfg t' a

/-- The source's scenario for every instance whose initial segment gives an input window (R151): right after the initial
segment stands the Alpha transform of the integer at offset 1, with the first step. -/
def Obligations.FillFirstExpandedInteger : Prop :=
  ∀ (c : Config) (len : BitVec 64) (e : EndianMode) (x : ExecMode) (s : State),
    Memory.wf c.unwritten s.mem = true → admits s len.toNat = true →
    ¬ Underruns c len.toNat (initialSegment c len.toNat) →
    2 * c.XB ≤ c.params.initRangeSize → c.params.initRangeSize + c.XB ≤ len.toNat →
    ∃ t, fillIn c len e x s = .next t ∧
      dec c.XW (ord c e) (Memory.readBytes c.unwritten t.mem c.params.initRangeSize c.XB) =
        rotl (dec c.XW (ord c e) (Memory.readBytes c.unwritten t.mem 1 c.XB) ^^^
          c.params.alpha.setWidth c.XW) (stepAt c 0)

/-- Lengths up to `INIT_RANGE_SIZE + XB - 1` (R155 (c)): the command completes with no flag; the whole integers are the
lane integers of FILL_LANE, the last `LEN mod XB` bytes the fallback's, and `S` is as R152 says; no byte beyond `LEN - 1`
changes. -/
def Obligations.FillOfShortLengths : Prop :=
  ∀ (len : BitVec 64) (e : EndianMode) (x : ExecMode) (s : State),
    Memory.wf cfg.unwritten s.mem = true → admits s len.toNat = true →
    cfg.XB ≤ len.toNat → len.toNat < cfg.params.initRangeSize + cfg.XB →
    ∃ t, exec (.fill len e x) s = .next t ∧
      t = { s with
        S := mixed cfg (laneZeroSlots cfg ((len.toNat - len.toNat % cfg.XB) / cfg.WB) + 1) s.S, L := t.L,
        mem := t.mem, len := t.len, f0 := t.f0, e := t.e, t := t.t, filled := t.filled, offset := t.offset,
        kidx := t.kidx, nin := t.nin, busy := false, phase := .idle } ∧
      (∀ slot, slot < (len.toNat - len.toNat % cfg.XB) / cfg.WB →
        Memory.readBytes cfg.unwritten t.mem (slot * cfg.WB) cfg.WB =
          enc (ord cfg e)
            (Nat.iterate (mix cfg.params.shifts) (slot / cfg.N + 1)
              ((deriveLanes cfg (readS cfg s)).getD (slot % cfg.N) 0#cfg.W)) cfg.WB) ∧
      (∀ i, len.toNat - len.toNat % cfg.XB ≤ i → i < len.toNat →
        bufByte cfg t i = (bufByte cfg t (i - len.toNat % cfg.XB)).rotateRight 2) ∧
      ∀ a, len.toNat ≤ a → bufByte cfg t a = bufByte cfg s a

/-- A FILL whose loop leaves more bytes than it filled raises FALLBACK_UNDERRUN (R132, R163) and enters the faulted state
(R161), for every instance.  That the bytes from `LEN` on are as before is the model's inference from R47 (assumption
log 7). -/
def Obligations.FillUnderrunFaults : Prop :=
  ∀ (c : Config) (len : BitVec 64) (e : EndianMode) (x : ExecMode) (s : State),
    Memory.wf c.unwritten s.mem = true → s.fault = false → len ≠ 0#64 → admits s len.toNat = true →
    Underruns c len.toNat (initialSegment c len.toNat) →
    ∃ t, fillIn c len e x s = .next t ∧
      t = { s with
        S := t.S, L := t.L, mem := t.mem, len := t.len, f0 := t.f0, e := t.e, t := t.t, filled := t.filled,
        offset := t.offset, kidx := t.kidx, nin := t.nin, underfill := t.underfill, draws := t.draws,
        fault := true, cause := .fallbackUnderrun, phase := .faulted, busy := false } ∧
      ∀ a, len.toNat ≤ a → bufByte c t a = bufByte c s a

/-- A FILL of a buffer shorter than `LEN` faults: BUFFER_ACCESS, unless FALLBACK_UNDERRUN is reached first (R164,
R167; the buffer's extent is the model's choice, assumption log 15). -/
def Obligations.FillOnShortBufferFaults : Prop :=
  ∀ (len : BitVec 64) (e : EndianMode) (x : ExecMode) (s : State),
    s.fault = false → admits s len.toNat = false →
    ∃ t, exec (.fill len e x) s = .next t ∧ t.fault = true ∧ t.phase = .faulted ∧ t.busy = false ∧
      (t.cause = .bufferAccess ∨
        (t.cause = .fallbackUnderrun ∧ Underruns cfg len.toNat (initialSegment cfg len.toNat)))

/-- The next `S` never depends on the endianness mode, the execution mode or the buffer (R95): two states with the same
`S` that perform commands of the same kind and length, neither faulting, have the same `S` afterwards. -/
def Obligations.NextStateIgnoresModesAndBuffer : Prop :=
  ∀ (i i' : Instr) (s s' t t' : State),
    (match i, i' with
      | .seed v, .seed v' => v = v'
      | .discard k, .discard k' => k = k'
      | .fillLane n _, .fillLane n' _ => n = n'
      | .expand _ _ _ _, .expand _ _ _ _ => True
      | .fill n _ _, .fill n' _ _ => n = n'
      | _, _ => False) →
    s.S = s'.S → FitsW cfg s.S → exec i s = .next t → exec i' s' = .next t' → t.fault = false → t'.fault = false →
    t.S = t'.S
end

