-- ==== Sys2Proof/Laws/Memory.lean ====
section
/-!
SUPPORT. The laws of the buffer: reading after writing, the canonical form kept by every operation, and equality of
canonical memories that read alike.
-/

namespace Sys2Proof.Machine

variable {d : Nat → Byte}

/-! ## One byte -/

theorem Memory.read_consCell (a x : Nat) (b : Byte) (m : Memory) (hm : Memory.read d m a = d a) :
    Memory.read d (Memory.consCell d a b m) x = if x = a then b else Memory.read d m x := by
  unfold Memory.consCell
  split
  · split <;> simp_all
  · rfl

theorem Memory.read_below : ∀ (m : Memory) (lo a : Nat), Memory.wfFrom d lo m = true → a < lo → Memory.read d m a = d a
  | [], _, _, _, _ => rfl
  | (k, v) :: m, lo, a, h, ha => by
    simp only [Memory.wfFrom, Bool.and_eq_true, decide_eq_true_eq] at h
    obtain ⟨⟨h1, h2⟩, h3⟩ := h
    rw [Memory.read, if_neg (by omega)]
    exact Memory.read_below m (k + 1) a h3 (by omega)

theorem Memory.wfFrom_mono : ∀ (m : Memory) (lo lo' : Nat), lo' ≤ lo → Memory.wfFrom d lo m = true →
    Memory.wfFrom d lo' m = true
  | [], _, _, _, _ => rfl
  | (k, v) :: m, lo, lo', hle, h => by
    simp only [Memory.wfFrom, Bool.and_eq_true, decide_eq_true_eq] at h ⊢
    exact ⟨⟨by omega, h.1.2⟩, h.2⟩

theorem Memory.consCell_wfFrom (a lo : Nat) (b : Byte) (m : Memory) (hlo : lo ≤ a)
    (hm : Memory.wfFrom d (a + 1) m = true) : Memory.wfFrom d lo (Memory.consCell d a b m) = true := by
  unfold Memory.consCell
  split
  · exact Memory.wfFrom_mono m (a + 1) lo (by omega) hm
  · simp_all [Memory.wfFrom]

theorem Memory.write_wfFrom : ∀ (m : Memory) (lo a : Nat) (b : Byte), lo ≤ a → Memory.wfFrom d lo m = true →
    Memory.wfFrom d lo (Memory.write d m a b) = true
  | [], lo, a, b, hlo, _ => Memory.consCell_wfFrom a lo b [] hlo rfl
  | (k, v) :: m, lo, a, b, hlo, h => by
    have h' := h
    simp only [Memory.wfFrom, Bool.and_eq_true, decide_eq_true_eq] at h'
    obtain ⟨⟨h1, h2⟩, h3⟩ := h'
    rw [Memory.write]
    split
    · rename_i hak
      refine Memory.consCell_wfFrom a lo b _ hlo ?_
      simp only [Memory.wfFrom, Bool.and_eq_true, decide_eq_true_eq]
      exact ⟨⟨by omega, h2⟩, h3⟩
    · split
      · rename_i hak
        subst hak
        exact Memory.consCell_wfFrom a lo b m hlo h3
      · simp only [Memory.wfFrom, Bool.and_eq_true, decide_eq_true_eq]
        exact ⟨⟨h1, h2⟩, Memory.write_wfFrom m (k + 1) a b (by omega) h3⟩

/-- A write keeps the canonical form. -/
theorem Memory.write_wf {m : Memory} (h : Memory.wf d m = true) (a : Nat) (b : Byte) :
    Memory.wf d (Memory.write d m a b) = true := Memory.write_wfFrom m 0 a b (Nat.zero_le _) h

theorem Memory.read_write_from : ∀ (m : Memory) (lo a x : Nat) (b : Byte), Memory.wfFrom d lo m = true →
    Memory.read d (Memory.write d m a b) x = if x = a then b else Memory.read d m x
  | [], lo, a, x, b, _ => Memory.read_consCell a x b [] rfl
  | (k, v) :: m, lo, a, x, b, h => by
    have h' := h
    simp only [Memory.wfFrom, Bool.and_eq_true, decide_eq_true_eq] at h'
    obtain ⟨⟨h1, h2⟩, h3⟩ := h'
    rw [Memory.write]
    split
    · rename_i hak
      refine Memory.read_consCell a x b _ ?_
      exact Memory.read_below ((k, v) :: m) k a
        (by simp only [Memory.wfFrom, Bool.and_eq_true, decide_eq_true_eq]; exact ⟨⟨by omega, h2⟩, h3⟩) hak
    · split
      · rename_i hak
        subst hak
        rw [Memory.read_consCell a x b m (Memory.read_below m (a + 1) a h3 (by omega))]
        by_cases hx : x = a <;> simp [Memory.read, hx]
      · rename_i hlt hne
        rw [Memory.read, Memory.read_write_from m (k + 1) a x b h3, Memory.read]
        by_cases hx : x = k
        · subst hx
          simp [Ne.symm hne]
        · simp [hx]

/-- What any address reads as after a write. -/
theorem Memory.read_write {m : Memory} (h : Memory.wf d m = true) (a x : Nat) (b : Byte) :
    Memory.read d (Memory.write d m a b) x = if x = a then b else Memory.read d m x :=
  Memory.read_write_from m 0 a x b h

theorem Memory.read_write_same {m : Memory} (h : Memory.wf d m = true) (a : Nat) (b : Byte) :
    Memory.read d (Memory.write d m a b) a = b := by
  rw [Memory.read_write h, if_pos rfl]

theorem Memory.read_write_other {m : Memory} (h : Memory.wf d m = true) {a x : Nat} (b : Byte) (hx : x ≠ a) :
    Memory.read d (Memory.write d m a b) x = Memory.read d m x := by
  rw [Memory.read_write h, if_neg hx]

/-- Two canonical memories that read alike everywhere are equal. -/
theorem Memory.ext_from : ∀ (m m' : Memory) (lo : Nat), Memory.wfFrom d lo m = true → Memory.wfFrom d lo m' = true →
    (∀ a, Memory.read d m a = Memory.read d m' a) → m = m'
  | [], [], _, _, _, _ => rfl
  | [], (k, v) :: m', lo, _, h', hr => by
    simp only [Memory.wfFrom, Bool.and_eq_true, decide_eq_true_eq] at h'
    have hk := hr k
    simp only [Memory.read, if_pos] at hk
    exact absurd hk.symm h'.1.2
  | (k, v) :: m, [], lo, h, _, hr => by
    simp only [Memory.wfFrom, Bool.and_eq_true, decide_eq_true_eq] at h
    have hk := hr k
    simp only [Memory.read, if_pos] at hk
    exact absurd hk h.1.2
  | (k, v) :: m, (k', v') :: m', lo, h, h', hr => by
    simp only [Memory.wfFrom, Bool.and_eq_true, decide_eq_true_eq] at h h'
    obtain ⟨⟨h1, h2⟩, h3⟩ := h
    obtain ⟨⟨h1', h2'⟩, h3'⟩ := h'
    have hkk : k = k' := by
      by_contra hne
      rcases Nat.lt_or_gt_of_ne hne with hlt | hgt
      · have hk := hr k
        simp only [Memory.read, if_pos, if_neg hne] at hk
        rw [Memory.read_below m' (k' + 1) k h3' (by omega)] at hk
        exact h2 hk
      · have hk := hr k'
        simp only [Memory.read, if_pos, if_neg (Ne.symm hne)] at hk
        rw [Memory.read_below m (k + 1) k' h3 (by omega)] at hk
        exact h2' hk.symm
    subst hkk
    have hv : v = v' := by simpa [Memory.read] using hr k
    subst hv
    have htail : m = m' := Memory.ext_from m m' (k + 1) h3 h3' (fun a => by
      by_cases ha : a = k
      · subst ha
        rw [Memory.read_below m (a + 1) a h3 (by omega), Memory.read_below m' (a + 1) a h3' (by omega)]
      · simpa [Memory.read, ha] using hr a)
    rw [htail]

theorem Memory.ext_of_read {m m' : Memory} (h : Memory.wf d m = true) (h' : Memory.wf d m' = true)
    (hr : ∀ a, Memory.read d m a = Memory.read d m' a) : m = m' := Memory.ext_from m m' 0 h h' hr

/-! ## Byte sequences -/

@[simp] theorem Memory.readBytes_length (m : Memory) (a n : Nat) : (Memory.readBytes d m a n).length = n := by
  simp [Memory.readBytes]

@[simp] theorem Memory.readBytes_getElem (m : Memory) (a n i : Nat) (h : i < (Memory.readBytes d m a n).length) :
    (Memory.readBytes d m a n)[i] = Memory.read d m (a + i) := by
  simp [Memory.readBytes]

/-- Bytes that read alike are the same sequence. -/
theorem Memory.readBytes_congr {m m' : Memory} {a n : Nat}
    (h : ∀ x, a ≤ x → x < a + n → Memory.read d m x = Memory.read d m' x) :
    Memory.readBytes d m a n = Memory.readBytes d m' a n := by
  simp only [Memory.readBytes]
  refine List.map_congr_left fun i hi => h _ (by omega) ?_
  have := List.mem_range.mp hi
  omega

/-- `MemWrite` keeps the canonical form. -/
theorem Memory.writeBytes_wf : ∀ (bs : List Byte) (m : Memory) (a : Nat), Memory.wf d m = true →
    Memory.wf d (Memory.writeBytes d m a bs) = true
  | [], _, _, h => h
  | b :: bs, _, a, h => Memory.writeBytes_wf bs _ (a + 1) (Memory.write_wf h a b)

/-- What any address reads as after `MemWrite`: the byte written there, or what it read before. -/
theorem Memory.read_writeBytes : ∀ (bs : List Byte) (m : Memory) (a x : Nat), Memory.wf d m = true →
    Memory.read d (Memory.writeBytes d m a bs) x =
      if a ≤ x ∧ x < a + bs.length then bs.getD (x - a) 0#8 else Memory.read d m x
  | [], m, a, x, _ => by simp [Memory.writeBytes]
  | b :: bs, m, a, x, h => by
    rw [Memory.writeBytes, Memory.read_writeBytes bs _ (a + 1) x (Memory.write_wf h a b), Memory.read_write h]
    simp only [List.length_cons]
    by_cases hx : x = a
    · subst hx
      simp
    · by_cases hin : a + 1 ≤ x ∧ x < a + 1 + bs.length
      · rw [if_pos hin, if_pos (by omega)]
        obtain ⟨k, hk⟩ : ∃ k, x - a = k + 1 := ⟨x - a - 1, by omega⟩
        rw [hk, show x - (a + 1) = k by omega]
        simp
      · rw [if_neg hin, if_neg hx, if_neg (by omega)]

/-- `MemWrite` leaves every other address alone. -/
theorem Memory.read_writeBytes_outside {m : Memory} (h : Memory.wf d m = true) {a x : Nat} {bs : List Byte}
    (hx : x < a ∨ a + bs.length ≤ x) : Memory.read d (Memory.writeBytes d m a bs) x = Memory.read d m x := by
  rw [Memory.read_writeBytes bs m a x h, if_neg (by omega)]

/-- Byte `i` of what `MemWrite` stored. -/
theorem Memory.read_writeBytes_inside {m : Memory} (h : Memory.wf d m = true) {a i : Nat} {bs : List Byte}
    (hi : i < bs.length) : Memory.read d (Memory.writeBytes d m a bs) (a + i) = bs[i] := by
  rw [Memory.read_writeBytes bs m a (a + i) h, if_pos (by omega), show a + i - a = i by omega]
  simp [hi]

/-- `MemRead` of exactly what `MemWrite` stored. -/
theorem Memory.readBytes_writeBytes {m : Memory} (h : Memory.wf d m = true) (a : Nat) (bs : List Byte) :
    Memory.readBytes d (Memory.writeBytes d m a bs) a bs.length = bs := by
  apply List.ext_getElem
  · simp
  · intro i h1 h2
    simp only [Memory.readBytes_getElem]
    exact Memory.read_writeBytes_inside h h2

/-- The loss of a range keeps the canonical form. -/
theorem Memory.scramble_wf {free : Nat → Byte} {m : Memory} (h : Memory.wf d m = true) (lo : Nat) :
    ∀ n, Memory.wf d (Memory.scramble d free m lo n) = true
  | 0 => h
  | n + 1 => Memory.write_wf (Memory.scramble_wf h lo n) _ _

/-- What any address reads as after the loss of a range: a free value inside, what it read before outside. -/
theorem Memory.read_scramble {free : Nat → Byte} {m : Memory} (h : Memory.wf d m = true) (lo x : Nat) :
    ∀ n, Memory.read d (Memory.scramble d free m lo n) x =
      if lo ≤ x ∧ x < lo + n then free x else Memory.read d m x
  | 0 => by rw [Memory.scramble, if_neg (by omega)]
  | n + 1 => by
    rw [Memory.scramble, Memory.read_write (Memory.scramble_wf h lo n), Memory.read_scramble h lo x n]
    by_cases hx : x = lo + n
    · subst hx
      rw [if_pos rfl, if_pos (by omega)]
    · rw [if_neg hx]
      by_cases hin : lo ≤ x ∧ x < lo + n
      · rw [if_pos hin, if_pos (by omega)]
      · rw [if_neg hin, if_neg (by omega)]

/-- A buffer written cell by cell from nothing is canonical. -/
theorem Memory.foldl_write_wf (cells : List Host.Cell) : ∀ (m : Memory), Memory.wf d m = true →
    Memory.wf d (cells.foldl (fun m p => Memory.write d m p.1 p.2) m) = true := by
  induction cells with
  | nil => exact fun _ h => h
  | cons p ps ih => exact fun m h => ih _ (Memory.write_wf h _ _)

end Sys2Proof.Machine
end

