-- ==== Sys2Proof/Laws/Operands.lean ====
section
/-!
SUPPORT. The laws of the pure operand functions: widths kept in the container, the byte orders, the remap, the derived
lanes, the offset and the slot counts; and what is known of the machine's configuration.
-/

namespace Sys2Proof.Machine

/-! ## The configuration -/

/-- Everything known of the machine's constants (`00_scope.md` R17). -/
theorem cfg_wf : cfg.params.WF := Config.chosen.wf

section WellFormedConfig

variable (c : Config)

theorem Config.W_cases : c.W = 32 ∨ c.W = 64 := c.wf.1

theorem Config.W_le : c.W ≤ 64 := by
  rcases Config.W_cases c with h | h <;> omega

theorem Config.WB_pos : 0 < c.WB := by
  have := Config.W_cases c
  unfold Config.WB
  omega

theorem Config.W_eq : c.W = 8 * c.WB := by
  have := Config.W_cases c
  unfold Config.WB
  omega

theorem Config.N_pos : 0 < c.N := c.wf.2.1.2

theorem Config.N_half : c.N / 2 + c.N / 2 = c.N := by
  have h : c.N % 2 = 0 := c.wf.2.1.1
  omega

theorem Config.XW_cases : c.XW = 32 ∨ c.XW = 64 := by
  have h1 : c.XW = c.W ∨ c.XW = 64 := c.wf.2.2.2.1
  have h2 := Config.W_cases c
  omega

theorem Config.XB_cases : c.XB = 4 ∨ c.XB = 8 := by
  have := Config.XW_cases c
  unfold Config.XB
  omega

theorem Config.XB_pos : 0 < c.XB := by
  have := Config.XB_cases c
  omega

theorem Config.XW_eq : c.XW = 8 * c.XB := by
  have := Config.XW_cases c
  unfold Config.XB
  omega

/-- `XB` is a multiple of `WB` (`00_scope.md` R14). -/
theorem Config.XB_mod_WB : c.XB % c.WB = 0 := by
  have h1 : c.XW = c.W ∨ c.XW = 64 := c.wf.2.2.2.1
  have h2 := Config.W_cases c
  unfold Config.XB Config.WB
  rcases h1 with h1 | h1 <;> rcases h2 with h2 | h2 <;> rw [h1, h2]

theorem Config.initRangeSize_pos : 0 < c.params.initRangeSize := c.wf.2.2.2.2.1.1

theorem Config.initRangeSize_mod : c.params.initRangeSize % c.XB = 0 := c.wf.2.2.2.2.1.2

theorem Config.steps_ne_nil : c.params.stepList ≠ [] := c.wf.2.2.2.2.2.1.1

theorem Config.shifts_pos : 1 ≤ c.params.shifts.a ∧ 1 ≤ c.params.shifts.b ∧ 1 ≤ c.params.shifts.c :=
  have h := c.wf.2.2.2.2.2.2
  ⟨h.1.1, h.2.1.1, h.2.2.1⟩

/-- The 64-bit variant has the hardware's shift amounts (`00_scope.md` R9). -/
theorem Config.shifts_of_64 (h : c.W = 64) : c.params.shifts = ⟨13, 7, 17⟩ := by
  have hne : ¬ c.params.W = 32 := fun h32 => absurd (h.symm.trans h32) (by decide)
  rw [Params.shifts, if_neg hne, c.shifts64_eq]
  rfl

end WellFormedConfig

/-! ## A `W`-bit value in its container -/

/-- A `W`-bit value survives the container. -/
theorem setWidth_container {w : Nat} (hw : w ≤ 64) (v : BitVec w) : (v.setWidth 64).setWidth w = v := by
  rw [BitVec.setWidth_setWidth_of_le v (by omega)]
  exact BitVec.setWidth_eq v

/-- A container that fits is what its value gives back. -/
theorem container_setWidth {w : Nat} {v : Word} (hv : v.toNat < 2 ^ w) :
    (v.setWidth w).setWidth 64 = v := by
  apply BitVec.eq_of_toNat_eq
  rw [BitVec.toNat_setWidth, BitVec.toNat_setWidth, Nat.mod_eq_of_lt hv, Nat.mod_eq_of_lt v.isLt]

/-- What is put in the container fits. -/
theorem container_fits {w : Nat} (v : BitVec w) : (v.setWidth 64).toNat < 2 ^ w := by
  rw [BitVec.toNat_setWidth]
  exact lt_of_le_of_lt (Nat.mod_le _ _) v.isLt

/-- The container is zero exactly when the value is. -/
theorem container_eq_zero {w : Nat} (hw : w ≤ 64) (v : BitVec w) : v.setWidth 64 = 0#64 ↔ v = 0#w := by
  constructor
  · intro h
    have := congrArg (BitVec.setWidth w) h
    rwa [setWidth_container hw, BitVec.setWidth_zero] at this
  · rintro rfl
    simp

/-! ## The remap -/

theorem remap_zero (w : Nat) : remap 0#w = BitVec.allOnes w := if_pos rfl

theorem remap_of_ne {w : Nat} {v : BitVec w} (h : v ≠ 0#w) : remap v = v := if_neg h

theorem allOnes_ne_zero {w : Nat} (hw : 0 < w) : BitVec.allOnes w ≠ 0#w := by
  intro h
  have := congrArg BitVec.toNat h
  simp only [BitVec.toNat_allOnes, BitVec.toNat_ofNat, Nat.zero_mod] at this
  have := Nat.one_lt_two_pow (n := w) (by omega)
  omega

/-- The remap never answers zero (`10_state.md` R21). -/
theorem remap_ne_zero {w : Nat} (hw : 0 < w) (v : BitVec w) : remap v ≠ 0#w := by
  unfold remap
  split
  · exact allOnes_ne_zero hw
  · assumption

/-! ## Byte orders -/

@[simp] theorem enc_length {w : Nat} (o : ByteOrder) (v : BitVec w) (n : Nat) : (enc o v n).length = n := by
  cases o <;> simp [enc]

/-- The big-endian encoding is the little-endian one reversed. -/
theorem enc_big_eq_reverse {w : Nat} (v : BitVec w) (n : Nat) : enc .big v n = (enc .little v n).reverse := by
  apply List.ext_getElem
  · simp
  · intro i h1 h2
    simp [enc, List.getElem_reverse]

/-! ## The derived lanes -/

@[simp] theorem deriveLanes_length (c : Config) (s : BitVec c.W) : (deriveLanes c s).length = c.N := by
  simp [deriveLanes, Config.N_half]

/-- Lane `i` of the first half (`42_lane_fill.md` R100). -/
theorem deriveLanes_low (c : Config) (s : BitVec c.W) {i : Nat} (hi : i < c.N / 2) :
    (deriveLanes c s).getD i 0#c.W = rotl s ((i * c.params.R) % c.W) := by
  simp [deriveLanes, List.getD_eq_getElem?_getD, List.getElem?_append_left, hi]

/-- Lane `N/2 + j` of the second half (`42_lane_fill.md` R100). -/
theorem deriveLanes_high (c : Config) (s : BitVec c.W) {j : Nat} (hj : j < c.N / 2) :
    (deriveLanes c s).getD (c.N / 2 + j) 0#c.W = rotr (~~~s) ((j * c.params.R) % c.W) := by
  simp [deriveLanes, List.getD_eq_getElem?_getD, hj]

theorem rotl_zero {n : Nat} (v : BitVec n) : rotl v 0 = v := by
  have h : v >>> n = 0#n := by
    apply BitVec.eq_of_toNat_eq
    simp [Nat.shiftRight_eq_div_pow, Nat.div_eq_of_lt v.isLt]
  simp [rotl, BitVec.rotateLeft, BitVec.rotateLeftAux, h]

/-- `L[0] = S` (`42_lane_fill.md` R100). -/
theorem deriveLanes_zero (c : Config) (s : BitVec c.W) : (deriveLanes c s).getD 0 0#c.W = s := by
  have h1 := Config.N_pos c
  have h2 := Config.N_half c
  rw [deriveLanes_low c s (by omega), Nat.zero_mul, Nat.zero_mod, rotl_zero]

/-! ## Windows and offsets -/

/-- A sub-step's outputs fit in the buffer (`43_expansion.md` R125). -/
theorem slotCount_fits (c : Config) {len filled : Nat} (nin : Nat) (h : filled ≤ len) :
    filled + slotCount c len filled nin * c.XB ≤ len := by
  have h1 : slotCount c len filled nin ≤ (len - filled) / c.XB := Nat.min_le_right _ _
  have h2 := Nat.mul_le_mul_right c.XB h1
  have h3 := Nat.div_mul_le_self (len - filled) c.XB
  omega

/-- A sub-step's inputs lie below `FILLED` when its window does (`43_expansion.md` R125). -/
theorem inputWindow_below (c : Config) {filled offset n : Nat} (hn : n ≤ inputWindow c filled offset) (h0 : 0 < n) :
    offset + n * c.XB ≤ filled := by
  have h2 := Nat.mul_le_mul_right c.XB hn
  have h3 := Nat.div_mul_le_self (filled - offset) c.XB
  have h4 : 0 < n * c.XB := Nat.mul_pos h0 (Config.XB_pos c)
  unfold inputWindow at h2
  omega

theorem nextOffset_gt (c : Config) (o : Nat) : o < nextOffset c o := by
  unfold nextOffset
  split <;> omega

/-- The initial segment is no longer than the buffer, and a whole number of integers (`44_composite.md` R150). -/
theorem initialSegment_le (c : Config) (len : Nat) : initialSegment c len ≤ len :=
  (Nat.min_le_right _ _).trans (Nat.div_mul_le_self _ _)

theorem initialSegment_mod_XB (c : Config) (len : Nat) : initialSegment c len % c.XB = 0 := by
  unfold initialSegment
  rcases Nat.le_total c.params.initRangeSize (len / c.XB * c.XB) with h | h
  · rw [Nat.min_eq_left h]
    exact Config.initRangeSize_mod c
  · rw [Nat.min_eq_right h]
    exact Nat.mul_mod_left _ _

/-- The lane fill of the initial segment has no tail (`00_scope.md` R14, `44_composite.md` R150). -/
theorem initialSegment_mod_WB (c : Config) (len : Nat) : initialSegment c len % c.WB = 0 :=
  Nat.mod_eq_zero_of_dvd
    ((Nat.dvd_of_mod_eq_zero (Config.XB_mod_WB c)).trans (Nat.dvd_of_mod_eq_zero (initialSegment_mod_XB c len)))

end Sys2Proof.Machine
end

