-- ==== Sys2Proof/Laws/State.lean ====
section
/-!
SUPPORT. One lemma per field per update of the state, true by rfl, so that no proof unfolds a record update.
-/

namespace Sys2Proof.Machine

/-! ## Acceptance (`30_encoding.md` R62) -/

@[simp] theorem accept_S (s : State) : (accept s).S = s.S := rfl
@[simp] theorem accept_L (s : State) : (accept s).L = s.L := rfl
@[simp] theorem accept_len (s : State) : (accept s).len = s.len := rfl
@[simp] theorem accept_f0 (s : State) : (accept s).f0 = s.f0 := rfl
@[simp] theorem accept_e (s : State) : (accept s).e = s.e := rfl
@[simp] theorem accept_cnt (s : State) : (accept s).cnt = s.cnt := rfl
@[simp] theorem accept_t (s : State) : (accept s).t = s.t := rfl
@[simp] theorem accept_filled (s : State) : (accept s).filled = s.filled := rfl
@[simp] theorem accept_offset (s : State) : (accept s).offset = s.offset := rfl
@[simp] theorem accept_kidx (s : State) : (accept s).kidx = s.kidx := rfl
@[simp] theorem accept_nin (s : State) : (accept s).nin = s.nin := rfl
@[simp] theorem accept_busy (s : State) : (accept s).busy = true := rfl
@[simp] theorem accept_fault (s : State) : (accept s).fault = s.fault := rfl
@[simp] theorem accept_underfill (s : State) : (accept s).underfill = s.underfill := rfl
@[simp] theorem accept_cause (s : State) : (accept s).cause = s.cause := rfl
@[simp] theorem accept_phase (s : State) : (accept s).phase = s.phase := rfl
@[simp] theorem accept_mem (s : State) : (accept s).mem = s.mem := rfl
@[simp] theorem accept_attached (s : State) : (accept s).attached = s.attached := rfl
@[simp] theorem accept_port (s : State) : (accept s).port = s.port := rfl
@[simp] theorem accept_draws (s : State) : (accept s).draws = s.draws := rfl

/-! ## Taking the input on the ports (`30_encoding.md` R62) -/

@[simp] theorem takeInput_S (s : State) : (takeInput s).S = s.S := rfl
@[simp] theorem takeInput_L (s : State) : (takeInput s).L = s.L := rfl
@[simp] theorem takeInput_len (s : State) : (takeInput s).len = s.len := rfl
@[simp] theorem takeInput_f0 (s : State) : (takeInput s).f0 = s.f0 := rfl
@[simp] theorem takeInput_e (s : State) : (takeInput s).e = s.e := rfl
@[simp] theorem takeInput_cnt (s : State) : (takeInput s).cnt = s.cnt := rfl
@[simp] theorem takeInput_t (s : State) : (takeInput s).t = s.t := rfl
@[simp] theorem takeInput_filled (s : State) : (takeInput s).filled = s.filled := rfl
@[simp] theorem takeInput_offset (s : State) : (takeInput s).offset = s.offset := rfl
@[simp] theorem takeInput_kidx (s : State) : (takeInput s).kidx = s.kidx := rfl
@[simp] theorem takeInput_nin (s : State) : (takeInput s).nin = s.nin := rfl
@[simp] theorem takeInput_busy (s : State) : (takeInput s).busy = s.busy := rfl
@[simp] theorem takeInput_fault (s : State) : (takeInput s).fault = s.fault := rfl
@[simp] theorem takeInput_underfill (s : State) : (takeInput s).underfill = s.underfill := rfl
@[simp] theorem takeInput_cause (s : State) : (takeInput s).cause = s.cause := rfl
@[simp] theorem takeInput_phase (s : State) : (takeInput s).phase = s.phase := rfl
@[simp] theorem takeInput_mem (s : State) : (takeInput s).mem = s.mem := rfl
@[simp] theorem takeInput_attached (s : State) : (takeInput s).attached = s.attached := rfl
@[simp] theorem takeInput_port (s : State) : (takeInput s).port = none := rfl
@[simp] theorem takeInput_draws (s : State) : (takeInput s).draws = s.draws := rfl

/-! ## Completion (`30_encoding.md` R62) -/

@[simp] theorem complete_S (s : State) : (complete s).S = s.S := rfl
@[simp] theorem complete_L (s : State) : (complete s).L = s.L := rfl
@[simp] theorem complete_len (s : State) : (complete s).len = s.len := rfl
@[simp] theorem complete_f0 (s : State) : (complete s).f0 = s.f0 := rfl
@[simp] theorem complete_e (s : State) : (complete s).e = s.e := rfl
@[simp] theorem complete_cnt (s : State) : (complete s).cnt = s.cnt := rfl
@[simp] theorem complete_t (s : State) : (complete s).t = s.t := rfl
@[simp] theorem complete_filled (s : State) : (complete s).filled = s.filled := rfl
@[simp] theorem complete_offset (s : State) : (complete s).offset = s.offset := rfl
@[simp] theorem complete_kidx (s : State) : (complete s).kidx = s.kidx := rfl
@[simp] theorem complete_nin (s : State) : (complete s).nin = s.nin := rfl
@[simp] theorem complete_busy (s : State) : (complete s).busy = false := rfl
@[simp] theorem complete_fault (s : State) : (complete s).fault = s.fault := rfl
@[simp] theorem complete_underfill (s : State) : (complete s).underfill = s.underfill := rfl
@[simp] theorem complete_cause (s : State) : (complete s).cause = s.cause := rfl
@[simp] theorem complete_phase (s : State) : (complete s).phase = .idle := rfl
@[simp] theorem complete_mem (s : State) : (complete s).mem = s.mem := rfl
@[simp] theorem complete_attached (s : State) : (complete s).attached = s.attached := rfl
@[simp] theorem complete_port (s : State) : (complete s).port = s.port := rfl
@[simp] theorem complete_draws (s : State) : (complete s).draws = s.draws := rfl

/-! ## Fault entry (`60_exceptions.md` R161) -/

@[simp] theorem raise_S (cause : Cause) (s : State) : (raise cause s).S = s.S := rfl
@[simp] theorem raise_L (cause : Cause) (s : State) : (raise cause s).L = s.L := rfl
@[simp] theorem raise_len (cause : Cause) (s : State) : (raise cause s).len = s.len := rfl
@[simp] theorem raise_f0 (cause : Cause) (s : State) : (raise cause s).f0 = s.f0 := rfl
@[simp] theorem raise_e (cause : Cause) (s : State) : (raise cause s).e = s.e := rfl
@[simp] theorem raise_cnt (cause : Cause) (s : State) : (raise cause s).cnt = s.cnt := rfl
@[simp] theorem raise_t (cause : Cause) (s : State) : (raise cause s).t = s.t := rfl
@[simp] theorem raise_filled (cause : Cause) (s : State) : (raise cause s).filled = s.filled := rfl
@[simp] theorem raise_offset (cause : Cause) (s : State) : (raise cause s).offset = s.offset := rfl
@[simp] theorem raise_kidx (cause : Cause) (s : State) : (raise cause s).kidx = s.kidx := rfl
@[simp] theorem raise_nin (cause : Cause) (s : State) : (raise cause s).nin = s.nin := rfl
@[simp] theorem raise_busy (cause : Cause) (s : State) : (raise cause s).busy = false := rfl
@[simp] theorem raise_fault (cause : Cause) (s : State) : (raise cause s).fault = true := rfl
@[simp] theorem raise_underfill (cause : Cause) (s : State) : (raise cause s).underfill = s.underfill := rfl
@[simp] theorem raise_cause (cause : Cause) (s : State) :
    (raise cause s).cause = if s.fault then s.cause else cause := rfl
@[simp] theorem raise_phase (cause : Cause) (s : State) : (raise cause s).phase = .faulted := rfl
@[simp] theorem raise_mem (cause : Cause) (s : State) : (raise cause s).mem = s.mem := rfl
@[simp] theorem raise_attached (cause : Cause) (s : State) : (raise cause s).attached = s.attached := rfl
@[simp] theorem raise_port (cause : Cause) (s : State) : (raise cause s).port = s.port := rfl
@[simp] theorem raise_draws (cause : Cause) (s : State) : (raise cause s).draws = s.draws := rfl

/-! ## The under-fill flag (`43_expansion.md` R134) -/

@[simp] theorem flagUnderfill_S (c : Config) (r : Nat) (s : State) : (flagUnderfill c r s).S = s.S := rfl
@[simp] theorem flagUnderfill_L (c : Config) (r : Nat) (s : State) : (flagUnderfill c r s).L = s.L := rfl
@[simp] theorem flagUnderfill_len (c : Config) (r : Nat) (s : State) : (flagUnderfill c r s).len = s.len := rfl
@[simp] theorem flagUnderfill_f0 (c : Config) (r : Nat) (s : State) : (flagUnderfill c r s).f0 = s.f0 := rfl
@[simp] theorem flagUnderfill_e (c : Config) (r : Nat) (s : State) : (flagUnderfill c r s).e = s.e := rfl
@[simp] theorem flagUnderfill_cnt (c : Config) (r : Nat) (s : State) : (flagUnderfill c r s).cnt = s.cnt := rfl
@[simp] theorem flagUnderfill_t (c : Config) (r : Nat) (s : State) : (flagUnderfill c r s).t = s.t := rfl
@[simp] theorem flagUnderfill_filled (c : Config) (r : Nat) (s : State) :
    (flagUnderfill c r s).filled = s.filled := rfl
@[simp] theorem flagUnderfill_offset (c : Config) (r : Nat) (s : State) :
    (flagUnderfill c r s).offset = s.offset := rfl
@[simp] theorem flagUnderfill_kidx (c : Config) (r : Nat) (s : State) : (flagUnderfill c r s).kidx = s.kidx := rfl
@[simp] theorem flagUnderfill_nin (c : Config) (r : Nat) (s : State) : (flagUnderfill c r s).nin = s.nin := rfl
@[simp] theorem flagUnderfill_busy (c : Config) (r : Nat) (s : State) : (flagUnderfill c r s).busy = s.busy := rfl
@[simp] theorem flagUnderfill_fault (c : Config) (r : Nat) (s : State) : (flagUnderfill c r s).fault = s.fault := rfl
@[simp] theorem flagUnderfill_underfill (c : Config) (r : Nat) (s : State) :
    (flagUnderfill c r s).underfill = (s.underfill || decide (c.XB ≤ r)) := rfl
@[simp] theorem flagUnderfill_cause (c : Config) (r : Nat) (s : State) : (flagUnderfill c r s).cause = s.cause := rfl
@[simp] theorem flagUnderfill_phase (c : Config) (r : Nat) (s : State) : (flagUnderfill c r s).phase = s.phase := rfl
@[simp] theorem flagUnderfill_mem (c : Config) (r : Nat) (s : State) : (flagUnderfill c r s).mem = s.mem := rfl
@[simp] theorem flagUnderfill_attached (c : Config) (r : Nat) (s : State) :
    (flagUnderfill c r s).attached = s.attached := rfl
@[simp] theorem flagUnderfill_port (c : Config) (r : Nat) (s : State) : (flagUnderfill c r s).port = s.port := rfl
@[simp] theorem flagUnderfill_draws (c : Config) (r : Nat) (s : State) : (flagUnderfill c r s).draws = s.draws := rfl

/-! ## Writing `S` -/

@[simp] theorem writeS_S (c : Config) (v : BitVec c.W) (s : State) : (writeS c v s).S = v.setWidth 64 := rfl
@[simp] theorem writeS_L (c : Config) (v : BitVec c.W) (s : State) : (writeS c v s).L = s.L := rfl
@[simp] theorem writeS_len (c : Config) (v : BitVec c.W) (s : State) : (writeS c v s).len = s.len := rfl
@[simp] theorem writeS_f0 (c : Config) (v : BitVec c.W) (s : State) : (writeS c v s).f0 = s.f0 := rfl
@[simp] theorem writeS_e (c : Config) (v : BitVec c.W) (s : State) : (writeS c v s).e = s.e := rfl
@[simp] theorem writeS_cnt (c : Config) (v : BitVec c.W) (s : State) : (writeS c v s).cnt = s.cnt := rfl
@[simp] theorem writeS_t (c : Config) (v : BitVec c.W) (s : State) : (writeS c v s).t = s.t := rfl
@[simp] theorem writeS_filled (c : Config) (v : BitVec c.W) (s : State) : (writeS c v s).filled = s.filled := rfl
@[simp] theorem writeS_offset (c : Config) (v : BitVec c.W) (s : State) : (writeS c v s).offset = s.offset := rfl
@[simp] theorem writeS_kidx (c : Config) (v : BitVec c.W) (s : State) : (writeS c v s).kidx = s.kidx := rfl
@[simp] theorem writeS_nin (c : Config) (v : BitVec c.W) (s : State) : (writeS c v s).nin = s.nin := rfl
@[simp] theorem writeS_busy (c : Config) (v : BitVec c.W) (s : State) : (writeS c v s).busy = s.busy := rfl
@[simp] theorem writeS_fault (c : Config) (v : BitVec c.W) (s : State) : (writeS c v s).fault = s.fault := rfl
@[simp] theorem writeS_underfill (c : Config) (v : BitVec c.W) (s : State) :
    (writeS c v s).underfill = s.underfill := rfl
@[simp] theorem writeS_cause (c : Config) (v : BitVec c.W) (s : State) : (writeS c v s).cause = s.cause := rfl
@[simp] theorem writeS_phase (c : Config) (v : BitVec c.W) (s : State) : (writeS c v s).phase = s.phase := rfl
@[simp] theorem writeS_mem (c : Config) (v : BitVec c.W) (s : State) : (writeS c v s).mem = s.mem := rfl
@[simp] theorem writeS_attached (c : Config) (v : BitVec c.W) (s : State) :
    (writeS c v s).attached = s.attached := rfl
@[simp] theorem writeS_port (c : Config) (v : BitVec c.W) (s : State) : (writeS c v s).port = s.port := rfl
@[simp] theorem writeS_draws (c : Config) (v : BitVec c.W) (s : State) : (writeS c v s).draws = s.draws := rfl

/-! ## Writing one lane -/

@[simp] theorem writeLane_S (c : Config) (i : Nat) (v : BitVec c.W) (s : State) : (writeLane c i v s).S = s.S := rfl
@[simp] theorem writeLane_L (c : Config) (i : Nat) (v : BitVec c.W) (s : State) :
    (writeLane c i v s).L = s.L.set i (v.setWidth 64) := rfl
@[simp] theorem writeLane_len (c : Config) (i : Nat) (v : BitVec c.W) (s : State) :
    (writeLane c i v s).len = s.len := rfl
@[simp] theorem writeLane_f0 (c : Config) (i : Nat) (v : BitVec c.W) (s : State) :
    (writeLane c i v s).f0 = s.f0 := rfl
@[simp] theorem writeLane_e (c : Config) (i : Nat) (v : BitVec c.W) (s : State) : (writeLane c i v s).e = s.e := rfl
@[simp] theorem writeLane_cnt (c : Config) (i : Nat) (v : BitVec c.W) (s : State) :
    (writeLane c i v s).cnt = s.cnt := rfl
@[simp] theorem writeLane_t (c : Config) (i : Nat) (v : BitVec c.W) (s : State) : (writeLane c i v s).t = s.t := rfl
@[simp] theorem writeLane_filled (c : Config) (i : Nat) (v : BitVec c.W) (s : State) :
    (writeLane c i v s).filled = s.filled := rfl
@[simp] theorem writeLane_offset (c : Config) (i : Nat) (v : BitVec c.W) (s : State) :
    (writeLane c i v s).offset = s.offset := rfl
@[simp] theorem writeLane_kidx (c : Config) (i : Nat) (v : BitVec c.W) (s : State) :
    (writeLane c i v s).kidx = s.kidx := rfl
@[simp] theorem writeLane_nin (c : Config) (i : Nat) (v : BitVec c.W) (s : State) :
    (writeLane c i v s).nin = s.nin := rfl
@[simp] theorem writeLane_busy (c : Config) (i : Nat) (v : BitVec c.W) (s : State) :
    (writeLane c i v s).busy = s.busy := rfl
@[simp] theorem writeLane_fault (c : Config) (i : Nat) (v : BitVec c.W) (s : State) :
    (writeLane c i v s).fault = s.fault := rfl
@[simp] theorem writeLane_underfill (c : Config) (i : Nat) (v : BitVec c.W) (s : State) :
    (writeLane c i v s).underfill = s.underfill := rfl
@[simp] theorem writeLane_cause (c : Config) (i : Nat) (v : BitVec c.W) (s : State) :
    (writeLane c i v s).cause = s.cause := rfl
@[simp] theorem writeLane_phase (c : Config) (i : Nat) (v : BitVec c.W) (s : State) :
    (writeLane c i v s).phase = s.phase := rfl
@[simp] theorem writeLane_mem (c : Config) (i : Nat) (v : BitVec c.W) (s : State) :
    (writeLane c i v s).mem = s.mem := rfl
@[simp] theorem writeLane_attached (c : Config) (i : Nat) (v : BitVec c.W) (s : State) :
    (writeLane c i v s).attached = s.attached := rfl
@[simp] theorem writeLane_port (c : Config) (i : Nat) (v : BitVec c.W) (s : State) :
    (writeLane c i v s).port = s.port := rfl
@[simp] theorem writeLane_draws (c : Config) (i : Nat) (v : BitVec c.W) (s : State) :
    (writeLane c i v s).draws = s.draws := rfl

/-! ## Writing the lane file -/

@[simp] theorem writeLanes_S (c : Config) (vs : List (BitVec c.W)) (s : State) : (writeLanes c vs s).S = s.S := rfl
@[simp] theorem writeLanes_L (c : Config) (vs : List (BitVec c.W)) (s : State) :
    (writeLanes c vs s).L = vs.map (fun v => v.setWidth 64) := rfl
@[simp] theorem writeLanes_len (c : Config) (vs : List (BitVec c.W)) (s : State) :
    (writeLanes c vs s).len = s.len := rfl
@[simp] theorem writeLanes_f0 (c : Config) (vs : List (BitVec c.W)) (s : State) : (writeLanes c vs s).f0 = s.f0 := rfl
@[simp] theorem writeLanes_e (c : Config) (vs : List (BitVec c.W)) (s : State) : (writeLanes c vs s).e = s.e := rfl
@[simp] theorem writeLanes_cnt (c : Config) (vs : List (BitVec c.W)) (s : State) :
    (writeLanes c vs s).cnt = s.cnt := rfl
@[simp] theorem writeLanes_t (c : Config) (vs : List (BitVec c.W)) (s : State) : (writeLanes c vs s).t = s.t := rfl
@[simp] theorem writeLanes_filled (c : Config) (vs : List (BitVec c.W)) (s : State) :
    (writeLanes c vs s).filled = s.filled := rfl
@[simp] theorem writeLanes_offset (c : Config) (vs : List (BitVec c.W)) (s : State) :
    (writeLanes c vs s).offset = s.offset := rfl
@[simp] theorem writeLanes_kidx (c : Config) (vs : List (BitVec c.W)) (s : State) :
    (writeLanes c vs s).kidx = s.kidx := rfl
@[simp] theorem writeLanes_nin (c : Config) (vs : List (BitVec c.W)) (s : State) :
    (writeLanes c vs s).nin = s.nin := rfl
@[simp] theorem writeLanes_busy (c : Config) (vs : List (BitVec c.W)) (s : State) :
    (writeLanes c vs s).busy = s.busy := rfl
@[simp] theorem writeLanes_fault (c : Config) (vs : List (BitVec c.W)) (s : State) :
    (writeLanes c vs s).fault = s.fault := rfl
@[simp] theorem writeLanes_underfill (c : Config) (vs : List (BitVec c.W)) (s : State) :
    (writeLanes c vs s).underfill = s.underfill := rfl
@[simp] theorem writeLanes_cause (c : Config) (vs : List (BitVec c.W)) (s : State) :
    (writeLanes c vs s).cause = s.cause := rfl
@[simp] theorem writeLanes_phase (c : Config) (vs : List (BitVec c.W)) (s : State) :
    (writeLanes c vs s).phase = s.phase := rfl
@[simp] theorem writeLanes_mem (c : Config) (vs : List (BitVec c.W)) (s : State) :
    (writeLanes c vs s).mem = s.mem := rfl
@[simp] theorem writeLanes_attached (c : Config) (vs : List (BitVec c.W)) (s : State) :
    (writeLanes c vs s).attached = s.attached := rfl
@[simp] theorem writeLanes_port (c : Config) (vs : List (BitVec c.W)) (s : State) :
    (writeLanes c vs s).port = s.port := rfl
@[simp] theorem writeLanes_draws (c : Config) (vs : List (BitVec c.W)) (s : State) :
    (writeLanes c vs s).draws = s.draws := rfl

/-! ## One DISCARD iteration (`41_seed_state.md` R92) -/

@[simp] theorem discardStep_S (c : Config) (s : State) :
    (discardStep c s).S = (mix c.params.shifts (readS c s)).setWidth 64 := rfl
@[simp] theorem discardStep_L (c : Config) (s : State) : (discardStep c s).L = s.L := rfl
@[simp] theorem discardStep_len (c : Config) (s : State) : (discardStep c s).len = s.len := rfl
@[simp] theorem discardStep_f0 (c : Config) (s : State) : (discardStep c s).f0 = s.f0 := rfl
@[simp] theorem discardStep_e (c : Config) (s : State) : (discardStep c s).e = s.e := rfl
@[simp] theorem discardStep_cnt (c : Config) (s : State) : (discardStep c s).cnt = s.cnt - 1 := rfl
@[simp] theorem discardStep_t (c : Config) (s : State) : (discardStep c s).t = s.t := rfl
@[simp] theorem discardStep_filled (c : Config) (s : State) : (discardStep c s).filled = s.filled := rfl
@[simp] theorem discardStep_offset (c : Config) (s : State) : (discardStep c s).offset = s.offset := rfl
@[simp] theorem discardStep_kidx (c : Config) (s : State) : (discardStep c s).kidx = s.kidx := rfl
@[simp] theorem discardStep_nin (c : Config) (s : State) : (discardStep c s).nin = s.nin := rfl
@[simp] theorem discardStep_busy (c : Config) (s : State) : (discardStep c s).busy = s.busy := rfl
@[simp] theorem discardStep_fault (c : Config) (s : State) : (discardStep c s).fault = s.fault := rfl
@[simp] theorem discardStep_underfill (c : Config) (s : State) : (discardStep c s).underfill = s.underfill := rfl
@[simp] theorem discardStep_cause (c : Config) (s : State) : (discardStep c s).cause = s.cause := rfl
@[simp] theorem discardStep_phase (c : Config) (s : State) : (discardStep c s).phase = s.phase := rfl
@[simp] theorem discardStep_mem (c : Config) (s : State) : (discardStep c s).mem = s.mem := rfl
@[simp] theorem discardStep_attached (c : Config) (s : State) : (discardStep c s).attached = s.attached := rfl
@[simp] theorem discardStep_port (c : Config) (s : State) : (discardStep c s).port = s.port := rfl
@[simp] theorem discardStep_draws (c : Config) (s : State) : (discardStep c s).draws = s.draws := rfl

/-! ## LANE_INIT (`42_lane_fill.md` R100) -/

@[simp] theorem laneInit_S (c : Config) (s : State) : (laneInit c s).S = s.S := rfl
@[simp] theorem laneInit_L (c : Config) (s : State) :
    (laneInit c s).L = (deriveLanes c (readS c s)).map (fun v => v.setWidth 64) := rfl
@[simp] theorem laneInit_len (c : Config) (s : State) : (laneInit c s).len = s.len := rfl
@[simp] theorem laneInit_f0 (c : Config) (s : State) : (laneInit c s).f0 = s.f0 := rfl
@[simp] theorem laneInit_e (c : Config) (s : State) : (laneInit c s).e = s.e := rfl
@[simp] theorem laneInit_cnt (c : Config) (s : State) : (laneInit c s).cnt = s.cnt := rfl
@[simp] theorem laneInit_t (c : Config) (s : State) : (laneInit c s).t = 0 := rfl
@[simp] theorem laneInit_filled (c : Config) (s : State) : (laneInit c s).filled = s.filled := rfl
@[simp] theorem laneInit_offset (c : Config) (s : State) : (laneInit c s).offset = s.offset := rfl
@[simp] theorem laneInit_kidx (c : Config) (s : State) : (laneInit c s).kidx = s.kidx := rfl
@[simp] theorem laneInit_nin (c : Config) (s : State) : (laneInit c s).nin = s.nin := rfl
@[simp] theorem laneInit_busy (c : Config) (s : State) : (laneInit c s).busy = s.busy := rfl
@[simp] theorem laneInit_fault (c : Config) (s : State) : (laneInit c s).fault = s.fault := rfl
@[simp] theorem laneInit_underfill (c : Config) (s : State) : (laneInit c s).underfill = s.underfill := rfl
@[simp] theorem laneInit_cause (c : Config) (s : State) : (laneInit c s).cause = s.cause := rfl
@[simp] theorem laneInit_phase (c : Config) (s : State) : (laneInit c s).phase = .laneInit := rfl
@[simp] theorem laneInit_mem (c : Config) (s : State) : (laneInit c s).mem = s.mem := rfl
@[simp] theorem laneInit_attached (c : Config) (s : State) : (laneInit c s).attached = s.attached := rfl
@[simp] theorem laneInit_port (c : Config) (s : State) : (laneInit c s).port = s.port := rfl
@[simp] theorem laneInit_draws (c : Config) (s : State) : (laneInit c s).draws = s.draws := rfl

/-! ## One slot step (`42_lane_fill.md` R105) -/

@[simp] theorem laneSlot_S (c : Config) (s : State) : (laneSlot c s).S = s.S := rfl
@[simp] theorem laneSlot_L (c : Config) (s : State) :
    (laneSlot c s).L = s.L.set (s.t % c.N) ((mix c.params.shifts (readLane c s (s.t % c.N))).setWidth 64) := rfl
@[simp] theorem laneSlot_len (c : Config) (s : State) : (laneSlot c s).len = s.len := rfl
@[simp] theorem laneSlot_f0 (c : Config) (s : State) : (laneSlot c s).f0 = s.f0 := rfl
@[simp] theorem laneSlot_e (c : Config) (s : State) : (laneSlot c s).e = s.e := rfl
@[simp] theorem laneSlot_cnt (c : Config) (s : State) : (laneSlot c s).cnt = s.cnt := rfl
@[simp] theorem laneSlot_t (c : Config) (s : State) : (laneSlot c s).t = s.t + 1 := rfl
@[simp] theorem laneSlot_filled (c : Config) (s : State) : (laneSlot c s).filled = s.filled := rfl
@[simp] theorem laneSlot_offset (c : Config) (s : State) : (laneSlot c s).offset = s.offset := rfl
@[simp] theorem laneSlot_kidx (c : Config) (s : State) : (laneSlot c s).kidx = s.kidx := rfl
@[simp] theorem laneSlot_nin (c : Config) (s : State) : (laneSlot c s).nin = s.nin := rfl
@[simp] theorem laneSlot_busy (c : Config) (s : State) : (laneSlot c s).busy = s.busy := rfl
@[simp] theorem laneSlot_fault (c : Config) (s : State) : (laneSlot c s).fault = s.fault := rfl
@[simp] theorem laneSlot_underfill (c : Config) (s : State) : (laneSlot c s).underfill = s.underfill := rfl
@[simp] theorem laneSlot_cause (c : Config) (s : State) : (laneSlot c s).cause = s.cause := rfl
@[simp] theorem laneSlot_phase (c : Config) (s : State) : (laneSlot c s).phase = .laneSlots := rfl
@[simp] theorem laneSlot_mem (c : Config) (s : State) :
    (laneSlot c s).mem = Memory.writeBytes c.unwritten s.mem (s.t * c.WB)
      (enc (ord c s.e) (mix c.params.shifts (readLane c s (s.t % c.N))) c.WB) :=
  rfl
@[simp] theorem laneSlot_attached (c : Config) (s : State) : (laneSlot c s).attached = s.attached := rfl
@[simp] theorem laneSlot_port (c : Config) (s : State) : (laneSlot c s).port = s.port := rfl
@[simp] theorem laneSlot_draws (c : Config) (s : State) : (laneSlot c s).draws = s.draws := rfl

/-! ## LANE_CHAIN (`42_lane_fill.md` R106) -/

@[simp] theorem laneChain_S (c : Config) (s : State) :
    (laneChain c s).S = (mix c.params.shifts (readLane c s 0)).setWidth 64 := rfl
@[simp] theorem laneChain_L (c : Config) (s : State) : (laneChain c s).L = s.L := rfl
@[simp] theorem laneChain_len (c : Config) (s : State) : (laneChain c s).len = s.len := rfl
@[simp] theorem laneChain_f0 (c : Config) (s : State) : (laneChain c s).f0 = s.f0 := rfl
@[simp] theorem laneChain_e (c : Config) (s : State) : (laneChain c s).e = s.e := rfl
@[simp] theorem laneChain_cnt (c : Config) (s : State) : (laneChain c s).cnt = s.cnt := rfl
@[simp] theorem laneChain_t (c : Config) (s : State) : (laneChain c s).t = s.t := rfl
@[simp] theorem laneChain_filled (c : Config) (s : State) : (laneChain c s).filled = s.filled := rfl
@[simp] theorem laneChain_offset (c : Config) (s : State) : (laneChain c s).offset = s.offset := rfl
@[simp] theorem laneChain_kidx (c : Config) (s : State) : (laneChain c s).kidx = s.kidx := rfl
@[simp] theorem laneChain_nin (c : Config) (s : State) : (laneChain c s).nin = s.nin := rfl
@[simp] theorem laneChain_busy (c : Config) (s : State) : (laneChain c s).busy = s.busy := rfl
@[simp] theorem laneChain_fault (c : Config) (s : State) : (laneChain c s).fault = s.fault := rfl
@[simp] theorem laneChain_underfill (c : Config) (s : State) : (laneChain c s).underfill = s.underfill := rfl
@[simp] theorem laneChain_cause (c : Config) (s : State) : (laneChain c s).cause = s.cause := rfl
@[simp] theorem laneChain_phase (c : Config) (s : State) : (laneChain c s).phase = .laneChain := rfl
@[simp] theorem laneChain_mem (c : Config) (s : State) : (laneChain c s).mem = s.mem := rfl
@[simp] theorem laneChain_attached (c : Config) (s : State) : (laneChain c s).attached = s.attached := rfl
@[simp] theorem laneChain_port (c : Config) (s : State) : (laneChain c s).port = s.port := rfl
@[simp] theorem laneChain_draws (c : Config) (s : State) : (laneChain c s).draws = s.draws := rfl

/-! ## LANE_TAIL (`42_lane_fill.md` R108) -/

@[simp] theorem laneTail_S (c : Config) (n r : Nat) (s : State) :
    (laneTail c n r s).S = (mix c.params.shifts (readS c s)).setWidth 64 := rfl
@[simp] theorem laneTail_L (c : Config) (n r : Nat) (s : State) : (laneTail c n r s).L = s.L := rfl
@[simp] theorem laneTail_len (c : Config) (n r : Nat) (s : State) : (laneTail c n r s).len = s.len := rfl
@[simp] theorem laneTail_f0 (c : Config) (n r : Nat) (s : State) : (laneTail c n r s).f0 = s.f0 := rfl
@[simp] theorem laneTail_e (c : Config) (n r : Nat) (s : State) : (laneTail c n r s).e = s.e := rfl
@[simp] theorem laneTail_cnt (c : Config) (n r : Nat) (s : State) : (laneTail c n r s).cnt = s.cnt := rfl
@[simp] theorem laneTail_t (c : Config) (n r : Nat) (s : State) : (laneTail c n r s).t = s.t := rfl
@[simp] theorem laneTail_filled (c : Config) (n r : Nat) (s : State) : (laneTail c n r s).filled = s.filled := rfl
@[simp] theorem laneTail_offset (c : Config) (n r : Nat) (s : State) : (laneTail c n r s).offset = s.offset := rfl
@[simp] theorem laneTail_kidx (c : Config) (n r : Nat) (s : State) : (laneTail c n r s).kidx = s.kidx := rfl
@[simp] theorem laneTail_nin (c : Config) (n r : Nat) (s : State) : (laneTail c n r s).nin = s.nin := rfl
@[simp] theorem laneTail_busy (c : Config) (n r : Nat) (s : State) : (laneTail c n r s).busy = s.busy := rfl
@[simp] theorem laneTail_fault (c : Config) (n r : Nat) (s : State) : (laneTail c n r s).fault = s.fault := rfl
@[simp] theorem laneTail_underfill (c : Config) (n r : Nat) (s : State) :
    (laneTail c n r s).underfill = s.underfill := rfl
@[simp] theorem laneTail_cause (c : Config) (n r : Nat) (s : State) : (laneTail c n r s).cause = s.cause := rfl
@[simp] theorem laneTail_phase (c : Config) (n r : Nat) (s : State) : (laneTail c n r s).phase = .laneTail := rfl
@[simp] theorem laneTail_mem (c : Config) (n r : Nat) (s : State) :
    (laneTail c n r s).mem = Memory.writeBytes c.unwritten s.mem (n * c.WB)
      ((enc (ord c s.e) (mix c.params.shifts (readS c s)) c.WB).take r) :=
  rfl
@[simp] theorem laneTail_attached (c : Config) (n r : Nat) (s : State) :
    (laneTail c n r s).attached = s.attached := rfl
@[simp] theorem laneTail_port (c : Config) (n r : Nat) (s : State) : (laneTail c n r s).port = s.port := rfl
@[simp] theorem laneTail_draws (c : Config) (n r : Nat) (s : State) : (laneTail c n r s).draws = s.draws := rfl

/-! ## The start of an expansion (`43_expansion.md` R122) -/

@[simp] theorem expandStart_S (s : State) : (expandStart s).S = s.S := rfl
@[simp] theorem expandStart_L (s : State) : (expandStart s).L = s.L := rfl
@[simp] theorem expandStart_len (s : State) : (expandStart s).len = s.len := rfl
@[simp] theorem expandStart_f0 (s : State) : (expandStart s).f0 = s.f0 := rfl
@[simp] theorem expandStart_e (s : State) : (expandStart s).e = s.e := rfl
@[simp] theorem expandStart_cnt (s : State) : (expandStart s).cnt = s.cnt := rfl
@[simp] theorem expandStart_t (s : State) : (expandStart s).t = s.t := rfl
@[simp] theorem expandStart_filled (s : State) : (expandStart s).filled = min s.f0 s.len := rfl
@[simp] theorem expandStart_offset (s : State) : (expandStart s).offset = 1 := rfl
@[simp] theorem expandStart_kidx (s : State) : (expandStart s).kidx = 0 := rfl
@[simp] theorem expandStart_nin (s : State) : (expandStart s).nin = s.nin := rfl
@[simp] theorem expandStart_busy (s : State) : (expandStart s).busy = s.busy := rfl
@[simp] theorem expandStart_fault (s : State) : (expandStart s).fault = s.fault := rfl
@[simp] theorem expandStart_underfill (s : State) : (expandStart s).underfill = s.underfill := rfl
@[simp] theorem expandStart_cause (s : State) : (expandStart s).cause = s.cause := rfl
@[simp] theorem expandStart_phase (s : State) : (expandStart s).phase = s.phase := rfl
@[simp] theorem expandStart_mem (s : State) : (expandStart s).mem = s.mem := rfl
@[simp] theorem expandStart_attached (s : State) : (expandStart s).attached = s.attached := rfl
@[simp] theorem expandStart_port (s : State) : (expandStart s).port = s.port := rfl
@[simp] theorem expandStart_draws (s : State) : (expandStart s).draws = s.draws := rfl

/-! ## The end of an iteration (`43_expansion.md` R130) -/

@[simp] theorem nextIteration_S (c : Config) (s : State) : (nextIteration c s).S = s.S := rfl
@[simp] theorem nextIteration_L (c : Config) (s : State) : (nextIteration c s).L = s.L := rfl
@[simp] theorem nextIteration_len (c : Config) (s : State) : (nextIteration c s).len = s.len := rfl
@[simp] theorem nextIteration_f0 (c : Config) (s : State) : (nextIteration c s).f0 = s.f0 := rfl
@[simp] theorem nextIteration_e (c : Config) (s : State) : (nextIteration c s).e = s.e := rfl
@[simp] theorem nextIteration_cnt (c : Config) (s : State) : (nextIteration c s).cnt = s.cnt := rfl
@[simp] theorem nextIteration_t (c : Config) (s : State) : (nextIteration c s).t = s.t := rfl
@[simp] theorem nextIteration_filled (c : Config) (s : State) : (nextIteration c s).filled = s.filled := rfl
@[simp] theorem nextIteration_offset (c : Config) (s : State) :
    (nextIteration c s).offset = nextOffset c s.offset := rfl
@[simp] theorem nextIteration_kidx (c : Config) (s : State) : (nextIteration c s).kidx = s.kidx + 1 := rfl
@[simp] theorem nextIteration_nin (c : Config) (s : State) : (nextIteration c s).nin = s.nin := rfl
@[simp] theorem nextIteration_busy (c : Config) (s : State) : (nextIteration c s).busy = s.busy := rfl
@[simp] theorem nextIteration_fault (c : Config) (s : State) : (nextIteration c s).fault = s.fault := rfl
@[simp] theorem nextIteration_underfill (c : Config) (s : State) : (nextIteration c s).underfill = s.underfill := rfl
@[simp] theorem nextIteration_cause (c : Config) (s : State) : (nextIteration c s).cause = s.cause := rfl
@[simp] theorem nextIteration_phase (c : Config) (s : State) : (nextIteration c s).phase = s.phase := rfl
@[simp] theorem nextIteration_mem (c : Config) (s : State) : (nextIteration c s).mem = s.mem := rfl
@[simp] theorem nextIteration_attached (c : Config) (s : State) : (nextIteration c s).attached = s.attached := rfl
@[simp] theorem nextIteration_port (c : Config) (s : State) : (nextIteration c s).port = s.port := rfl
@[simp] theorem nextIteration_draws (c : Config) (s : State) : (nextIteration c s).draws = s.draws := rfl

/-! ## The losses of an imprecise fault (`60_exceptions.md` R161) -/

@[simp] theorem loseState_S (c : Config) (lo : Nat) (s : State) :
    (loseState c lo s).S = ((c.lostS s.draws).setWidth c.W).setWidth 64 := rfl
@[simp] theorem loseState_L (c : Config) (lo : Nat) (s : State) :
    (loseState c lo s).L = (List.range c.N).map (fun i => ((c.lostLane s.draws i).setWidth c.W).setWidth 64) := rfl
@[simp] theorem loseState_len (c : Config) (lo : Nat) (s : State) : (loseState c lo s).len = s.len := rfl
@[simp] theorem loseState_f0 (c : Config) (lo : Nat) (s : State) : (loseState c lo s).f0 = s.f0 := rfl
@[simp] theorem loseState_e (c : Config) (lo : Nat) (s : State) : (loseState c lo s).e = s.e := rfl
@[simp] theorem loseState_cnt (c : Config) (lo : Nat) (s : State) : (loseState c lo s).cnt = s.cnt := rfl
@[simp] theorem loseState_t (c : Config) (lo : Nat) (s : State) : (loseState c lo s).t = s.t := rfl
@[simp] theorem loseState_filled (c : Config) (lo : Nat) (s : State) : (loseState c lo s).filled = s.filled := rfl
@[simp] theorem loseState_offset (c : Config) (lo : Nat) (s : State) : (loseState c lo s).offset = s.offset := rfl
@[simp] theorem loseState_kidx (c : Config) (lo : Nat) (s : State) : (loseState c lo s).kidx = s.kidx := rfl
@[simp] theorem loseState_nin (c : Config) (lo : Nat) (s : State) : (loseState c lo s).nin = s.nin := rfl
@[simp] theorem loseState_busy (c : Config) (lo : Nat) (s : State) : (loseState c lo s).busy = s.busy := rfl
@[simp] theorem loseState_fault (c : Config) (lo : Nat) (s : State) : (loseState c lo s).fault = s.fault := rfl
@[simp] theorem loseState_underfill (c : Config) (lo : Nat) (s : State) :
    (loseState c lo s).underfill = s.underfill := rfl
@[simp] theorem loseState_cause (c : Config) (lo : Nat) (s : State) : (loseState c lo s).cause = s.cause := rfl
@[simp] theorem loseState_phase (c : Config) (lo : Nat) (s : State) : (loseState c lo s).phase = s.phase := rfl
@[simp] theorem loseState_mem (c : Config) (lo : Nat) (s : State) :
    (loseState c lo s).mem = Memory.scramble c.unwritten (c.lostByte s.draws) s.mem lo (s.len - lo) := rfl
@[simp] theorem loseState_attached (c : Config) (lo : Nat) (s : State) :
    (loseState c lo s).attached = s.attached := rfl
@[simp] theorem loseState_port (c : Config) (lo : Nat) (s : State) : (loseState c lo s).port = s.port := rfl
@[simp] theorem loseState_draws (c : Config) (lo : Nat) (s : State) : (loseState c lo s).draws = s.draws + 1 := rfl

/-! ## A buffer left partly written (`70_reset_and_hazards.md` R180) -/

@[simp] theorem loseBuffer_S (c : Config) (n : Nat) (s : State) : (loseBuffer c n s).S = s.S := rfl
@[simp] theorem loseBuffer_L (c : Config) (n : Nat) (s : State) : (loseBuffer c n s).L = s.L := rfl
@[simp] theorem loseBuffer_len (c : Config) (n : Nat) (s : State) : (loseBuffer c n s).len = s.len := rfl
@[simp] theorem loseBuffer_f0 (c : Config) (n : Nat) (s : State) : (loseBuffer c n s).f0 = s.f0 := rfl
@[simp] theorem loseBuffer_e (c : Config) (n : Nat) (s : State) : (loseBuffer c n s).e = s.e := rfl
@[simp] theorem loseBuffer_cnt (c : Config) (n : Nat) (s : State) : (loseBuffer c n s).cnt = s.cnt := rfl
@[simp] theorem loseBuffer_t (c : Config) (n : Nat) (s : State) : (loseBuffer c n s).t = s.t := rfl
@[simp] theorem loseBuffer_filled (c : Config) (n : Nat) (s : State) : (loseBuffer c n s).filled = s.filled := rfl
@[simp] theorem loseBuffer_offset (c : Config) (n : Nat) (s : State) : (loseBuffer c n s).offset = s.offset := rfl
@[simp] theorem loseBuffer_kidx (c : Config) (n : Nat) (s : State) : (loseBuffer c n s).kidx = s.kidx := rfl
@[simp] theorem loseBuffer_nin (c : Config) (n : Nat) (s : State) : (loseBuffer c n s).nin = s.nin := rfl
@[simp] theorem loseBuffer_busy (c : Config) (n : Nat) (s : State) : (loseBuffer c n s).busy = s.busy := rfl
@[simp] theorem loseBuffer_fault (c : Config) (n : Nat) (s : State) : (loseBuffer c n s).fault = s.fault := rfl
@[simp] theorem loseBuffer_underfill (c : Config) (n : Nat) (s : State) :
    (loseBuffer c n s).underfill = s.underfill := rfl
@[simp] theorem loseBuffer_cause (c : Config) (n : Nat) (s : State) : (loseBuffer c n s).cause = s.cause := rfl
@[simp] theorem loseBuffer_phase (c : Config) (n : Nat) (s : State) : (loseBuffer c n s).phase = s.phase := rfl
@[simp] theorem loseBuffer_mem (c : Config) (n : Nat) (s : State) :
    (loseBuffer c n s).mem = Memory.scramble c.unwritten (c.lostByte s.draws) s.mem 0 n := rfl
@[simp] theorem loseBuffer_attached (c : Config) (n : Nat) (s : State) :
    (loseBuffer c n s).attached = s.attached := rfl
@[simp] theorem loseBuffer_port (c : Config) (n : Nat) (s : State) : (loseBuffer c n s).port = s.port := rfl
@[simp] theorem loseBuffer_draws (c : Config) (n : Nat) (s : State) : (loseBuffer c n s).draws = s.draws + 1 := rfl

/-! ## Attaching a buffer (`70_reset_and_hazards.md` R181) -/

@[simp] theorem attachBuffer_S (c : Config) (size : Option Nat) (cells : List Host.Cell) (s : State) :
    (attachBuffer c size cells s).S = s.S := rfl
@[simp] theorem attachBuffer_L (c : Config) (size : Option Nat) (cells : List Host.Cell) (s : State) :
    (attachBuffer c size cells s).L = s.L := rfl
@[simp] theorem attachBuffer_len (c : Config) (size : Option Nat) (cells : List Host.Cell) (s : State) :
    (attachBuffer c size cells s).len = s.len := rfl
@[simp] theorem attachBuffer_f0 (c : Config) (size : Option Nat) (cells : List Host.Cell) (s : State) :
    (attachBuffer c size cells s).f0 = s.f0 := rfl
@[simp] theorem attachBuffer_e (c : Config) (size : Option Nat) (cells : List Host.Cell) (s : State) :
    (attachBuffer c size cells s).e = s.e := rfl
@[simp] theorem attachBuffer_cnt (c : Config) (size : Option Nat) (cells : List Host.Cell) (s : State) :
    (attachBuffer c size cells s).cnt = s.cnt := rfl
@[simp] theorem attachBuffer_t (c : Config) (size : Option Nat) (cells : List Host.Cell) (s : State) :
    (attachBuffer c size cells s).t = s.t := rfl
@[simp] theorem attachBuffer_filled (c : Config) (size : Option Nat) (cells : List Host.Cell) (s : State) :
    (attachBuffer c size cells s).filled = s.filled := rfl
@[simp] theorem attachBuffer_offset (c : Config) (size : Option Nat) (cells : List Host.Cell) (s : State) :
    (attachBuffer c size cells s).offset = s.offset := rfl
@[simp] theorem attachBuffer_kidx (c : Config) (size : Option Nat) (cells : List Host.Cell) (s : State) :
    (attachBuffer c size cells s).kidx = s.kidx := rfl
@[simp] theorem attachBuffer_nin (c : Config) (size : Option Nat) (cells : List Host.Cell) (s : State) :
    (attachBuffer c size cells s).nin = s.nin := rfl
@[simp] theorem attachBuffer_busy (c : Config) (size : Option Nat) (cells : List Host.Cell) (s : State) :
    (attachBuffer c size cells s).busy = s.busy := rfl
@[simp] theorem attachBuffer_fault (c : Config) (size : Option Nat) (cells : List Host.Cell) (s : State) :
    (attachBuffer c size cells s).fault = s.fault := rfl
@[simp] theorem attachBuffer_underfill (c : Config) (size : Option Nat) (cells : List Host.Cell) (s : State) :
    (attachBuffer c size cells s).underfill = s.underfill := rfl
@[simp] theorem attachBuffer_cause (c : Config) (size : Option Nat) (cells : List Host.Cell) (s : State) :
    (attachBuffer c size cells s).cause = s.cause := rfl
@[simp] theorem attachBuffer_phase (c : Config) (size : Option Nat) (cells : List Host.Cell) (s : State) :
    (attachBuffer c size cells s).phase = s.phase := rfl
@[simp] theorem attachBuffer_mem (c : Config) (size : Option Nat) (cells : List Host.Cell) (s : State) :
    (attachBuffer c size cells s).mem = (cells.filter (fun p => insideExtent size p.1)).foldl
      (fun m p => Memory.write c.unwritten m p.1 p.2) [] :=
  rfl
@[simp] theorem attachBuffer_attached (c : Config) (size : Option Nat) (cells : List Host.Cell) (s : State) :
    (attachBuffer c size cells s).attached = size := rfl
@[simp] theorem attachBuffer_port (c : Config) (size : Option Nat) (cells : List Host.Cell) (s : State) :
    (attachBuffer c size cells s).port = s.port := rfl
@[simp] theorem attachBuffer_draws (c : Config) (size : Option Nat) (cells : List Host.Cell) (s : State) :
    (attachBuffer c size cells s).draws = s.draws := rfl

/-! ## The reset event (`70_reset_and_hazards.md` R180) -/

@[simp] theorem resetEvent_S (c : Config) (s : State) :
    (resetEvent c s).S = (remap ((c.resetSeed s.draws).setWidth c.W)).setWidth 64 := rfl
@[simp] theorem resetEvent_L (c : Config) (s : State) : (resetEvent c s).L = List.replicate c.N 0#64 := rfl
@[simp] theorem resetEvent_len (c : Config) (s : State) : (resetEvent c s).len = 0 := rfl
@[simp] theorem resetEvent_f0 (c : Config) (s : State) : (resetEvent c s).f0 = 0 := rfl
@[simp] theorem resetEvent_e (c : Config) (s : State) : (resetEvent c s).e = .specific := rfl
@[simp] theorem resetEvent_cnt (c : Config) (s : State) : (resetEvent c s).cnt = 0 := rfl
@[simp] theorem resetEvent_t (c : Config) (s : State) : (resetEvent c s).t = 0 := rfl
@[simp] theorem resetEvent_filled (c : Config) (s : State) : (resetEvent c s).filled = 0 := rfl
@[simp] theorem resetEvent_offset (c : Config) (s : State) : (resetEvent c s).offset = 0 := rfl
@[simp] theorem resetEvent_kidx (c : Config) (s : State) : (resetEvent c s).kidx = 0 := rfl
@[simp] theorem resetEvent_nin (c : Config) (s : State) : (resetEvent c s).nin = 0 := rfl
@[simp] theorem resetEvent_busy (c : Config) (s : State) : (resetEvent c s).busy = false := rfl
@[simp] theorem resetEvent_fault (c : Config) (s : State) : (resetEvent c s).fault = false := rfl
@[simp] theorem resetEvent_underfill (c : Config) (s : State) : (resetEvent c s).underfill = false := rfl
@[simp] theorem resetEvent_cause (c : Config) (s : State) : (resetEvent c s).cause = .none := rfl
@[simp] theorem resetEvent_phase (c : Config) (s : State) : (resetEvent c s).phase = .idle := rfl
@[simp] theorem resetEvent_mem (c : Config) (s : State) : (resetEvent c s).mem = s.mem := rfl
@[simp] theorem resetEvent_attached (c : Config) (s : State) : (resetEvent c s).attached = s.attached := rfl
@[simp] theorem resetEvent_port (c : Config) (s : State) : (resetEvent c s).port = none := rfl
@[simp] theorem resetEvent_draws (c : Config) (s : State) : (resetEvent c s).draws = s.draws + 1 := rfl

/-! ## Reading a register after writing it -/

@[simp] theorem readS_writeS (c : Config) (v : BitVec c.W) (s : State) (h : c.W ≤ 64) :
    readS c (writeS c v s) = v := by
  have h1 : (v.setWidth 64).setWidth c.W = v := by
    rw [BitVec.setWidth_setWidth_of_le v (by omega)]
    exact BitVec.setWidth_eq v
  exact h1

/-- Only `S` is read by `readS`. -/
theorem readS_congr (c : Config) {s s' : State} (h : s.S = s'.S) : readS c s = readS c s' := by
  rw [readS, readS, h]

/-- Only the lane file is read by `readLane`. -/
theorem readLane_congr (c : Config) {s s' : State} (h : s.L = s'.L) (i : Nat) : readLane c s i = readLane c s' i := by
  rw [readLane, readLane, h]

/-- Only the extent of the buffer decides what the platform admits. -/
theorem admits_congr {s s' : State} (h : s.attached = s'.attached) (hi : Nat) : admits s hi = admits s' hi := by
  rw [admits, admits, h]

/-- What is admitted up to an address is admitted up to a lower one. -/
theorem admits_mono {s : State} {hi lo : Nat} (hlo : lo ≤ hi) (h : admits s hi = true) : admits s lo = true := by
  unfold admits at h ⊢
  cases hs : s.attached with
  | none => rfl
  | some n =>
    rw [hs] at h
    simp only [decide_eq_true_eq] at h ⊢
    omega

end Sys2Proof.Machine
end

