-- ==== Sys2Proof/Laws/Expansion.lean ====
section
/-!
SUPPORT. What the phases of an expansion can do, one lemma per shared operation: the slots of a sub-step, the sub-steps,
an iteration, the loop, the fallback pass, and the whole expansion.
-/

namespace Sys2Proof.Machine

open Sys2Proof.Safety

variable (c : Config)

/-! ## The slots of a sub-step -/

/-- The integer slot `j` of a sub-step writes (`43_expansion.md` R126, R129). -/
def slotOutput (o : ByteOrder) (f : BitVec c.XW → BitVec c.XW) (src : Nat) (m : Memory) (j : Nat) : BitVec c.XW :=
  f (dec c.XW o (Memory.readBytes c.unwritten m (src + j * c.XB) c.XB))

theorem copySlots_wf (o : ByteOrder) (f : BitVec c.XW → BitVec c.XW) (src dst : Nat) {m : Memory}
    (h : Memory.wf c.unwritten m = true) : ∀ n, Memory.wf c.unwritten (copySlots c o f src dst m n) = true
  | 0 => h
  | n + 1 => Memory.writeBytes_wf _ _ _ (copySlots_wf o f src dst h n)

/-- Every byte after `n` slots of a sub-step whose input lies below its output: slot `j` holds what R126 and R129 say of
the bytes as they were at the start, and every other byte is as before. -/
theorem read_copySlots (o : ByteOrder) (f : BitVec c.XW → BitVec c.XW) (src dst : Nat) {m : Memory}
    (h : Memory.wf c.unwritten m = true) (x : Nat) : ∀ n, src + n * c.XB ≤ dst →
    Memory.read c.unwritten (copySlots c o f src dst m n) x =
      if dst ≤ x ∧ x < dst + n * c.XB then
        (enc o (slotOutput c o f src m ((x - dst) / c.XB)) c.XB).getD ((x - dst) % c.XB) 0#8
      else Memory.read c.unwritten m x
  | 0, _ => by rw [if_neg (by omega), copySlots]
  | n + 1, hsrc => by
    have hB := Config.XB_pos c
    rw [Nat.succ_mul] at hsrc
    have hin : Memory.readBytes c.unwritten (copySlots c o f src dst m n) (src + n * c.XB) c.XB =
        Memory.readBytes c.unwritten m (src + n * c.XB) c.XB := by
      apply Memory.readBytes_congr
      intro y hy1 hy2
      rw [read_copySlots o f src dst h y n (by omega), if_neg (by omega)]
    rw [copySlots, copySlot, hin, Memory.read_writeBytes _ _ _ _ (copySlots_wf c o f src dst h n), enc_length,
      read_copySlots o f src dst h x n (by omega), Nat.succ_mul]
    by_cases h1 : dst ≤ x ∧ x < dst + n * c.XB
    · rw [if_neg (by omega), if_pos h1, if_pos (by omega)]
    · by_cases h2 : dst + n * c.XB ≤ x ∧ x < dst + n * c.XB + c.XB
      · have hq : (x - dst) / c.XB = n := by
          apply Nat.div_eq_of_lt_le
          · omega
          · rw [Nat.succ_mul]
            omega
        have hr : x - (dst + n * c.XB) = (x - dst) % c.XB := by
          have hdm := Nat.div_add_mod (x - dst) c.XB
          rw [hq, Nat.mul_comm] at hdm
          omega
        rw [if_pos h2, if_pos (by omega), hq, hr]
        rfl
      · rw [if_neg h2, if_neg h1, if_neg (by omega)]

/-! ## The fallback pass -/

theorem fallbackBytes_wf (rem lo : Nat) {m : Memory} (h : Memory.wf c.unwritten m = true) :
    ∀ n, Memory.wf c.unwritten (fallbackBytes c rem lo m n) = true
  | 0 => h
  | n + 1 => Memory.write_wf (fallbackBytes_wf rem lo h n) _ _

/-- Every byte after the first `n <= rem` bytes of a fallback pass (`43_expansion.md` R133). -/
theorem read_fallbackBytes (rem lo : Nat) {m : Memory} (h : Memory.wf c.unwritten m = true) (hlo : rem ≤ lo)
    (x : Nat) : ∀ n, n ≤ rem →
    Memory.read c.unwritten (fallbackBytes c rem lo m n) x =
      if lo ≤ x ∧ x < lo + n then fallbackByte (Memory.read c.unwritten m (x - rem))
      else Memory.read c.unwritten m x
  | 0, _ => by rw [if_neg (by omega), fallbackBytes]
  | n + 1, hn => by
    have ih := fun y => read_fallbackBytes rem lo h hlo y n (by omega)
    rw [fallbackBytes, Memory.read_write (fallbackBytes_wf c rem lo h n), ih, ih]
    by_cases hx : x = lo + n
    · subst hx
      rw [if_pos rfl, if_neg (by omega), if_pos (by omega)]
    · rw [if_neg hx]
      by_cases h1 : lo ≤ x ∧ x < lo + n
      · rw [if_pos h1, if_pos (by omega)]
      · rw [if_neg h1, if_neg (by omega)]

/-! ## What every phase of an expansion keeps -/

/-- The state `s'` is `s` some phases of an expansion later: only the buffer and the expansion's working registers have
changed, `FILLED` has not gone back nor beyond `LEN`, and only the bytes between the two values of `FILLED` have been
written (`20_memory.md` R47, `43_expansion.md` R138). -/
structure Extends (s s' : State) : Prop where
  frame : s' = { s with
    mem := s'.mem, filled := s'.filled, offset := s'.offset, kidx := s'.kidx, nin := s'.nin, phase := s'.phase }
  filled_le : s.filled ≤ s'.filled
  filled_le_len : s.filled ≤ s.len → s'.filled ≤ s.len
  wf : Memory.wf c.unwritten s.mem = true → Memory.wf c.unwritten s'.mem = true
  read : Memory.wf c.unwritten s.mem = true →
    ∀ x, x < s.filled ∨ s'.filled ≤ x → bufByte c s' x = bufByte c s x

variable {c}

theorem Extends.refl (s : State) : Extends c s s := ⟨rfl, le_refl _, id, id, fun _ _ _ => rfl⟩

theorem Extends.len {s s' : State} (h : Extends c s s') : s'.len = s.len := by rw [h.frame]

theorem Extends.e {s s' : State} (h : Extends c s s') : s'.e = s.e := by rw [h.frame]

theorem Extends.attached {s s' : State} (h : Extends c s s') : s'.attached = s.attached := by rw [h.frame]

theorem Extends.trans {s s' s'' : State} (h : Extends c s s') (h' : Extends c s' s'') : Extends c s s'' where
  frame := by
    have h1 := h'.frame
    have h2 := h.frame
    generalize s''.mem = m at h1 ⊢
    generalize s''.filled = f at h1 ⊢
    generalize s''.offset = o at h1 ⊢
    generalize s''.kidx = k at h1 ⊢
    generalize s''.nin = n at h1 ⊢
    generalize s''.phase = p at h1 ⊢
    rw [h1, h2]
  filled_le := h.filled_le.trans h'.filled_le
  filled_le_len hl := by
    have h1 := h.filled_le_len hl
    have h2 := h'.filled_le_len (by rw [h.len]; exact h1)
    rwa [h.len] at h2
  wf hw := h'.wf (h.wf hw)
  read hw x hx := by
    have h1 := h.filled_le
    have h2 := h'.filled_le
    rw [h'.read (h.wf hw) x (by omega), h.read hw x (by omega)]

/-- Setting `NIN` first. -/
theorem Extends.setNin (s : State) (k : Nat) : Extends c s { s with nin := k } :=
  ⟨rfl, le_refl _, id, id, fun _ _ _ => rfl⟩

variable (c)

/-! ## The sub-steps -/

/-- The window of a sub-step lies below `FILLED` (`43_expansion.md` R125, R128). -/
abbrev WindowBelow (s : State) : Prop := 0 < s.nin → s.offset + s.nin * c.XB ≤ s.filled

/-- What a sub-step answers (`43_expansion.md` R125 to R129): its slots are done and `FILLED` has advanced, or the
platform refuses one of its output bytes. -/
theorem subStep_cases (f : BitVec c.XW → BitVec c.XW) (ph : Phase) (s : State) :
    (subStep c f ph s = .running { s with
        mem := copySlots c (ord c s.e) f s.offset s.filled s.mem (slotCount c s.len s.filled s.nin)
        filled := s.filled + slotCount c s.len s.filled s.nin * c.XB
        phase := ph }) ∨
    (admits s (s.filled + slotCount c s.len s.filled s.nin * c.XB) = false ∧
      subStep c f ph s = .raised .bufferAccess s) := by
  unfold subStep
  simp only
  split
  · exact .inl rfl
  · rename_i h
    simp only [Bool.or_eq_true, not_or, Bool.not_eq_true] at h
    exact .inr ⟨h.2, rfl⟩

theorem slots_below {s : State} (h : WindowBelow c s) :
    slotCount c s.len s.filled s.nin = 0 ∨ s.offset + slotCount c s.len s.filled s.nin * c.XB ≤ s.filled := by
  rcases Nat.eq_zero_or_pos (slotCount c s.len s.filled s.nin) with h0 | h0
  · exact .inl h0
  · have h1 : slotCount c s.len s.filled s.nin ≤ s.nin := Nat.min_le_left _ _
    have h2 := Nat.mul_le_mul_right c.XB h1
    have h3 := h (by omega)
    exact .inr (by omega)

/-- A sub-step whose window lies below `FILLED` keeps what an expansion keeps, whatever it answers. -/
theorem subStep_extends (f : BitVec c.XW → BitVec c.XW) (ph : Phase) {s : State} (h : WindowBelow c s) :
    Extends c s (subStep c f ph s).state := by
  rcases subStep_cases c f ph s with h1 | ⟨-, h1⟩
  · rw [h1]
    refine ⟨rfl, Nat.le_add_right _ _, slotCount_fits c s.nin, copySlots_wf c _ f _ _ (n := _), ?_⟩
    intro hw x hx
    simp only [Progress.state, bufByte] at hx ⊢
    rcases slots_below c h with h0 | h0
    · rw [h0]
      rfl
    · rw [read_copySlots c _ f _ _ hw x _ h0, if_neg (by omega)]
  · rw [h1]
    exact Extends.refl s

/-- A sub-step runs on when the platform admits the whole buffer. -/
theorem subStep_running (f : BitVec c.XW → BitVec c.XW) (ph : Phase) {s : State} (hf : s.filled ≤ s.len)
    (ha : admits s s.len = true) :
    subStep c f ph s = .running { s with
        mem := copySlots c (ord c s.e) f s.offset s.filled s.mem (slotCount c s.len s.filled s.nin)
        filled := s.filled + slotCount c s.len s.filled s.nin * c.XB
        phase := ph } := by
  rcases subStep_cases c f ph s with h | ⟨h, -⟩
  · exact h
  · rw [admits_mono (slotCount_fits c s.nin hf) ha] at h
    exact absurd h (by decide)

theorem windowBelow_input (s : State) : WindowBelow c { s with nin := inputWindow c s.filled s.offset } :=
  fun h => inputWindow_below c (le_refl _) h

theorem alphaStep_extends (p : Nat) (s : State) : Extends c s (alphaStep c p s).state :=
  (Extends.setNin s _).trans (subStep_extends c (transformA c p) .expAlpha (windowBelow_input c s))

theorem windowBelow_beta {s : State} (h : WindowBelow c s) : WindowBelow c { s with nin := betaWindow c s } := by
  unfold betaWindow
  cases c.params.betaWindow with
  | same => exact h
  | recomputed => exact windowBelow_input c s

theorem betaStep_extends (p : Nat) {s : State} (h : WindowBelow c s) : Extends c s (betaStep c p s).state := by
  unfold betaStep
  split
  · exact (Extends.setNin s _).trans (subStep_extends c (transformB c p) .expBeta (windowBelow_beta c h))
  · exact Extends.refl s

theorem nextIteration_extends (s : State) : Extends c s (nextIteration c s) :=
  ⟨rfl, le_refl _, id, id, fun _ _ _ => rfl⟩

/-- After the Alpha sub-step its window still lies below `FILLED` (`43_expansion.md` R128). -/
theorem alphaStep_window {p : Nat} {s s' : State} (h : alphaStep c p s = .running s') : WindowBelow c s' := by
  have hw := windowBelow_input c s
  rcases subStep_cases c (transformA c p) .expAlpha { s with nin := inputWindow c s.filled s.offset } with h1 | ⟨-, h1⟩
  · rw [alphaStep, h1] at h
    injection h with h
    subst h
    exact fun h0 => (hw h0).trans (Nat.le_add_right _ _)
  · rw [alphaStep, h1] at h
    exact Progress.noConfusion h

/-! ## Putting phases together -/

theorem andThen_extends {s : State} {p : Progress} {f : State → Progress} (hp : Extends c s p.state)
    (hf : ∀ s', p = .running s' → Extends c s' (f s').state) : Extends c s (p.andThen f).state := by
  cases p with
  | running s' => exact hp.trans (hf s' rfl)
  | raised cause s' => exact hp

/-- An iteration keeps what an expansion keeps, whatever it answers. -/
theorem iteration_extends (s : State) : Extends c s (iteration c s).state := by
  refine andThen_extends c (andThen_extends c (alphaStep_extends c _ s) fun s' h => ?_) fun s' _ => ?_
  · exact betaStep_extends c _ (alphaStep_window c h)
  · exact nextIteration_extends c s'

/-- The loop keeps what an expansion keeps, whatever it answers. -/
theorem expandLoop_extends : ∀ (n : Nat) (s : State), Extends c s (expandLoop c n s).state
  | 0, s => Extends.refl s
  | n + 1, s => by
    rw [expandLoop]
    split
    · exact andThen_extends c (iteration_extends c s) fun s' _ => expandLoop_extends n s'
    · exact Extends.refl s

/-! ## Where the loop ends (`40_mixer.md` R88) -/

/-- The Alpha sub-step on a buffer the platform admits (`43_expansion.md` R125 to R127). -/
theorem alphaStep_running (p : Nat) {s : State} (hf : s.filled ≤ s.len) (ha : admits s s.len = true) :
    alphaStep c p s = .running { s with
      nin := inputWindow c s.filled s.offset
      mem := copySlots c (ord c s.e) (transformA c p) s.offset s.filled s.mem
        (slotCount c s.len s.filled (inputWindow c s.filled s.offset))
      filled := s.filled + slotCount c s.len s.filled (inputWindow c s.filled s.offset) * c.XB
      phase := .expAlpha } :=
  subStep_running c (transformA c p) .expAlpha (s := { s with nin := inputWindow c s.filled s.offset }) hf ha

/-- The Beta sub-step on a buffer the platform admits, when space remains (`43_expansion.md` R128, R129). -/
theorem betaStep_running (p : Nat) {s : State} (hf : s.filled < s.len) (ha : admits s s.len = true) :
    betaStep c p s = .running { s with
      nin := betaWindow c s
      mem := copySlots c (ord c s.e) (transformB c p) s.offset s.filled s.mem
        (slotCount c s.len s.filled (betaWindow c s))
      filled := s.filled + slotCount c s.len s.filled (betaWindow c s) * c.XB
      phase := .expBeta } := by
  rw [betaStep, if_pos hf]
  exact subStep_running c (transformB c p) .expBeta (s := { s with nin := betaWindow c s }) (Nat.le_of_lt hf) ha

/-- The Beta sub-step when no space remains (`43_expansion.md` R128). -/
theorem betaStep_full (p : Nat) {s : State} (hf : ¬ s.filled < s.len) : betaStep c p s = .running s := if_neg hf

/-- An iteration on a buffer the platform admits runs on; `FILLED`, `OFFSET` and `KIDX` are functions of the lengths. -/
theorem iteration_running {s : State} (hf : s.filled ≤ s.len) (ha : admits s s.len = true) :
    ∃ s', iteration c s = .running s' ∧ Extends c s s' ∧ s'.filled = grow c s.len s.filled s.offset ∧
      s'.offset = nextOffset c s.offset ∧ s'.kidx = s.kidx + 1 := by
  have hext := iteration_extends c s
  rw [iteration, alphaStep_running c (stepAt c s.kidx) hf ha] at hext ⊢
  generalize hs1 : ({ s with
      nin := inputWindow c s.filled s.offset
      mem := copySlots c (ord c s.e) (transformA c (stepAt c s.kidx)) s.offset s.filled s.mem
        (slotCount c s.len s.filled (inputWindow c s.filled s.offset))
      filled := s.filled + slotCount c s.len s.filled (inputWindow c s.filled s.offset) * c.XB
      phase := .expAlpha } : State) = s1 at hext ⊢
  have hfill : s1.filled = s.filled + slotCount c s.len s.filled (inputWindow c s.filled s.offset) * c.XB := by
    rw [← hs1]
  have hlen : s1.len = s.len := by rw [← hs1]
  have hoff : s1.offset = s.offset := by rw [← hs1]
  have hkidx : s1.kidx = s.kidx := by rw [← hs1]
  have hnin : s1.nin = inputWindow c s.filled s.offset := by rw [← hs1]
  have ha1 : admits s1 s1.len = true := by
    rw [← hs1]
    exact ha
  rw [show (Progress.running s1).andThen (betaStep c (stepAt c s.kidx)) = betaStep c (stepAt c s.kidx) s1 from rfl]
    at hext ⊢
  by_cases hlt : s1.filled < s1.len
  · rw [betaStep_running c (stepAt c s.kidx) hlt ha1] at hext ⊢
    refine ⟨_, rfl, hext, ?_, ?_, ?_⟩
    · simp only [nextIteration_filled, grow]
      rw [← hfill, if_pos (by rw [← hlen]; exact hlt), ← hlen, ← hnin, ← hoff]
      unfold betaWindow
      cases c.params.betaWindow <;> rfl
    · simp only [nextIteration_offset, hoff]
    · simp only [nextIteration_kidx, hkidx]
  · rw [betaStep_full c _ hlt] at hext ⊢
    refine ⟨_, rfl, hext, ?_, ?_, ?_⟩
    · rw [nextIteration_filled, grow]
      simp only
      rw [← hfill, if_neg (by rw [← hlen]; exact hlt)]
    · rw [nextIteration_offset, hoff]
    · rw [nextIteration_kidx, hkidx]

/-- The loop on a buffer the platform admits runs on to the `FILLED` that `growLoop` gives. -/
theorem expandLoop_running : ∀ (n : Nat) {s : State}, s.filled ≤ s.len → admits s s.len = true →
    s.kidx + n ≤ c.params.stepList.length →
    ∃ s', expandLoop c n s = .running s' ∧ Extends c s s' ∧ s'.filled = growLoop c s.len n s.filled s.offset
  | 0, s, _, _, _ => ⟨s, rfl, Extends.refl s, rfl⟩
  | n + 1, s, hf, ha, hk => by
    rw [expandLoop, growLoop]
    by_cases hlt : s.filled < s.len
    · rw [if_pos ⟨hlt, by omega⟩, if_pos hlt]
      obtain ⟨s1, h1, hx, hfill, hoff, hkidx⟩ := iteration_running c hf ha
      have hlen := hx.len
      obtain ⟨s2, h2, hx2, hfill2⟩ := expandLoop_running n (s := s1)
        (by rw [hlen]; exact hx.filled_le_len hf)
        (by rw [hlen, admits_congr hx.attached]; exact ha) (by omega)
      refine ⟨s2, ?_, hx.trans hx2, ?_⟩
      · rw [h1]
        exact h2
      · rw [hfill2, hlen, hfill, hoff]
    · rw [if_neg (fun h => hlt h.1), if_neg hlt]
      exact ⟨s, rfl, Extends.refl s, rfl⟩

/-! ## The whole expansion -/

/-- The loop from the start of an expansion, with the check made before it. -/
theorem expansion_eq (s : State) :
    expansion c s = (expandLoop c c.params.stepList.length (expandStart s)).andThen (fallbackPass c) := by
  unfold expansion
  simp only
  split
  · rfl
  · rename_i h
    cases hK : c.params.stepList.length with
    | zero => rfl
    | succ n => rw [expandLoop, if_neg (fun hh => h hh.1)]

theorem expandStart_filled_le (s : State) : (expandStart s).filled ≤ (expandStart s).len := Nat.min_le_right _ _

/-- Where the loop of an expansion ends on a buffer the platform admits (`43_expansion.md` R131). -/
theorem expandLoop_reach {s : State} (ha : admits s s.len = true) :
    ∃ s', expandLoop c c.params.stepList.length (expandStart s) = .running s' ∧ Extends c (expandStart s) s' ∧
      s'.filled = reach c s.len s.f0 :=
  expandLoop_running c c.params.stepList.length (expandStart_filled_le s) ha (by simp)

/-- What a fallback pass answers (`43_expansion.md` R132 to R134, `60_exceptions.md` R164). -/
theorem fallbackPass_cases (s : State) :
    (s.len - s.filled = 0 ∧ fallbackPass c s = .running s) ∨
    (s.filled < s.len - s.filled ∧ fallbackPass c s = .raised .fallbackUnderrun { s with phase := .expFallback }) ∨
    (0 < s.len - s.filled ∧ s.len - s.filled ≤ s.filled ∧ admits s s.len = true ∧
      fallbackPass c s = .running
        { flagUnderfill c (s.len - s.filled) { s with phase := .expFallback } with
          mem := fallbackBytes c (s.len - s.filled) s.filled s.mem (s.len - s.filled) }) ∨
    (0 < s.len - s.filled ∧ s.len - s.filled ≤ s.filled ∧ admits s s.len = false ∧
      fallbackPass c s = .raised .bufferAccess
        (flagUnderfill c (s.len - s.filled) { s with phase := .expFallback })) := by
  unfold fallbackPass
  simp only
  by_cases h0 : s.len - s.filled = 0
  · exact .inl ⟨h0, if_pos h0⟩
  · rw [if_neg h0]
    by_cases h1 : s.filled < s.len - s.filled
    · exact .inr (.inl ⟨h1, if_pos h1⟩)
    · rw [if_neg h1]
      cases ha : admits s s.len with
      | true => exact .inr (.inr (.inl ⟨by omega, by omega, rfl, rfl⟩))
      | false => exact .inr (.inr (.inr ⟨by omega, by omega, rfl, rfl⟩))

/-- The whole expansion on a buffer the platform admits: where it ends, and with what (`43_expansion.md` R137). -/
theorem expansion_running {s : State} (ha : admits s s.len = true) :
    ∃ s1, Extends c (expandStart s) s1 ∧ s1.filled = reach c s.len s.f0 ∧
      ((remaining c s.len s.f0 = 0 ∧ expansion c s = .running s1) ∨
       (Underruns c s.len s.f0 ∧ expansion c s = .raised .fallbackUnderrun { s1 with phase := .expFallback }) ∨
       (0 < remaining c s.len s.f0 ∧ ¬ Underruns c s.len s.f0 ∧
         expansion c s = .running
          { flagUnderfill c (remaining c s.len s.f0) { s1 with phase := .expFallback } with
            mem := fallbackBytes c (remaining c s.len s.f0) (reach c s.len s.f0) s1.mem
              (remaining c s.len s.f0) })) := by
  obtain ⟨s1, h1, hx, hf⟩ := expandLoop_reach c ha
  have hlen : s1.len = s.len := hx.len
  have hrem : s1.len - s1.filled = remaining c s.len s.f0 := by rw [hlen, hf, remaining]
  refine ⟨s1, hx, hf, ?_⟩
  rw [expansion_eq, h1]
  simp only [Progress.andThen]
  rcases fallbackPass_cases c s1 with ⟨h, he⟩ | ⟨h, he⟩ | ⟨h, h', h'', he⟩ | ⟨h, h', h'', he⟩
  · exact .inl ⟨by omega, he⟩
  · refine .inr (.inl ⟨?_, he⟩)
    rw [Underruns]
    omega
  · refine .inr (.inr ⟨by omega, ?_, ?_⟩)
    · rw [Underruns]
      omega
    · rw [he, hrem, hf]
  · rw [hlen, admits_congr hx.attached] at h''
    have : admits (expandStart s) s.len = admits s s.len := rfl
    rw [this, ha] at h''
    exact absurd h'' (by decide)

/-! ## Where the loop ends, from lengths alone (`43_expansion.md` R131) -/

/-- With fewer than `XB` bytes left no iteration copies anything. -/
theorem growLoop_short {len : Nat} : ∀ (n filled offset : Nat), len - filled < c.XB →
    growLoop c len n filled offset = filled
  | 0, _, _, _ => rfl
  | n + 1, filled, offset, h => by
    have hslots : ∀ nin, slotCount c len filled nin = 0 := fun nin => by
      rw [slotCount, Nat.div_eq_of_lt h, Nat.min_zero]
    have hgrow : grow c len filled offset = filled := by
      simp only [grow, hslots, Nat.zero_mul, Nat.add_zero, ite_self]
    rw [growLoop, hgrow, growLoop_short n filled _ h, ite_self]

/-- An expansion of fewer than `XB` bytes ends where it began. -/
theorem reach_short {len f0 : Nat} (h : len - f0 < c.XB) : reach c len f0 = min f0 len :=
  growLoop_short c _ _ _ (by omega)

/-- `FILLED` never falls. -/
theorem filled_le_growLoop {len : Nat} : ∀ (n filled offset : Nat), filled ≤ growLoop c len n filled offset
  | 0, _, _ => le_refl _
  | n + 1, filled, offset => by
    have hgrow : filled ≤ grow c len filled offset := by
      simp only [grow]
      split
      · rw [Nat.add_assoc]
        exact Nat.le_add_right _ _
      · exact Nat.le_add_right _ _
    rw [growLoop]
    split
    · exact hgrow.trans (filled_le_growLoop n _ _)
    · exact le_refl _

/-- With half of the buffer filled beforehand there is no underrun (`43_expansion.md` R132). -/
theorem not_underruns_of_half {len f0 : Nat} (h : len ≤ 2 * f0) : ¬ Underruns c len f0 := by
  have hle : min f0 len ≤ reach c len f0 := filled_le_growLoop c _ _ _
  rw [Underruns, remaining]
  omega

/-- Nothing filled and something owed: underrun (`43_expansion.md` R132). -/
theorem underruns_of_zero {len : Nat} (h : 0 < len) (hlt : len < c.XB) : Underruns c len 0 := by
  rw [Underruns, remaining, reach_short c (by omega)]
  omega

end Sys2Proof.Machine
end

