-- ==== Sys2Proof/Laws/LaneFill.lean ====
section
/-!
SUPPORT. What the seed_state_machine's iteration and the phases of the lane fill can do, one lemma per shared operation.
-/

namespace Sys2Proof.Machine

open Sys2Proof.Safety

variable (c : Config)

/-! ## Iterating the mixing function -/

theorem mixed_zero {v : Word} (hv : FitsW c v) : mixed c 0 v = v := container_setWidth hv

theorem mixed_fits (k : Nat) (v : Word) : FitsW c (mixed c k v) := container_fits _

theorem mixed_one (v : Word) : mixed c 1 v = (mix c.params.shifts (v.setWidth c.W)).setWidth 64 := rfl

theorem mixed_add (j k : Nat) (v : Word) : mixed c k (mixed c j v) = mixed c (j + k) v := by
  unfold mixed
  rw [setWidth_container (Config.W_le c), ← Function.iterate_add_apply, Nat.add_comm]

theorem mixed_succ (k : Nat) (v : Word) :
    mixed c (k + 1) v = (mix c.params.shifts ((mixed c k v).setWidth c.W)).setWidth 64 := by
  rw [← mixed_add c k 1, mixed_one]

/-- What any number of DISCARD iterations does: `S` and the count, nothing else (`41_seed_state.md` R92). -/
theorem iterate_discardStep (k : Nat) : ∀ (s : State), FitsW c s.S →
    Nat.iterate (discardStep c) k s = { s with S := mixed c k s.S, cnt := s.cnt - k } := by
  induction k with
  | zero =>
    intro s hs
    rw [mixed_zero c hs]
    rfl
  | succ k ih =>
    intro s hs
    have h1 : FitsW c (discardStep c s).S := container_fits _
    have h2 : (discardStep c s).S = mixed c 1 s.S := rfl
    rw [Function.iterate_succ_apply, ih (discardStep c s) h1, h2, mixed_add, Nat.add_comm 1 k]
    simp only [discardStep, writeS]
    congr 1
    omega

/-! ## Reading lanes -/

theorem readLane_laneInit (s : State) (i : Nat) :
    readLane c (laneInit c s) i = (deriveLanes c (readS c s)).getD i 0#c.W := by
  rw [readLane, laneInit_L, List.getD_eq_getElem?_getD, List.getD_eq_getElem?_getD, List.getElem?_map]
  cases (deriveLanes c (readS c s))[i]? with
  | none => simp
  | some v => exact setWidth_container (Config.W_le c) v

theorem laneInit_L_length (s : State) : (laneInit c s).L.length = c.N := by
  rw [laneInit_L, List.length_map, deriveLanes_length]

/-- A slot step advances its own lane and no other (`42_lane_fill.md` R104, R105). -/
theorem readLane_laneSlot {s : State} (hL : s.L.length = c.N) (i : Nat) :
    readLane c (laneSlot c s) i =
      if i = s.t % c.N then mix c.params.shifts (readLane c s i) else readLane c s i := by
  have hl : s.t % c.N < s.L.length := by
    rw [hL]
    exact Nat.mod_lt _ (Config.N_pos c)
  rw [readLane, laneSlot_L, List.getD_eq_getElem?_getD, List.getElem?_set]
  by_cases hi : s.t % c.N = i
  · subst hi
    rw [if_pos rfl, if_pos hl, if_pos rfl]
    exact setWidth_container (Config.W_le c) _
  · rw [if_neg hi, if_neg (Ne.symm hi), readLane, List.getD_eq_getElem?_getD]

/-- The number of slots among the first `n` that lane `i` serves, one more slot at a time. -/
theorem served_succ (n : Nat) {i : Nat} (hi : i < c.N) :
    (n + 1 + c.N - 1 - i) / c.N = (n + c.N - 1 - i) / c.N + if i = n % c.N then 1 else 0 := by
  have hN := Config.N_pos c
  rw [show n + 1 + c.N - 1 - i = (n + c.N - 1 - i) + 1 by omega, Nat.succ_div]
  congr 1
  have h1 : n + c.N - 1 - i + 1 = n + c.N - i := by omega
  rw [h1]
  have hdm := Nat.div_add_mod n c.N
  have hmod := Nat.mod_lt n hN
  by_cases h : i = n % c.N
  · rw [if_pos h, if_pos]
    refine ⟨n / c.N + 1, ?_⟩
    rw [Nat.mul_add, Nat.mul_one]
    omega
  · rw [if_neg h, if_neg]
    rintro ⟨q, hq⟩
    apply h
    have h2 : n + c.N = c.N * q + i := by omega
    have h3 : (n + c.N) % c.N = i := by
      rw [h2, Nat.mul_add_mod, Nat.mod_eq_of_lt hi]
    rw [← h3, Nat.add_mod_right]

/-! ## The slot phase -/

theorem laneSlots_succ (n : Nat) (s : State) : laneSlots c (n + 1) s = laneSlot c (laneSlots c n s) :=
  Function.iterate_succ_apply' (laneSlot c) n s

/-- The slot phase changes only the lanes, the buffer, `T` and `PHASE` (`42_lane_fill.md` R105). -/
theorem laneSlots_frame (n : Nat) (s : State) :
    laneSlots c n s = { s with
      L := (laneSlots c n s).L
      mem := (laneSlots c n s).mem
      t := s.t + n
      phase := (laneSlots c n s).phase } := by
  induction n with
  | zero => rfl
  | succ n ih =>
    rw [laneSlots_succ]
    generalize laneSlots c n s = x at ih ⊢
    rw [ih]
    rfl

theorem laneSlots_e (n : Nat) (s : State) : (laneSlots c n s).e = s.e := by rw [laneSlots_frame]

theorem laneSlots_t (n : Nat) (s : State) : (laneSlots c n s).t = s.t + n := by rw [laneSlots_frame]

theorem laneSlots_S (n : Nat) (s : State) : (laneSlots c n s).S = s.S := by rw [laneSlots_frame]

theorem laneSlots_L_length (n : Nat) (s : State) : (laneSlots c n s).L.length = s.L.length := by
  induction n with
  | zero => rfl
  | succ n ih => rw [laneSlots_succ, laneSlot_L, List.length_set, ih]

theorem laneSlots_fits (n : Nat) {s : State} (h : ∀ v ∈ s.L, FitsW c v) : ∀ v ∈ (laneSlots c n s).L, FitsW c v := by
  induction n with
  | zero => exact h
  | succ n ih =>
    intro v hv
    rw [laneSlots_succ, laneSlot_L] at hv
    rcases List.mem_or_eq_of_mem_set hv with hv | rfl
    · exact ih v hv
    · exact container_fits _

/-- Every lane after `n` slots (`42_lane_fill.md` R104): lane `i` has advanced once for each slot it served. -/
theorem readLane_laneSlots (n : Nat) {s : State} (hL : s.L.length = c.N) (ht : s.t = 0) {i : Nat} (hi : i < c.N) :
    readLane c (laneSlots c n s) i =
      Nat.iterate (mix c.params.shifts) ((n + c.N - 1 - i) / c.N) (readLane c s i) := by
  induction n with
  | zero =>
    rw [Nat.div_eq_of_lt (by omega)]
    rfl
  | succ n ih =>
    rw [laneSlots_succ, readLane_laneSlot c ((laneSlots_L_length c n s).trans hL), laneSlots_t, ht, Nat.zero_add, ih,
      served_succ c n hi]
    by_cases h : i = n % c.N
    · rw [if_pos h, if_pos h, Function.iterate_succ_apply']
    · rw [if_neg h, if_neg h, Nat.add_zero]

/-- The value slot `n` is about to write (`42_lane_fill.md` R104). -/
theorem slot_value (n : Nat) {s : State} (hL : s.L.length = c.N) (ht : s.t = 0) :
    mix c.params.shifts (readLane c (laneSlots c n s) (n % c.N)) =
      Nat.iterate (mix c.params.shifts) (n / c.N + 1) (readLane c s (n % c.N)) := by
  have hN := Config.N_pos c
  have hmod := Nat.mod_lt n hN
  have hdm := Nat.div_add_mod n c.N
  have hq : (n + c.N - 1 - n % c.N) / c.N = n / c.N := by
    rw [show n + c.N - 1 - n % c.N = c.N * (n / c.N) + (c.N - 1) by omega, Nat.mul_add_div hN,
      Nat.div_eq_of_lt (show c.N - 1 < c.N by omega), Nat.add_zero]
  rw [readLane_laneSlots c n hL ht hmod, hq, Function.iterate_succ_apply']

theorem laneSlots_wf (n : Nat) {s : State} (h : Memory.wf c.unwritten s.mem = true) :
    Memory.wf c.unwritten (laneSlots c n s).mem = true := by
  induction n with
  | zero => exact h
  | succ n ih =>
    rw [laneSlots_succ, laneSlot_mem]
    exact Memory.writeBytes_wf _ _ _ ih

/-- Every byte after `n` slots: byte `i` of slot `t < n` is byte `i` of the encoding of the value R104 gives, and a byte
beyond the slots is as before. -/
theorem read_laneSlots (n : Nat) {s : State} (hw : Memory.wf c.unwritten s.mem = true) (hL : s.L.length = c.N)
    (ht : s.t = 0) (x : Nat) :
    bufByte c (laneSlots c n s) x =
      if x < n * c.WB then
        (enc (ord c s.e)
          (Nat.iterate (mix c.params.shifts) (x / c.WB / c.N + 1) (readLane c s (x / c.WB % c.N))) c.WB).getD
          (x % c.WB) 0#8
      else bufByte c s x := by
  have hB := Config.WB_pos c
  induction n with
  | zero =>
    rw [if_neg (by omega)]
    rfl
  | succ n ih =>
    rw [laneSlots_succ, bufByte, laneSlot_mem, Memory.read_writeBytes _ _ _ _ (laneSlots_wf c n hw), enc_length,
      laneSlots_t, laneSlots_e, ht, Nat.zero_add, slot_value c n hL ht, ← bufByte, ih]
    have hdm := Nat.div_add_mod x c.WB
    have hmod := Nat.mod_lt x hB
    rw [Nat.succ_mul]
    by_cases h1 : x < n * c.WB
    · rw [if_neg (by omega), if_pos h1, if_pos (by omega)]
    · by_cases h2 : x < n * c.WB + c.WB
      · rw [if_pos (by omega), if_pos h2]
        have hq : x / c.WB = n := by
          apply Nat.div_eq_of_lt_le
          · omega
          · rw [Nat.succ_mul]
            exact h2
        have hr : x - n * c.WB = x % c.WB := by
          rw [hq, Nat.mul_comm] at hdm
          omega
        rw [hq, hr]
      · rw [if_neg (by omega), if_neg h1, if_neg h2]

/-! ## The whole lane fill -/

/-- What the phases of a lane fill of `len > 0` bytes change: `S`, the lanes, `T`, `PHASE` and the buffer
(`42_lane_fill.md` R109). -/
theorem lanePhases_frame (len : Nat) (s : State) :
    lanePhases c len s = { s with
      S := (lanePhases c len s).S
      L := (laneSlots c (len / c.WB) (laneInit c s)).L
      mem := (lanePhases c len s).mem
      t := len / c.WB
      phase := (lanePhases c len s).phase } := by
  have h := laneSlots_frame c (len / c.WB) (laneInit c s)
  simp only [lanePhases]
  generalize laneSlots c (len / c.WB) (laneInit c s) = x at h ⊢
  split
  · simp only [laneChain, writeS]
    rw [h]
    simp [laneInit, writeLanes]
  · simp only [laneTail, laneChain, writeS]
    rw [h]
    simp [laneInit, writeLanes]

theorem lanePhases_wf (len : Nat) {s : State} (h : Memory.wf c.unwritten s.mem = true) :
    Memory.wf c.unwritten (lanePhases c len s).mem = true := by
  have h1 : Memory.wf c.unwritten (laneSlots c (len / c.WB) (laneInit c s)).mem = true :=
    laneSlots_wf c (len / c.WB) h
  simp only [lanePhases]
  split
  · exact h1
  · rw [laneTail_mem]
    exact Memory.writeBytes_wf _ _ _ h1

theorem lanePhases_L_length (len : Nat) (s : State) : (lanePhases c len s).L.length = c.N := by
  rw [lanePhases_frame, laneSlots_L_length, laneInit_L_length]

theorem lanePhases_lanes_fit (len : Nat) (s : State) : ∀ v ∈ (lanePhases c len s).L, FitsW c v := by
  rw [lanePhases_frame]
  apply laneSlots_fits
  intro v hv
  rw [laneInit_L, List.mem_map] at hv
  obtain ⟨u, -, rfl⟩ := hv
  exact container_fits _

/-- `S` after the slots and the chaining (`42_lane_fill.md` R106). -/
theorem chained_S (n : Nat) (s : State) :
    (laneChain c (laneSlots c n (laneInit c s))).S = mixed c (laneZeroSlots c n + 1) s.S := by
  rw [laneChain_S, readLane_laneSlots c n (laneInit_L_length c s) rfl (Config.N_pos c), readLane_laneInit,
    deriveLanes_zero, mixed, Function.iterate_succ_apply', laneZeroSlots, Nat.sub_zero, readS]

/-- `S` after a lane fill of `len > 0` bytes (`42_lane_fill.md` R110). -/
theorem lanePhases_S (len : Nat) (s : State) :
    (lanePhases c len s).S =
      mixed c (laneZeroSlots c (len / c.WB) + (if len % c.WB = 0 then 1 else 2)) s.S := by
  simp only [lanePhases]
  split
  · exact chained_S c _ s
  · rw [laneTail_S, readS, chained_S, ← mixed_succ]

/-- Every byte after a lane fill of `len > 0` bytes: the slots, the tail, and the rest as before. -/
theorem read_lanePhases (len : Nat) {s : State} (hw : Memory.wf c.unwritten s.mem = true) (x : Nat) :
    bufByte c (lanePhases c len s) x =
      if x < len / c.WB * c.WB then
        (enc (ord c s.e) (Nat.iterate (mix c.params.shifts) (x / c.WB / c.N + 1)
          ((deriveLanes c (readS c s)).getD (x / c.WB % c.N) 0#c.W)) c.WB).getD (x % c.WB) 0#8
      else if x < len then
        (enc (ord c s.e) ((mixed c (laneZeroSlots c (len / c.WB) + 2) s.S).setWidth c.W) c.WB).getD
          (x - len / c.WB * c.WB) 0#8
      else bufByte c s x := by
  have hB := Config.WB_pos c
  have hdm := Nat.div_add_mod len c.WB
  have hmod := Nat.mod_lt len hB
  have hslots := read_laneSlots c (len / c.WB) (s := laneInit c s) hw (laneInit_L_length c s) rfl x
  rw [readLane_laneInit, laneInit_e] at hslots
  rw [Nat.mul_comm] at hdm
  simp only [lanePhases]
  split
  · rename_i hr
    rw [bufByte, laneChain_mem, ← bufByte, hslots]
    by_cases h1 : x < len / c.WB * c.WB
    · rw [if_pos h1, if_pos h1]
    · rw [if_neg h1, if_neg h1, if_neg (by omega)]
      rfl
  · rename_i hr
    have hS : mix c.params.shifts (readS c (laneChain c (laneSlots c (len / c.WB) (laneInit c s)))) =
        (mixed c (laneZeroSlots c (len / c.WB) + 2) s.S).setWidth c.W := by
      rw [readS, chained_S, mixed_succ c (laneZeroSlots c (len / c.WB) + 1), setWidth_container (Config.W_le c)]
    have he : (laneChain c (laneSlots c (len / c.WB) (laneInit c s))).e = s.e := by
      rw [laneChain_e, laneSlots_e, laneInit_e]
    have hm : Memory.wf c.unwritten (laneSlots c (len / c.WB) (laneInit c s)).mem = true := laneSlots_wf c _ hw
    rw [bufByte, laneTail_mem, laneChain_mem, Memory.read_writeBytes _ _ _ _ hm, hS, he, List.length_take,
      enc_length, Nat.min_eq_left (by omega)]
    by_cases h1 : x < len / c.WB * c.WB
    · rw [if_neg (by omega), if_pos h1, ← bufByte, hslots, if_pos h1]
    · by_cases h2 : x < len
      · rw [if_pos (by omega), if_neg h1, if_pos h2, List.getD_eq_getElem?_getD, List.getElem?_take,
          if_pos (by omega), List.getD_eq_getElem?_getD]
      · rw [if_neg (by omega), if_neg h1, if_neg h2, ← bufByte, hslots, if_neg h1]
        rfl

/-- What a lane fill answers: it runs on with its phases done (nothing for a length of 0), or the platform refuses
(`42_lane_fill.md` R109, `60_exceptions.md` R164). -/
theorem laneFill_cases (len : Nat) (s : State) :
    (len = 0 ∧ laneFill c len s = .running s) ∨
    (len ≠ 0 ∧ admits s len = true ∧ laneFill c len s = .running (lanePhases c len s)) ∨
    (len ≠ 0 ∧ admits s len = false ∧ laneFill c len s = .raised .bufferAccess s) := by
  unfold laneFill
  by_cases h : len = 0
  · exact .inl ⟨h, if_pos h⟩
  · rw [if_neg h]
    cases ha : admits s len with
    | true => exact .inr (.inl ⟨h, rfl, rfl⟩)
    | false => exact .inr (.inr ⟨h, rfl, rfl⟩)

end Sys2Proof.Machine
end

