-- ==== Sys2Proof/Laws/PerInstr.lean ====
section
/-!
SUPPORT. The encoding of each command, one lemma per constructor: the fields the row of the opcode map gives it, and
every other bit 0 (`30_encoding.md` R63, R64).
-/

namespace Sys2Proof.Laws.Encoding

/-- Laying the five fields out in one word keeps each of them, and leaves `RSV` 0 (R63). -/
theorem assemble_fields (arg1 arg0 : BitVec 64) (x e : Bool) (op : BitVec 8) :
    (assemble arg1 arg0 x e op).op = op ∧ (assemble arg1 arg0 x e op).e = e ∧ (assemble arg1 arg0 x e op).x = x ∧
    (assemble arg1 arg0 x e op).rsv = 0#54 ∧ (assemble arg1 arg0 x e op).arg0 = arg0 ∧
    (assemble arg1 arg0 x e op).arg1 = arg1 := by
  refine ⟨?_, ?_, ?_, ?_, ?_, ?_⟩
  all_goals first
    | (apply BitVec.eq_of_getLsbD_eq
       intro i hi
       simp only [CommandWord.op, CommandWord.rsv, CommandWord.arg0, CommandWord.arg1, assemble,
         BitVec.getLsbD_extractLsb', BitVec.getLsbD_append]
       grind)
    | (simp only [CommandWord.e, CommandWord.x, assemble, BitVec.getLsbD_append]
       grind)

/-- The fields of a command's word: its row's opcode, `RSV` 0, and the fields the row does not use 0 (R63, R64). -/
def Statement (i : Instr) : Prop :=
  (encode i).op = i.opcode ∧ (encode i).rsv = 0#54 ∧
  match i with
  | .seed value =>
    (encode i).arg0 = value ∧ (encode i).arg1 = 0#64 ∧ (encode i).e = false ∧ (encode i).x = false
  | .discard count =>
    (encode i).arg0 = count ∧ (encode i).arg1 = 0#64 ∧ (encode i).e = false ∧ (encode i).x = false
  | .fillLane len e =>
    (encode i).arg0 = len ∧ (encode i).arg1 = 0#64 ∧ (encode i).e = e.toBit ∧ (encode i).x = false
  | .expand len f0 e x =>
    (encode i).arg0 = len ∧ (encode i).arg1 = f0 ∧ (encode i).e = e.toBit ∧ (encode i).x = x.toBit
  | .fill len e x =>
    (encode i).arg0 = len ∧ (encode i).arg1 = 0#64 ∧ (encode i).e = e.toBit ∧ (encode i).x = x.toBit

theorem seed (value : BitVec 64) : Statement (.seed value) := by
  obtain ⟨hop, he, hx, hr, h0, h1⟩ := assemble_fields 0#64 value false false (Instr.seed value).opcode
  exact ⟨hop, hr, h0, h1, he, hx⟩

theorem discard (count : BitVec 64) : Statement (.discard count) := by
  obtain ⟨hop, he, hx, hr, h0, h1⟩ := assemble_fields 0#64 count false false (Instr.discard count).opcode
  exact ⟨hop, hr, h0, h1, he, hx⟩

theorem fillLane (len : BitVec 64) (e : EndianMode) : Statement (.fillLane len e) := by
  obtain ⟨hop, he, hx, hr, h0, h1⟩ := assemble_fields 0#64 len false e.toBit (Instr.fillLane len e).opcode
  exact ⟨hop, hr, h0, h1, he, hx⟩

theorem expand (len f0 : BitVec 64) (e : EndianMode) (x : ExecMode) : Statement (.expand len f0 e x) := by
  obtain ⟨hop, he, hx, hr, h0, h1⟩ := assemble_fields f0 len x.toBit e.toBit (Instr.expand len f0 e x).opcode
  exact ⟨hop, hr, h0, h1, he, hx⟩

theorem fill (len : BitVec 64) (e : EndianMode) (x : ExecMode) : Statement (.fill len e x) := by
  obtain ⟨hop, he, hx, hr, h0, h1⟩ := assemble_fields 0#64 len x.toBit e.toBit (Instr.fill len e x).opcode
  exact ⟨hop, hr, h0, h1, he, hx⟩

end Sys2Proof.Laws.Encoding
end

