-- ==== Sys2Proof/Laws/Port.lean ====
section
/-!
SUPPORT. What one step can do, said once: the cases of `step` by the next input, and the end of a fill command.
-/

namespace Sys2Proof.Machine

/-- The end of a fill command always answers a next state (`70_reset_and_hazards.md` R193). -/
theorem finish_next (c : Config) (lo : Nat) (p : Progress) : ∃ t, finish c lo p = .next t := by
  cases p with
  | running s => exact ⟨_, rfl⟩
  | raised cause s => exact ⟨_, rfl⟩

/-- Every command answers a next state, from any state. -/
theorem exec_next (i : Instr) (s : State) : ∃ t, exec i s = .next t := by
  cases i with
  | seed value => exact ⟨_, rfl⟩
  | discard count => exact ⟨_, rfl⟩
  | fillLane len e =>
    simp only [exec, execFillLane, fillLaneIn]
    split <;> exact finish_next cfg _ _
  | expand len f0 e x => exact finish_next cfg _ _
  | fill len e x =>
    simp only [exec, execFill, fillIn]
    split <;> exact finish_next cfg _ _

/-- What a presented word does (`30_encoding.md` R62, R65, R66). -/
theorem presentWord_cases {w : CommandWord} {s t : State} (h : presentWord cfg exec w s = .next t) :
    (cmdReady s = true ∧ ∃ i, decode w = .ok i ∧ exec i (takeInput s) = .next t) ∨
    (cmdReady s = true ∧ (∃ err, decode w = .error err) ∧ t = raise .illegalCommand (takeInput s)) ∨
    (cmdReady s = false ∧ s.busy = false ∧ t = s) := by
  unfold presentWord at h
  cases hr : cmdReady s with
  | true =>
    rw [if_pos hr, perform] at h
    cases hd : decodeIn cfg w with
    | ok i => exact .inl ⟨rfl, i, hd, by simpa only [hd] using h⟩
    | error err =>
      simp only [hd, Host.Outcome.next.injEq] at h
      exact .inr (.inl ⟨rfl, ⟨err, hd⟩, h.symm⟩)
  | false =>
    rw [hr, if_neg Bool.false_ne_true] at h
    cases hb : s.busy with
    | true => simp [hb] at h
    | false =>
      simp only [hb, Bool.false_eq_true, if_false, Host.Outcome.next.injEq] at h
      exact .inr (.inr ⟨rfl, rfl, h.symm⟩)

/-- What one step can do, by the input on the ports. -/
theorem step_cases {s t : State} (h : step s = .next t) :
    (s.port = none ∧ s.busy = false ∧ t = s) ∨
    (∃ w, s.port = some (.present w) ∧ presentWord cfg exec w s = .next t) ∨
    (∃ size cells, s.port = some (.attach size cells) ∧ s.busy = false ∧
      t = attachBuffer cfg size cells (takeInput s)) ∨
    (s.port = some .reset ∧ t = resetEvent cfg s) ∨
    (∃ w, s.port = some (.resetDuring w) ∧ t = resetDuringWord cfg w s) := by
  unfold step portStep at h
  cases hp : s.port with
  | none =>
    rw [hp] at h
    cases hb : s.busy with
    | true => simp [hb] at h
    | false =>
      simp only [hb, Bool.false_eq_true, if_false, Host.Outcome.next.injEq] at h
      exact .inl ⟨rfl, rfl, h.symm⟩
  | some ev =>
    rw [hp] at h
    cases ev with
    | present w => exact .inr (.inl ⟨w, rfl, h⟩)
    | attach size cells =>
      simp only [inputStep] at h
      cases hb : s.busy with
      | true => simp [hb] at h
      | false =>
        simp only [hb, Bool.false_eq_true, if_false, Host.Outcome.next.injEq] at h
        exact .inr (.inr (.inl ⟨size, cells, rfl, rfl, h.symm⟩))
    | reset =>
      simp only [inputStep, Host.Outcome.next.injEq] at h
      exact .inr (.inr (.inr (.inl ⟨rfl, h.symm⟩)))
    | resetDuring w =>
      simp only [inputStep, Host.Outcome.next.injEq] at h
      exact .inr (.inr (.inr (.inr ⟨w, rfl, h.symm⟩)))

/-- A word presented in the faulted state changes nothing (`60_exceptions.md` R161). -/
theorem step_present_faulted {s : State} {w : CommandWord} (hp : s.port = some (.present w)) (hf : s.fault = true)
    (hb : s.busy = false) : step s = .next s := by
  have hr : ¬ cmdReady s = true := by simp [cmdReady, hf]
  rw [step, portStep, hp]
  simp only [inputStep, presentWord]
  rw [if_neg hr, if_neg (by simp [hb])]

end Sys2Proof.Machine
end

