-- ==== Sys2Proof/Tests/Slice0.lean ====
section
/-!
SUPPORT. Tests.  Expected results are the spec's: the worked words of `30_encoding.md` R71 and the vectors of
`95_test_vectors.md` (with its masks), each named where it is used.  The machine's own configuration is opaque, so the
vectors run the same definitions on small explicit configurations; `test_exec_is_runOn` ties the two.  The witnesses at
the end meet the hypotheses of the obligations, at the machine's own configuration wherever the obligation is about it.
-/

namespace Sys2Proof.Tests

open Sys2Proof.Machine Sys2Proof.Safety

/-! ## Configurations of the test vectors -/

/-- Free values for the tests: any would do. -/
def freeValues : FreeValues where
  resetSeed := fun _ => 0#64
  unwritten := fun _ => 0#8
  lostS := fun _ => 0#64
  lostLane := fun _ _ => 0#64
  lostByte := fun _ _ => 0#8
  hiddenStateQ := fun _ => 0#64

/-- The defaults of one width, with `ALPHA_T` and `BETA_T` (`00_scope.md` R13). -/
def testParams (w : Nat) : Params := Params.defaults w 0x0123456789ABCDEF#64 0xFEDCBA9876543210#64

/-- The 64-bit variant. -/
def c64 : Config := { params := testParams 64, wf := by decide, toFreeValues := freeValues }

/-- The 32-bit variant. -/
def c32 : Config := { params := testParams 32, wf := by decide, toFreeValues := freeValues }

/-- A 64-bit instance with `STEP_LIST = (3)` and an initial segment of two integers. -/
def c3 : Config :=
  { params := { testParams 64 with stepList := [3], initRangeSize := 16 }, wf := by decide, toFreeValues := freeValues }

/-- A command performed by the instance `c`. -/
def runOn (c : Config) (i : Instr) (s : State) : Host.Outcome State Fault Refusal :=
  match i with
  | .seed value => seedIn c value s
  | .discard count => discardIn c count s
  | .fillLane len e => fillLaneIn c len e s
  | .expand len f0 e x => expandIn c len f0 e x s
  | .fill len e x => fillIn c len e x s

/-- The machine runs exactly these definitions on its own configuration. -/
theorem test_exec_is_runOn (i : Instr) (s : State) : exec i s = runOn cfg i s := by cases i <;> rfl

/-- What a test looks at after a command: `S`, `STATUS`, and `n` bytes of the buffer from `a`. -/
def look (c : Config) (i : Instr) (s : State) (a n : Nat) : Option (Word × BitVec 8 × List Byte) :=
  match runOn c i s with
  | .next t => some (t.S, statusWord t, Memory.readBytes c.unwritten t.mem a n)
  | _ => none

/-- Does a step answer a next state? -/
def goesOn (o : Host.Outcome State Fault Refusal) : Bool :=
  match o with
  | .next _ => true
  | _ => false

/-- After `SEED 42`. -/
def seeded (c : Config) : State := { State.resetIn c with S := 42#64 }

/-- Bytes `0 .. n-1` of the buffer hold `00 01 02 ..` (V3.8). -/
def prefixed (c : Config) (n : Nat) : State :=
  { State.resetIn c with mem := Memory.writeBytes c.unwritten [] 0 ((List.range n).map (BitVec.ofNat 8)) }

/-! ## Well-formed commands -/

/-- The only ill-formed command: SEED with a value wider than `W` (R64). -/
theorem test_wellFormed_refuses_wide_seed : (Instr.seed 0x100000000#64).WellFormed c32 = false := by decide

theorem test_wellFormed_accepts_wide_seed_at_64 : (Instr.seed 0x100000000#64).WellFormed c64 = true := by decide

/-! ## Decoding (R71, `95_test_vectors.md` V2.3, P7) -/

theorem test_decode_seed :
    decode 0x0000000000000000_000000000000002A_0000000000000001#192 = .ok (.seed 42#64) := rfl

theorem test_decode_discard :
    decode 0x0000000000000000_0000000000000003_0000000000000002#192 = .ok (.discard 3#64) := rfl

theorem test_decode_fillLane :
    decode 0x0000000000000000_0000000000000014_0000000000000103#192 = .ok (.fillLane 20#64 .neutral) := rfl

theorem test_decode_expand :
    decode 0x0000000000000010_0000000000000028_0000000000000204#192 =
      .ok (.expand 40#64 16#64 .specific .parallel) := rfl

theorem test_decode_fill :
    decode 0x0000000000000000_0000000000000FA0_0000000000000305#192 = .ok (.fill 4000#64 .neutral .parallel) := rfl

/-- The illegal words of R71, a reserved bit, and a code above the map (R66). -/
theorem test_decode_rejects :
    decode 0#192 = .error .unknownOpcode ∧
    decode 0x0000000000000000_0000000000000014_0000000000000203#192 = .error .mustBeZero ∧
    decode 0x0000000000000001_000000000000002A_0000000000000001#192 = .error .mustBeZero ∧
    decode 0x0000000000000000_0000000000000000_0000000000000401#192 = .error .reservedBits ∧
    decode 0x0000000000000000_0000000000000000_0000000000000006#192 = .error .unknownOpcode := ⟨rfl, rfl, rfl, rfl, rfl⟩

/-- SEED with a nonzero upper half at `W = 32` (V2.3, last row). -/
theorem test_decode_wide_seed_at_32 :
    decodeIn c32 0x0000000000000000_0000000100000000_0000000000000001#192 = .error .mustBeZero := by decide

theorem test_encode_words :
    encode (.seed 42#64) = 0x0000000000000000_000000000000002A_0000000000000001#192 ∧
    encode (.expand 40#64 16#64 .specific .parallel) =
      0x0000000000000010_0000000000000028_0000000000000204#192 := by decide

/-- Each row of the opcode table, operand words 0, decodes and is the first command after reset. -/
theorem test_table_rows_run :
    (decodeTableWord 192 1 = some (.seed 0#64) ∧ goesOn (step (State.reset.withFetchWord 192 1)) = true) ∧
    (decodeTableWord 192 2 = some (.discard 0#64) ∧ goesOn (step (State.reset.withFetchWord 192 2)) = true) ∧
    (decodeTableWord 192 3 = some (.fillLane 0#64 .specific) ∧
      goesOn (step (State.reset.withFetchWord 192 3)) = true) ∧
    (decodeTableWord 192 4 = some (.expand 0#64 0#64 .specific .sequential) ∧
      goesOn (step (State.reset.withFetchWord 192 4)) = true) ∧
    (decodeTableWord 192 5 = some (.fill 0#64 .specific .sequential) ∧
      goesOn (step (State.reset.withFetchWord 192 5)) = true) :=
  ⟨⟨rfl, rfl⟩, ⟨rfl, rfl⟩, ⟨rfl, rfl⟩, ⟨rfl, rfl⟩, ⟨rfl, rfl⟩⟩

theorem test_text : (Instr.expand 40#64 16#64 .specific .parallel).text = "EXPAND 40, 16, specific, parallel" := by
  decide +kernel

/-! ## SEED and DISCARD (V2.3) -/

theorem test_seed_zero_at_32 : look c32 (.seed 0#64) (State.resetIn c32) 0 0 = some (0xFFFFFFFF#64, 0#8, []) := by
  decide +kernel

theorem test_seed_stores : look c64 (.seed 42#64) (State.resetIn c64) 0 0 = some (0x2A#64, 0#8, []) := by
  decide +kernel

theorem test_discard_three :
    look c64 (.discard 3#64) (seeded c64) 0 0 = some (0x8B13399CD1D1497A#64, 0#8, []) := by decide +kernel

theorem test_discard_three_at_32 : look c32 (.discard 3#64) (seeded c32) 0 0 = some (0x1C67AF03#64, 0#8, []) := by
  decide +kernel

/-! ## FILL_LANE (V3.2, V3.3), with a tail -/

theorem test_fillLane_twenty_neutral :
    look c64 (.fillLane 20#64 .neutral) (seeded c64) 8 12 =
      some (0x8B13399CD1D1497A#64, 0#8,
        [0x00#8, 0x00#8, 0x00#8, 0x54#8, 0xAA#8, 0x8E#8, 0x55#8, 0x52#8, 0x8B#8, 0x13#8, 0x39#8, 0x9C#8]) := by
  decide +kernel

theorem test_fillLane_ten_at_32 :
    look c32 (.fillLane 10#64 .specific) (seeded c32) 0 10 =
      some (0x1C67AF03#64, 0#8,
        [0x28#8, 0x45#8, 0xAD#8, 0x00#8, 0xE5#8, 0x29#8, 0x6A#8, 0x05#8, 0x03#8, 0xAF#8]) := by decide +kernel

/-! ## EXPAND (V3.8) -/

theorem test_expand_forty_neutral :
    look c64 (.expand 40#64 16#64 .neutral .parallel) (prefixed c64 16) 16 24 =
      some ((State.resetIn c64).S, 0#8,
        [0x01#8, 0x0A#8, 0x33#8, 0x1C#8, 0x65#8, 0x6E#8, 0x57#8, 0x38#8,
         0xE0#8, 0x04#8, 0x28#8, 0xCC#8, 0x71#8, 0x95#8, 0xB9#8, 0x5C#8,
         0x64#8, 0x08#8, 0x2C#8, 0x51#8, 0xF5#8, 0x98#8, 0xBC#8, 0xC0#8]) := by decide +kernel

/-- The fallback over as many bytes as are filled, with the flag. -/
theorem test_expand_underfill :
    look c64 (.expand 16#64 8#64 .specific .sequential) (prefixed c64 8) 8 8 =
      some ((State.resetIn c64).S, 0x04#8, [0x00#8, 0x40#8, 0x80#8, 0xC0#8, 0x01#8, 0x41#8, 0x81#8, 0xC1#8]) := by
  decide +kernel

/-! ## FILL (V3.9) -/

theorem test_fill_twelve :
    look c64 (.fill 12#64 .specific .sequential) (seeded c64) 0 12 =
      some (0xA00AAAFDF80202BF#64, 0#8,
        [0xAA#8, 0x4A#8, 0x51#8, 0x95#8, 0x0A#8, 0x00#8, 0x00#8, 0x00#8, 0x82#8, 0x00#8, 0x00#8, 0x00#8]) := by
  decide +kernel

/-- A fill of 5 bytes faults with `STATUS = 0x22`. -/
theorem test_fill_five_faults :
    (look c64 (.fill 5#64 .specific .sequential) (seeded c64) 0 0).map (fun r => r.2.1) = some 0x22#8 := by
  decide +kernel

/-! ## Illegal words and reset at the ports (P7) -/

theorem test_illegal_word_status :
    (match step (State.reset.withFetchWord 192 0) with
      | .next t => some (statusWord t, cmdReady t)
      | _ => none) = some (0x12#8, false) := rfl

/-- P6, P7: after an illegal word SEED 1 is never accepted; after reset it is. -/
theorem test_faulted_until_reset :
    (match runInputs [.present 0#192, .present 0x1_0000000000000001#192] State.reset with
      | .next t => some (statusWord t, cmdReady t)
      | _ => none) = some (0x12#8, false) ∧
    (match runInputs [.present 0#192, .reset, .present 0x1_0000000000000001#192] State.reset with
      | .next t => some (statusWord t, cmdReady t)
      | _ => none) = some (0#8, true) := ⟨rfl, rfl⟩

theorem test_reset_leaves_fault :
    (match step { State.reset with fault := true, cause := .illegalCommand, phase := .faulted, port := some .reset } with
      | .next t => some (statusWord t, cmdReady t)
      | _ => none) = some (0#8, true) := rfl

/-! ## Witnesses: states and operands that meet the hypotheses of the obligations -/

/-- An idle block with `S = 1` and an empty buffer that admits every address. -/
def idle : State := { State.reset with S := 1#64 }

/-- The same with one byte written. -/
def touched : State := { idle with mem := Memory.write cfg.unwritten [] 0 5#8 }

theorem idle_fits : FitsW cfg idle.S := Nat.one_lt_two_pow (by have := Config.W_cases cfg; omega)

theorem idle_legal : Legal cfg idle := by
  refine ⟨rfl, rfl, by decide, fun _ => by decide, idle_fits, List.length_replicate, ?_, rfl⟩
  intro v hv
  rw [List.eq_of_mem_replicate hv]
  exact Nat.two_pow_pos _

theorem touched_wf : Memory.wf cfg.unwritten touched.mem = true := Memory.write_wf (m := []) rfl 0 5#8

/-- The initial segment of a FILL of 8 bytes is at least half of it, in every instance. -/
theorem eight_no_underrun : ¬ Underruns cfg 8 (initialSegment cfg 8) := by
  apply not_underruns_of_half
  have hpos := Config.initRangeSize_pos cfg
  have hmod := Config.initRangeSize_mod cfg
  unfold initialSegment
  rcases Config.XB_cases cfg with h | h <;> rw [h] at hmod ⊢ <;> omega

theorem XB_le_eight : cfg.XB ≤ 8 := by
  have := Config.XB_cases cfg
  omega

theorem witness_DecodeEncodeRoundTrip :
    (Instr.seed 42#64).WellFormed cfg = true ∧ (Instr.seed 0xFFFFFFFF#64).WellFormed cfg = true := ⟨rfl, rfl⟩

theorem witness_EncodeDecodeRoundTrip :
    decode 0x0000000000000000_00000000FFFFFFFF_0000000000000001#192 = .ok (.seed 0xFFFFFFFF#64) := rfl

/-- Illegal words, one or more for each clause of R66 (`c64`), and SEED with a wide value at `W = 32`. -/
theorem witness_IllegalEncoding_clauses :
    IllegalEncoding c64 0x06#192 ∧
    IllegalEncoding c64 0xFF#192 ∧
    IllegalEncoding c64 0x401#192 ∧
    IllegalEncoding c64 0x8000000000000001#192 ∧
    IllegalEncoding c64 0x101#192 ∧
    IllegalEncoding c64 0x201#192 ∧
    IllegalEncoding c64 0x1_0000000000000000_0000000000000001#192 ∧
    IllegalEncoding c64 0x102#192 ∧
    IllegalEncoding c64 0x202#192 ∧
    IllegalEncoding c64 0x1_0000000000000000_0000000000000002#192 ∧
    IllegalEncoding c64 0x203#192 ∧
    IllegalEncoding c64 0x1_0000000000000000_0000000000000003#192 ∧
    IllegalEncoding c64 0x1_0000000000000000_0000000000000005#192 ∧
    IllegalEncoding c32 0x0000000100000000_0000000000000001#192 := by
  refine ⟨?_, ?_, ?_, ?_, ?_, ?_, ?_, ?_, ?_, ?_, ?_, ?_, ?_, ?_⟩ <;> decide

theorem witness_IllegalWordRaisesIllegalCommand :
    ({ idle with port := some (.present 0#192) } : State).port = some (.present 0#192) ∧ cmdReady idle = true ∧
    IllegalEncoding cfg 0#192 := ⟨rfl, rfl, .inl rfl⟩

theorem witness_StepRunsDecodedCommand :
    ({ idle with port := some (.present 0x02#192) } : State).port = some (.present 0x02#192) ∧ cmdReady idle = true ∧
    decode 0x02#192 = .ok (.discard 0#64) := ⟨rfl, rfl, rfl⟩

/-- A faulted block with nothing and with each kind of input on the ports, and a sequence of inputs without a reset. -/
theorem witness_FaultedUntilReset :
    (∀ ev ∈ [none, some (HostEvent.present 1#192), some (.attach (some 0) []), some (.attach none [(3, 4#8)]),
        some .reset, some (.resetDuring 1#192)],
      ({ idle with fault := true, port := ev } : State).fault = true ∧
      ({ idle with fault := true, port := ev } : State).busy = false) ∧
    (∀ ev ∈ [HostEvent.present 1#192, .attach none [(3, 4#8)]], ev ≠ .reset ∧ ∀ w, ev ≠ .resetDuring w) :=
  ⟨fun _ _ => ⟨rfl, rfl⟩, fun ev h => by
    rcases List.mem_pair.mp h with rfl | rfl <;> exact ⟨by decide, fun w => nofun⟩⟩

theorem witness_ResetEventReachesResetValues :
    ({ idle with port := some .reset } : State).port = some .reset := rfl

/-- A FILL of 3 bytes cut short, and a word of no fill. -/
theorem witness_ResetDuringCommand :
    Memory.wf cfg.unwritten touched.mem = true ∧
    ({ touched with port := some (.resetDuring 0x3_0000000000000005#192) } : State).port =
      some (.resetDuring 0x3_0000000000000005#192) ∧
    decode 0x3_0000000000000005#192 = .ok (.fill 3#64 .specific .sequential) ∧
    decode 0x3_0000000000000002#192 = .ok (.discard 3#64) := ⟨touched_wf, rfl, rfl, rfl⟩

/-- An address listed twice, the last address of the extent, and one not listed. -/
theorem witness_AttachReplacesBuffer :
    idle.busy = false ∧
    ([(3, 5#8), (3, 6#8)] : List Host.Cell) = [(3, 5#8)] ++ (3, 6#8) :: [] ∧ insideExtent (some 4) 3 = true ∧
    (∀ b, ((2, b) : Host.Cell) ∉ ([(3, 5#8), (3, 6#8)] : List Host.Cell)) :=
  ⟨rfl, rfl, rfl, fun b h => by simp at h⟩

theorem witness_StepKeepsLegal : Legal cfg idle ∧ step idle = .next idle := ⟨idle_legal, rfl⟩

theorem witness_LegalStepAnswersNext :
    Legal cfg { idle with port := some (.present 0#192) } := idle_legal

theorem witness_ReadyAndStateQ : FitsW cfg idle.S ∧ cmdReady idle = true := ⟨idle_fits, rfl⟩

theorem witness_UnderfillIsSticky :
    step { idle with underfill := true } = .next { idle with underfill := true } := rfl

theorem witness_SeedResult :
    (Instr.seed 0#64).WellFormed cfg = true ∧ (Instr.seed 0xFFFFFFFF#64).WellFormed cfg = true ∧
    (Instr.seed 0x100000000#64).WellFormed c64 = true := ⟨rfl, rfl, by decide⟩

theorem witness_DiscardResult : FitsW cfg idle.S := idle_fits

theorem witness_DiscardsCompose :
    FitsW cfg idle.S ∧ (2#64).toNat + (3#64).toNat < 2 ^ 64 ∧
    (0xFFFFFFFFFFFFFFFE#64).toNat + (1#64).toNat < 2 ^ 64 ∧ 0 < (1#64).toNat :=
  ⟨idle_fits, by decide, by decide, by decide⟩

theorem witness_MixWorkedValues : c64.W = 64 := rfl

theorem witness_MixIsBijectionFixingZero :
    1 ≤ (13 : Nat) ∧ 1 ≤ (7 : Nat) ∧ 1 ≤ (17 : Nat) ∧ (1#64 : BitVec 64) ≠ 0#64 := by decide

theorem witness_RotationsFollowNotation :
    0 < 8 ∧ 16 % 8 = 0 ∧ 2 % 8 ≠ 0 ∧ 15 % 8 ≠ 0 := by decide

theorem witness_EncodingOfIntegers : 0 < 8 ∧ 7 < 8 ∧ ([1#8, 2#8] : List Byte).length = 2 := by decide

/-- A lane of each half, and the two sides of R102. -/
theorem witness_LanesZeroOnlyAtMaxW :
    0 < cfg.N / 2 ∧ BitVec.allOnes cfg.W ≠ 0#cfg.W ∧ 1#cfg.W ≠ 0#cfg.W := by
  have hN := Config.N_pos cfg
  have hhalf := Config.N_half cfg
  have hW : 0 < cfg.W := by have := Config.W_cases cfg; omega
  refine ⟨by omega, allOnes_ne_zero hW, fun h => ?_⟩
  have := congrArg BitVec.toNat h
  simp only [BitVec.toNat_ofNat, Nat.zero_mod] at this
  rw [Nat.mod_eq_of_lt (Nat.one_lt_two_pow (by omega))] at this
  omega

/-- A whole slot and a tail: 9 bytes. -/
theorem witness_FillLaneCompletes :
    Memory.wf cfg.unwritten touched.mem = true ∧ 9#64 ≠ 0#64 ∧ admits touched (9#64).toNat = true :=
  ⟨touched_wf, by decide, rfl⟩

/-- A buffer of exactly the length asked for. -/
theorem witness_FillLaneCompletes_exact : admits { touched with attached := some 9 } (9#64).toNat = true := rfl

theorem witness_FillLaneSlots : admits touched (16#64).toNat = true ∧ 1 < (16#64).toNat / cfg.WB := by
  refine ⟨rfl, ?_⟩
  rcases Config.W_cases cfg with h | h <;> simp [Config.WB, h]

/-- The three lengths of R110: zero, whole slots, a tail. -/
theorem witness_FillLaneStateAndTail :
    Memory.wf cfg.unwritten idle.mem = true ∧ admits idle (9#64).toNat = true ∧
    ((8#64).toNat % cfg.WB = 0 ∧ 8#64 ≠ 0#64) ∧ ((9#64).toNat % cfg.WB ≠ 0 ∧ 9#64 ≠ 0#64) := by
  refine ⟨rfl, rfl, ?_⟩
  rcases Config.W_cases cfg with h | h <;> simp [Config.WB, h]

theorem witness_FillLaneIsDeterminedBySeedAndLength :
    Memory.wf cfg.unwritten idle.mem = true ∧ Memory.wf cfg.unwritten touched.mem = true ∧ idle.S = touched.S ∧
    admits idle (9#64).toNat = true ∧ admits touched (9#64).toNat = true := ⟨rfl, touched_wf, rfl, rfl, rfl⟩

theorem witness_FillLaneEndiannessRoundTrip :
    Memory.wf cfg.unwritten idle.mem = true ∧ admits idle (16#64).toNat = true ∧
    1 < (16#64).toNat / cfg.WB := ⟨rfl, witness_FillLaneSlots⟩

/-- The degenerate start. -/
def degenerate : State := { idle with S := (BitVec.allOnes cfg.W).setWidth 64 }

theorem witness_DegenerateStartPattern :
    Memory.wf cfg.unwritten degenerate.mem = true ∧ admits degenerate (64#64).toNat = true ∧
    degenerate.S = (BitVec.allOnes cfg.W).setWidth 64 := ⟨rfl, rfl, rfl⟩

/-- A slot of each half within 64 bytes, where the instance has 8 lanes. -/
theorem witness_DegenerateStartPattern_slots :
    (4 < 64 / c64.WB ∧ c64.N / 2 ≤ 4 % c64.N) ∧ (3 < 64 / c64.WB ∧ 3 % c64.N < c64.N / 2) := by decide

theorem witness_StaleLanesAreNeverRead : 1#64 ≠ 0#64 := by decide

theorem witness_FillLaneOnShortBufferFaults :
    Memory.wf cfg.unwritten touched.mem = true ∧ touched.fault = false ∧
    ({ touched with attached := some 8 } : State).attached = some 8 ∧ 8 < (9#64).toNat :=
  ⟨touched_wf, rfl, rfl, by decide⟩

/-- Nine bytes filled of forty: a window of one integer. -/
theorem witness_AlphaSubStep :
    Memory.wf cfg.unwritten idle.mem = true ∧ ({ idle with filled := 9, len := 40, offset := 1 } : State).filled ≤ 40 ∧
    admits { idle with filled := 9, len := 40, offset := 1 } 40 = true ∧ 0 < (9 - 1) / cfg.XB := by
  refine ⟨rfl, by decide, rfl, ?_⟩
  rcases Config.XB_cases cfg with h | h <;> rw [h] <;> decide

/-- A window of one integer below `FILLED`, with space left; and a full buffer. -/
theorem witness_BetaSubStep :
    1 + 1 * cfg.XB ≤ 16 ∧ (16 : Nat) < 40 ∧ (40 : Nat) ≤ 40 ∧
    admits { idle with filled := 16, len := 40, offset := 1, nin := 1 } 40 = true := by
  refine ⟨?_, by decide, le_refl _, rfl⟩
  have := XB_le_eight
  omega

/-- Two slots in descending order, the output window right above the input window. -/
theorem witness_SlotOrderIsFree :
    Memory.wf cfg.unwritten touched.mem = true ∧ 1 + 2 * cfg.XB ≤ 1 + 2 * cfg.XB ∧ [1, 0].Perm (List.range 2) :=
  ⟨touched_wf, le_refl _, by decide⟩

/-- A prefix of 16 bytes of 24 (one window at least), a prefix longer than the buffer, and a fallback of one byte. -/
theorem witness_ExpandCompletes :
    Memory.wf cfg.unwritten touched.mem = true ∧ admits touched (24#64).toNat = true ∧
    ¬ Underruns cfg (24#64).toNat (16#64).toNat ∧
    ((16#64).toNat ≤ (100#64).toNat ∧ ¬ Underruns cfg (16#64).toNat (100#64).toNat) ∧
    ¬ Underruns cfg (2#64).toNat (1#64).toNat :=
  ⟨touched_wf, rfl, not_underruns_of_half cfg (by decide), ⟨by decide, not_underruns_of_half cfg (by decide)⟩,
    not_underruns_of_half cfg (by decide)⟩

/-- A buffer of 64 bytes with 33 filled: several windows, and a fallback. -/
theorem witness_ExpandEveryWindow :
    Memory.wf cfg.unwritten touched.mem = true ∧ admits touched (64#64).toNat = true ∧
    ¬ Underruns cfg (64#64).toNat (33#64).toNat ∧ 0 < cfg.params.stepList.length :=
  ⟨touched_wf, rfl, not_underruns_of_half cfg (by decide), List.length_pos_iff.mpr (Config.steps_ne_nil cfg)⟩

theorem witness_ExpandFallbackBytes :
    ¬ Underruns cfg (2#64).toNat (1#64).toNat ∧ reach cfg (2#64).toNat (1#64).toNat ≤ 1 ∧ 1 < (2#64).toNat := by
  refine ⟨not_underruns_of_half cfg (by decide), ?_, by decide⟩
  rw [reach_short cfg (by have := Config.XB_cases cfg; simp; omega)]
  decide

theorem witness_ExpandUnderrunFaults :
    Memory.wf cfg.unwritten touched.mem = true ∧ admits touched (1#64).toNat = true ∧ touched.fault = false ∧
    Underruns cfg (1#64).toNat (0#64).toNat :=
  ⟨touched_wf, rfl, rfl, underruns_of_zero cfg (by decide) (by have := Config.XB_cases cfg; simp; omega)⟩

theorem witness_ExpandOnShortBufferFaults :
    idle.fault = false ∧ (23#64).toNat < (24#64).toNat ∧ admits { idle with attached := some 23 } (24#64).toNat = false :=
  ⟨rfl, by decide, rfl⟩

/-- Two buffers that agree on nothing beyond the prefix of 16 bytes. -/
theorem witness_ExpandIsDeterminedByPrefix :
    Memory.wf cfg.unwritten idle.mem = true ∧
    Memory.wf cfg.unwritten (Memory.write cfg.unwritten [] 16 5#8) = true ∧
    min (16#64).toNat (24#64).toNat = min (16#64).toNat (24#64).toNat ∧
    (∀ a, a < 16 → bufByte cfg idle a = bufByte cfg { idle with mem := Memory.write cfg.unwritten [] 16 5#8 } a) ∧
    ¬ Underruns cfg (24#64).toNat (16#64).toNat := by
  refine ⟨rfl, Memory.write_wf (m := []) rfl _ _, rfl, fun a ha => ?_, not_underruns_of_half cfg (by decide)⟩
  exact (Memory.read_write_other (m := []) rfl 5#8 (by omega)).symm

theorem witness_GrowthTable : c64.XB = 8 ∧ c64.params.betaWindow = .same := ⟨rfl, rfl⟩

/-- The two sides of each threshold, on the instance with one step: `G = 32`; and one byte less than an integer. -/
theorem witness_FillThresholds :
    growthLimit c3 = 32 ∧ c3.XB ≤ 8 ∧
    remaining c3 39 (initialSegment c3 39) < c3.XB ∧ c3.XB ≤ remaining c3 40 (initialSegment c3 40) ∧
    ¬ Underruns c3 64 (initialSegment c3 64) ∧ Underruns c3 65 (initialSegment c3 65) ∧
    0 < 7 ∧ 7 < c3.XB ∧ Underruns c3 7 (initialSegment c3 7) := by decide +kernel

theorem witness_FillCompletes :
    Memory.wf cfg.unwritten touched.mem = true ∧ cfg.XB ≤ (8#64).toNat ∧ admits touched (8#64).toNat = true ∧
    ¬ Underruns cfg (8#64).toNat (initialSegment cfg (8#64).toNat) :=
  ⟨touched_wf, XB_le_eight, rfl, eight_no_underrun⟩

theorem witness_FillIsLaneFillThenExpand :
    8#64 ≠ 0#64 ∧ admits touched (8#64).toNat = true ∧
    ¬ Underruns cfg (8#64).toNat (initialSegment cfg (8#64).toNat) := ⟨by decide, rfl, eight_no_underrun⟩

/-- A prefix of no byte, and the whole initial segment. -/
theorem witness_FillPrefixEquivalence :
    ((0#64).toNat ≤ initialSegment cfg 8 ∧ (0#64).toNat % cfg.WB = 0) ∧
    ((BitVec.ofNat 64 (initialSegment cfg 8)).toNat = initialSegment cfg 8 ∧
      initialSegment cfg 8 % cfg.WB = 0) := by
  refine ⟨⟨Nat.zero_le _, Nat.zero_mod _⟩, ?_, initialSegment_mod_WB cfg 8⟩
  have := initialSegment_le cfg 8
  rw [BitVec.toNat_ofNat, Nat.mod_eq_of_lt (by omega)]

theorem witness_FillIsDeterminedBySeedAndLength :
    Memory.wf cfg.unwritten idle.mem = true ∧ Memory.wf cfg.unwritten touched.mem = true ∧ idle.S = touched.S ∧
    admits idle (8#64).toNat = true ∧ admits touched (8#64).toNat = true ∧ cfg.XB ≤ (8#64).toNat ∧
    ¬ Underruns cfg (8#64).toNat (initialSegment cfg (8#64).toNat) :=
  ⟨rfl, touched_wf, rfl, rfl, rfl, XB_le_eight, eight_no_underrun⟩

theorem witness_FillFirstExpandedInteger :
    Memory.wf c3.unwritten idle.mem = true ∧ admits idle (24#64).toNat = true ∧
    ¬ Underruns c3 (24#64).toNat (initialSegment c3 (24#64).toNat) ∧ 2 * c3.XB ≤ c3.params.initRangeSize ∧
    c3.params.initRangeSize + c3.XB ≤ (24#64).toNat :=
  ⟨rfl, rfl, by decide +kernel, by decide +kernel, by decide +kernel⟩

/-- One byte more than an integer. -/
theorem witness_FillOfShortLengths :
    Memory.wf cfg.unwritten touched.mem = true ∧ admits touched (BitVec.ofNat 64 (cfg.XB + 1)).toNat = true ∧
    cfg.XB ≤ (BitVec.ofNat 64 (cfg.XB + 1)).toNat ∧
    (BitVec.ofNat 64 (cfg.XB + 1)).toNat < cfg.params.initRangeSize + cfg.XB := by
  have hpos := Config.initRangeSize_pos cfg
  have hmod := Config.initRangeSize_mod cfg
  refine ⟨touched_wf, rfl, ?_, ?_⟩ <;>
    rcases Config.XB_cases cfg with h | h <;> rw [h] at hmod ⊢ <;> simp <;> omega

theorem witness_FillUnderrunFaults :
    Memory.wf c3.unwritten idle.mem = true ∧ idle.fault = false ∧ 65#64 ≠ 0#64 ∧ admits idle (65#64).toNat = true ∧
    Underruns c3 (65#64).toNat (initialSegment c3 (65#64).toNat) :=
  ⟨rfl, rfl, by decide, rfl, by decide +kernel⟩

theorem witness_FillOnShortBufferFaults :
    idle.fault = false ∧ admits { idle with attached := some 7 } (8#64).toNat = false := ⟨rfl, rfl⟩

/-- Two commands of each kind that complete from states with the same `S`. -/
theorem witness_NextStateIgnoresModesAndBuffer :
    idle.S = touched.S ∧ FitsW cfg idle.S ∧
    (∃ t, exec (.seed 5#64) idle = .next t ∧ t.fault = false) ∧
    (∃ t, exec (.discard 0#64) touched = .next t ∧ t.fault = false) ∧
    (∃ t, exec (.fillLane 0#64 .neutral) touched = .next t ∧ t.fault = false) ∧
    (∃ t, exec (.expand 0#64 7#64 .neutral .parallel) touched = .next t ∧ t.fault = false) ∧
    (∃ t, exec (.fill 0#64 .neutral .parallel) touched = .next t ∧ t.fault = false) :=
  ⟨rfl, idle_fits, ⟨_, rfl, rfl⟩, ⟨_, rfl, rfl⟩, ⟨_, rfl, rfl⟩, ⟨_, rfl, rfl⟩, ⟨_, rfl, rfl⟩⟩

end Sys2Proof.Tests
end

section
/-!
PROOFS. The rotations and the encoding of integers (`00_scope.md` R18), and the worked values of `M` (`40_mixer.md`).
-/

namespace Sys2Proof.Machine

open Sys2Proof.Safety

/-! ## Rotations -/

/-- The amount of a rotation counts modulo the width. -/
theorem rotl_mod {n : Nat} (v : BitVec n) (k : Nat) : rotl v (k % n) = rotl v k :=
  BitVec.rotateLeft_mod_eq_rotateLeft

theorem rotl_of_mod_eq_zero {n : Nat} (v : BitVec n) {k : Nat} (h : k % n = 0) : rotl v k = v := by
  rw [← rotl_mod, h, rotl_zero]

/-- Rotations compose by adding their amounts. -/
theorem rotl_rotl {n : Nat} (v : BitVec n) (j k : Nat) : rotl (rotl v j) k = rotl v (j + k) := by
  apply BitVec.eq_of_getElem_eq
  intro i hi
  have hj : j % n < n := Nat.mod_lt _ (by omega)
  have hk : k % n < n := Nat.mod_lt _ (by omega)
  have hsum := Nat.add_mod_eq_ite (m := j) (n := k) (k := n)
  simp only [rotl, BitVec.getElem_rotateLeft]
  -- in each case the two sides read `v` at the same index
  split_ifs at hsum ⊢ <;> congr 1 <;> omega

/-- `k` and the amount by which `rotr` rotates left make up whole turns (`00_scope.md` R18). -/
theorem add_rotrAmount_mod {n : Nat} (hn : 0 < n) (k : Nat) : (k + (n - k % n) % n) % n = 0 := by
  have hk : k % n < n := Nat.mod_lt _ hn
  rw [Nat.add_mod_mod, ← Nat.mod_add_mod, Nat.add_sub_cancel' hk.le, Nat.mod_self]

theorem rotr_rotl {n : Nat} (hn : 0 < n) (v : BitVec n) (k : Nat) : rotr (rotl v k) k = v := by
  rw [rotr, rotl_rotl, rotl_of_mod_eq_zero v (add_rotrAmount_mod hn k)]

theorem rotl_rotr {n : Nat} (hn : 0 < n) (v : BitVec n) (k : Nat) : rotl (rotr v k) k = v := by
  rw [rotr, rotl_rotl, Nat.add_comm, rotl_of_mod_eq_zero v (add_rotrAmount_mod hn k)]

/-- The number a rotation gives: the bits shifted up below the width, plus the bits that come round. -/
theorem rotl_toNat {n : Nat} (hn : 0 < n) (v : BitVec n) (k : Nat) :
    (rotl v k).toNat = v.toNat * 2 ^ (k % n) % 2 ^ n + v.toNat / 2 ^ (n - k % n) := by
  have hk : k % n < n := Nat.mod_lt _ hn
  have hpow : 2 ^ n = 2 ^ (k % n) * 2 ^ (n - k % n) := by rw [← Nat.pow_add, Nat.add_sub_cancel' hk.le]
  have hround : v.toNat / 2 ^ (n - k % n) < 2 ^ (k % n) :=
    Nat.div_lt_of_lt_mul (by rw [Nat.mul_comm, ← hpow]; exact v.isLt)
  have hup : v.toNat * 2 ^ (k % n) % 2 ^ n = 2 ^ (k % n) * (v.toNat % 2 ^ (n - k % n)) := by
    rw [hpow, Nat.mul_comm v.toNat, Nat.mul_mod_mul_left]
  rw [rotl, BitVec.toNat_rotateLeft, Nat.shiftLeft_eq, Nat.shiftRight_eq_div_pow, hup,
    Nat.two_pow_add_eq_or_of_lt hround]

/-- Settles O25: rotations add their amounts, and a whole turn is the identity. -/
theorem rotationsFollowNotation : Obligations.RotationsFollowNotation :=
  fun _ v k hn => ⟨rotl_of_mod_eq_zero v, fun _ => rotl_toNat hn v k, rotr_rotl hn v k, rotl_rotr hn v k⟩

/-! ## The encoding of integers -/

theorem enc_little_getD {w n i : Nat} (v : BitVec w) (hi : i < n) : (enc .little v n).getD i 0#8 = byteOf v i := by
  simp [enc, List.getD_eq_getElem?_getD, hi]

theorem enc_big_getD {w n i : Nat} (v : BitVec w) (hi : i < n) :
    (enc .big v n).getD i 0#8 = byteOf v (n - 1 - i) := by
  simp [enc, List.getD_eq_getElem?_getD, hi]

/-- Big-endian decoding is little-endian decoding of the bytes reversed. -/
theorem dec_big_eq_reverse (w : Nat) (bs : List Byte) : dec w .big bs = dec w .little bs.reverse := rfl

/-- Bit `j` of the number a byte sequence spells is bit `j % 8` of its byte `j / 8`. -/
theorem littleValue_testBit (bs : List Byte) (j : Nat) :
    (littleValue bs).testBit j = (bs.getD (j / 8) 0#8).getLsbD (j % 8) := by
  induction bs generalizing j with
  | nil => simp [littleValue]
  | cons b bs ih =>
    have hval : littleValue (b :: bs) = 2 ^ 8 * littleValue bs + b.toNat := Nat.add_comm _ _
    rw [hval, Nat.testBit_two_pow_mul_add _ b.isLt]
    by_cases hj : j < 8
    · rw [if_pos hj, Nat.div_eq_of_lt hj, Nat.mod_eq_of_lt hj, List.getD_cons_zero, BitVec.testBit_toNat]
    · have hdiv : j / 8 = (j - 8) / 8 + 1 := by omega
      have hmod : j % 8 = (j - 8) % 8 := by omega
      rw [if_neg hj, ih, hdiv, hmod, List.getD_cons_succ]

theorem dec_little_getLsbD {w j : Nat} (bs : List Byte) (hj : j < w) :
    (dec w .little bs).getLsbD j = (bs.getD (j / 8) 0#8).getLsbD (j % 8) := by
  rw [dec, BitVec.getLsbD_ofNat, littleValue_testBit, decide_eq_true hj, Bool.true_and]

theorem byteOf_getLsbD {w j : Nat} (v : BitVec w) (i : Nat) (hj : j < 8) :
    (byteOf v i).getLsbD j = v.getLsbD (8 * i + j) := by
  rw [byteOf, BitVec.getLsbD_extractLsb', decide_eq_true hj, Bool.true_and]

theorem dec_enc_little {n : Nat} (v : BitVec (8 * n)) : dec (8 * n) .little (enc .little v n) = v := by
  apply BitVec.eq_of_getLsbD_eq
  intro j hj
  rw [dec_little_getLsbD _ hj, enc_little_getD v (by omega), byteOf_getLsbD v _ (by omega), Nat.div_add_mod]

theorem byteOf_dec_little {n i : Nat} (bs : List Byte) (hi : i < n) :
    byteOf (dec (8 * n) .little bs) i = bs.getD i 0#8 := by
  apply BitVec.eq_of_getLsbD_eq
  intro j hj
  have hdiv : (8 * i + j) / 8 = i := by omega
  have hmod : (8 * i + j) % 8 = j := by omega
  rw [byteOf_getLsbD _ i hj, dec_little_getLsbD bs (by omega), hdiv, hmod]

theorem enc_dec_little {n : Nat} {bs : List Byte} (hlen : bs.length = n) :
    enc .little (dec (8 * n) .little bs) n = bs := by
  apply List.ext_getElem
  · rw [enc_length, hlen]
  · intro i h1 h2
    have hi : i < n := hlen ▸ h2
    rw [← List.getD_eq_getElem _ 0#8 h1, ← List.getD_eq_getElem _ 0#8 h2, enc_little_getD _ hi, byteOf_dec_little bs hi]

/-- `dec` undoes `enc` in either byte order (`00_scope.md` R18, `20_memory.md` R43). -/
theorem dec_enc {n : Nat} (o : ByteOrder) (v : BitVec (8 * n)) : dec (8 * n) o (enc o v n) = v := by
  cases o with
  | little => exact dec_enc_little v
  | big => rw [dec_big_eq_reverse, enc_big_eq_reverse, List.reverse_reverse, dec_enc_little]

/-- `enc` undoes `dec` in either byte order (`00_scope.md` R18, `20_memory.md` R43). -/
theorem enc_dec {n : Nat} (o : ByteOrder) {bs : List Byte} (hlen : bs.length = n) :
    enc o (dec (8 * n) o bs) n = bs := by
  cases o with
  | little => exact enc_dec_little hlen
  | big =>
    rw [dec_big_eq_reverse, enc_big_eq_reverse, enc_dec_little (List.length_reverse.trans hlen), List.reverse_reverse]

/-- Settles O26: both round trips go bit by bit, bit `j` of the value being bit `j % 8` of byte `j / 8`. -/
theorem encodingOfIntegers : Obligations.EncodingOfIntegers :=
  fun _ v => ⟨fun _ hi => enc_little_getD v hi, fun _ hi => enc_big_getD v hi, fun o => dec_enc o v,
    fun o _ hlen => enc_dec o hlen⟩

/-! ## The worked values of the mixing function -/

/-- `M(42)` at the 64-bit amounts, seen through the container of a register (`40_mixer.md` R85). -/
theorem mix_container_42 {w : Nat} (hw : w = 64) :
    (mix ⟨13, 7, 17⟩ ((42#64).setWidth w)).setWidth 64 = 0x0000000A95514AAA#64 := by
  subst hw
  decide

/-- On every 64-bit instance `M` of 42 is the worked value (`40_mixer.md` R85). -/
theorem mixed_one_42 (c : Config) (hW : c.W = 64) : mixed c 1 42#64 = 0x0000000A95514AAA#64 := by
  rw [mixed_one, Config.shifts_of_64 c hW, mix_container_42 hW]

/-- Settles O24: closed evaluations, and for the instances their known shift amounts. -/
theorem mixWorkedValues : Obligations.MixWorkedValues := by
  refine ⟨by decide, by decide, by decide, by decide, by decide, by decide, fun c hW => ?_⟩
  exact ⟨Config.shifts_of_64 c hW, mixed_one_42 c hW⟩

end Sys2Proof.Machine
end

section
/-!
PROOFS. The state and its legal values (`10_state.md`): what reset leaves, what every step keeps, the flag only reset
clears, and the lanes an earlier command left.
-/

namespace Sys2Proof.Machine

open Sys2Proof.Safety

/-! ## `M` and the remap never answer zero (`10_state.md` R21) -/

theorem eq_zero_of_xor_shiftLeft {w k : Nat} (hk : 1 ≤ k) {x : BitVec w} (h : x ^^^ x <<< k = 0#w) : x = 0#w := by
  have hx : x = x <<< k := BitVec.xor_eq_zero_iff.mp h
  -- bit `i` is bit `i - k`, and so on down to a bit the shift cleared
  have hbit : ∀ i, x.getLsbD i = false := fun i => by
    induction i using Nat.strong_induction_on with
    | _ i ih =>
      rw [hx, BitVec.getLsbD_shiftLeft]
      by_cases hik : i < k
      · simp [hik]
      · simp [ih (i - k) (by omega)]
  exact BitVec.eq_of_getLsbD_eq fun i _ => by rw [hbit, BitVec.getLsbD_zero]

theorem eq_zero_of_xor_ushiftRight {w k : Nat} (hk : 1 ≤ k) {x : BitVec w} (h : x ^^^ x >>> k = 0#w) : x = 0#w := by
  have hx : x.toNat = x.toNat / 2 ^ k := by
    rw [← Nat.shiftRight_eq_div_pow, ← BitVec.toNat_ushiftRight, ← BitVec.xor_eq_zero_iff.mp h]
  by_contra hne
  have hpos : 0 < x.toNat := Nat.pos_of_ne_zero fun h0 => hne (BitVec.eq_of_toNat_eq h0)
  exact absurd hx (Nat.div_lt_self hpos (Nat.one_lt_two_pow (by omega))).ne'

/-- `M` sends no nonzero value to zero (`40_mixer.md` R83): none of its three steps does. -/
theorem mix_ne_zero {w : Nat} {sh : Shifts} (ha : 1 ≤ sh.a) (hb : 1 ≤ sh.b) (hc : 1 ≤ sh.c) {x : BitVec w}
    (hx : x ≠ 0#w) : mix sh x ≠ 0#w := fun h =>
  hx (eq_zero_of_xor_shiftLeft ha (eq_zero_of_xor_ushiftRight hb (eq_zero_of_xor_shiftLeft hc h)))

theorem iterate_mix_ne_zero (c : Config) (k : Nat) {x : BitVec c.W} (hx : x ≠ 0#c.W) :
    Nat.iterate (mix c.params.shifts) k x ≠ 0#c.W := by
  obtain ⟨ha, hb, hc⟩ := Config.shifts_pos c
  induction k with
  | zero => exact hx
  | succ k ih =>
    rw [Function.iterate_succ_apply']
    exact mix_ne_zero ha hb hc ih

/-- No number of applications of `M` takes a register from a nonzero value to zero. -/
theorem mixed_ne_zero (c : Config) (k : Nat) {v : Word} (hfit : FitsW c v) (hv : v ≠ 0#64) : mixed c k v ≠ 0#64 := by
  have hlow : v.setWidth c.W ≠ 0#c.W := fun h => hv (by rw [← container_setWidth hfit, h, BitVec.setWidth_zero])
  exact fun h => iterate_mix_ne_zero c k hlow ((container_eq_zero (Config.W_le c) _).mp h)

theorem remap_container_ne_zero (c : Config) (v : BitVec c.W) : (remap v).setWidth 64 ≠ 0#64 := fun h =>
  remap_ne_zero (by have := Config.W_cases c; omega) v ((container_eq_zero (Config.W_le c) _).mp h)

/-! ## `STATUS` (`10_state.md` R24) -/

/-- Bit `i` of `STATUS`, field by field from bit 0 up. -/
theorem statusWord_getLsbD (s : State) (i : Nat) :
    (statusWord s).getLsbD i =
      if i < 1 then (BitVec.ofBool s.busy).getLsbD i
      else if i < 2 then (BitVec.ofBool s.fault).getLsbD (i - 1)
      else if i < 3 then (BitVec.ofBool s.underfill).getLsbD (i - 2)
      else if i < 4 then false
      else s.cause.code.getLsbD (i - 4) := by
  rw [statusWord, BitVec.getLsbD_append, BitVec.getLsbD_append, BitVec.getLsbD_append, BitVec.getLsbD_append]
  grind

theorem statusWord_cause (s : State) : (statusWord s).extractLsb' 4 4 = s.cause.code := by
  apply BitVec.eq_of_getLsbD_eq
  intro i hi
  rw [BitVec.getLsbD_extractLsb', statusWord_getLsbD]
  grind

/-- Settles O16: each bit stands where the concatenation puts it. -/
theorem statusWordLayout : Obligations.StatusWordLayout := fun s =>
  ⟨(statusWord_getLsbD s 0).trans (by simp), (statusWord_getLsbD s 1).trans (by simp),
    (statusWord_getLsbD s 2).trans (by simp), (statusWord_getLsbD s 3).trans (by simp),
    (statusWord_cause s).trans (by cases s.cause <;> rfl)⟩

theorem statusWord_eq_zero {s : State} (hb : s.busy = false) (hf : s.fault = false) (hu : s.underfill = false)
    (hc : s.cause = .none) : statusWord s = 0#8 := by
  rw [statusWord, hb, hf, hu, hc]
  rfl

/-! ## What holds while a command is under way -/

/-- The part of `Legal` that speaks of neither `BUSY` nor `PHASE`, in a state without a fault: it holds at every point of
a command performed from a legal state (`10_state.md` R21, R22, R24). -/
abbrev Sound (c : Config) (s : State) : Prop :=
  s.fault = false ∧
  s.cause = Cause.none ∧
  s.S ≠ 0#64 ∧
  FitsW c s.S ∧
  s.L.length = c.N ∧
  (∀ v ∈ s.L, FitsW c v) ∧
  Memory.wf c.unwritten s.mem = true

variable {c : Config}

theorem sound_of_legal {s : State} (h : Legal c s) (hf : s.fault = false) : Sound c s := by
  obtain ⟨-, -, hcause, hS, hfit, hlen, hlanes, hmem⟩ := h
  exact ⟨hf, hcause.mpr hf, hS hf, hfit, hlen, hlanes, hmem⟩

theorem wf_of_legal {s : State} (h : Legal c s) : Memory.wf c.unwritten s.mem = true := by
  obtain ⟨-, -, -, -, -, -, -, hmem⟩ := h
  exact hmem

/-- A sound state is legal once no command is under way. -/
theorem legal_of_sound {s : State} (h : Sound c s) (hb : s.busy = false) (hp : s.phase = .idle) : Legal c s := by
  obtain ⟨hf, hcause, hS, hfit, hlen, hlanes, hmem⟩ := h
  exact ⟨hb, by rw [hf, hp]; rfl, by simp [hcause, hf], fun _ => hS, hfit, hlen, hlanes, hmem⟩

theorem complete_legal {s : State} (h : Sound c s) : Legal c (complete s) := legal_of_sound (s := complete s) h rfl rfl

/-- Fault entry without losses (`60_exceptions.md` R162). -/
theorem raise_legal {s : State} (h : Sound c s) {cause : Cause} (hne : cause ≠ .none) : Legal c (raise cause s) := by
  obtain ⟨hf, -, -, hfit, hlen, hlanes, hmem⟩ := h
  exact ⟨rfl, rfl, by simp [hf, hne], fun hff => Bool.noConfusion hff, hfit, hlen, hlanes, hmem⟩

/-- Fault entry with the losses of `60_exceptions.md` R161: the lost registers still hold `W`-bit values. -/
theorem raise_loseState_legal {s : State} (h : Sound c s) {cause : Cause} (hne : cause ≠ .none) (lo : Nat) :
    Legal c (raise cause (loseState c lo s)) := by
  obtain ⟨hf, -, -, -, -, -, hmem⟩ := h
  refine ⟨rfl, rfl, by simp [hf, hne], fun hff => Bool.noConfusion hff, container_fits _, by simp, ?_,
    Memory.scramble_wf hmem _ _⟩
  intro v hv
  obtain ⟨i, -, rfl⟩ := List.mem_map.mp hv
  exact container_fits _

/-! ## Reset (`10_state.md` R34) -/

theorem replicate_zero_fits (n : Nat) : ∀ v ∈ List.replicate n 0#64, FitsW c v := fun v hv => by
  rw [List.eq_of_mem_replicate hv]
  exact Nat.two_pow_pos _

theorem resetIn_legal (c : Config) : Legal c (State.resetIn c) :=
  legal_of_sound
    ⟨rfl, rfl, remap_container_ne_zero c _, container_fits _, List.length_replicate, replicate_zero_fits _, rfl⟩ rfl rfl

theorem resetEvent_legal {s : State} (hmem : Memory.wf c.unwritten s.mem = true) : Legal c (resetEvent c s) :=
  legal_of_sound
    ⟨rfl, rfl, remap_container_ne_zero c _, container_fits _, List.length_replicate, replicate_zero_fits _, hmem⟩
    rfl rfl

/-- A command cut short by reset ends in the reset event, with a canonical buffer (`70_reset_and_hazards.md` R180). -/
theorem resetDuringWord_legal (w : CommandWord) {s : State} (hmem : Memory.wf c.unwritten s.mem = true) :
    Legal c (resetDuringWord c w s) := by
  unfold resetDuringWord
  split
  · exact resetEvent_legal (Memory.scramble_wf hmem _ _)
  · exact resetEvent_legal hmem

/-- Settles O13: the reset values are sound, and the block is idle. -/
theorem resetStateIsLegal : Obligations.ResetStateIsLegal := resetIn_legal cfg

/-- Settles O10: `S` comes out of the remap, and every field of `STATUS` is clear. -/
theorem resetStateValues : Obligations.ResetStateValues :=
  ⟨rfl, remap_container_ne_zero cfg _, statusWord_eq_zero rfl rfl rfl rfl, rfl, rfl, rfl⟩

theorem step_reset {s : State} (hp : s.port = some .reset) : step s = .next (resetEvent cfg s) := by
  rw [step, portStep, hp]
  rfl

/-- Settles O9: the step is the reset event, whatever the state. -/
theorem resetEventReachesResetValues : Obligations.ResetEventReachesResetValues := fun s hp =>
  ⟨resetEvent cfg s, step_reset hp, rfl, remap_container_ne_zero cfg _, statusWord_eq_zero rfl rfl rfl rfl, rfl, rfl,
    rfl, rfl, rfl⟩

/-! ## Which causes the phases of a fill raise (`60_exceptions.md` R160) -/

theorem andThen_raised {p : Progress} {f : State → Progress} {cause : Cause} {t : State}
    (h : p.andThen f = .raised cause t) : p = .raised cause t ∨ ∃ s, p = .running s ∧ f s = .raised cause t := by
  cases p with
  | running s => exact .inr ⟨s, rfl, h⟩
  | raised cause' s => exact .inl h

section Raised

variable {cause : Cause} {s t : State}

theorem subStep_raised {f : BitVec c.XW → BitVec c.XW} {ph : Phase} (h : subStep c f ph s = .raised cause t) :
    cause = .bufferAccess := by
  rcases subStep_cases c f ph s with h' | ⟨-, h'⟩
  · cases h'.symm.trans h
  · cases h'.symm.trans h
    rfl

theorem iteration_raised (h : iteration c s = .raised cause t) : cause = .bufferAccess := by
  rcases andThen_raised h with h | ⟨s₁, -, h⟩
  · rcases andThen_raised h with h | ⟨s₂, -, h⟩
    · exact subStep_raised h
    · unfold betaStep at h
      split at h
      · exact subStep_raised h
      · cases h
  · cases h

theorem expandLoop_raised {n : Nat} (h : expandLoop c n s = .raised cause t) : cause = .bufferAccess := by
  induction n generalizing s with
  | zero => cases h
  | succ n ih =>
    rw [expandLoop] at h
    split at h
    · rcases andThen_raised h with h | ⟨s₁, -, h⟩
      · exact iteration_raised h
      · exact ih h
    · cases h

/-- An expansion raises FALLBACK_UNDERRUN or BUFFER_ACCESS and no other cause (`60_exceptions.md` R163, R164). -/
theorem expansion_raised (h : expansion c s = .raised cause t) : cause = .fallbackUnderrun ∨ cause = .bufferAccess := by
  rw [expansion_eq] at h
  rcases andThen_raised h with h | ⟨s₁, -, h⟩
  · exact .inr (expandLoop_raised h)
  · rcases fallbackPass_cases c s₁ with ⟨-, h'⟩ | ⟨-, h'⟩ | ⟨-, -, -, h'⟩ | ⟨-, -, -, h'⟩ <;> cases h'.symm.trans h
    · exact .inl rfl
    · exact .inr rfl

theorem laneFill_raised {len : Nat} (h : laneFill c len s = .raised cause t) : cause = .bufferAccess := by
  rcases laneFill_cases c len s with ⟨-, h'⟩ | ⟨-, -, h'⟩ | ⟨-, -, h'⟩ <;> cases h'.symm.trans h
  rfl

end Raised

/-! ## What the phases of a command keep -/

theorem lanePhases_sound (len : Nat) {s : State} (h : Sound c s) : Sound c (lanePhases c len s) := by
  obtain ⟨hf, hcause, hS, hfit, -, -, hmem⟩ := h
  refine ⟨by rw [lanePhases_frame, hf], by rw [lanePhases_frame, hcause], ?_, ?_, lanePhases_L_length c len s,
    lanePhases_lanes_fit c len s, lanePhases_wf c len hmem⟩
  · rw [lanePhases_S]
    exact mixed_ne_zero c _ hfit hS
  · rw [lanePhases_S]
    exact mixed_fits c _ _

theorem laneFill_sound (len : Nat) {s : State} (h : Sound c s) : Sound c (laneFill c len s).state := by
  rcases laneFill_cases c len s with ⟨-, h'⟩ | ⟨-, -, h'⟩ | ⟨-, -, h'⟩ <;> rw [h']
  · exact h
  · exact lanePhases_sound len h
  · exact h

theorem Extends.sound {s s' : State} (hx : Extends c s s') (h : Sound c s) : Sound c s' := by
  obtain ⟨hf, hcause, hS, hfit, hlen, hlanes, hmem⟩ := h
  have hmem' := hx.wf hmem
  rw [hx.frame]
  exact ⟨hf, hcause, hS, hfit, hlen, hlanes, hmem'⟩

/-- What both phases keep, running or raised, the two in a row keep. -/
theorem andThen_keeps (P : State → Prop) {p : Progress} {f : State → Progress} (hp : P p.state)
    (hf : ∀ s, P s → P (f s).state) : P (p.andThen f).state := by
  cases p with
  | running s => exact hf s hp
  | raised cause s => exact hp

theorem fallbackPass_sound {s : State} (h : Sound c s) : Sound c (fallbackPass c s).state := by
  rcases fallbackPass_cases c s with ⟨-, h'⟩ | ⟨-, h'⟩ | ⟨-, -, -, h'⟩ | ⟨-, -, -, h'⟩ <;> rw [h']
  · exact h
  · exact h
  · obtain ⟨hf, hcause, hS, hfit, hlen, hlanes, hmem⟩ := h
    exact ⟨hf, hcause, hS, hfit, hlen, hlanes, fallbackBytes_wf c _ _ hmem _⟩
  · exact h

theorem expansion_sound {s : State} (h : Sound c s) : Sound c (expansion c s).state := by
  rw [expansion_eq]
  exact andThen_keeps (Sound c) ((expandLoop_extends c _ (expandStart s)).sound h) fun _ => fallbackPass_sound

/-! ## Every step keeps the legal states -/

/-- The two ends of a fill command. -/
theorem finish_cases {lo : Nat} {p : Progress} {t : State} (h : finish c lo p = .next t) :
    (p = .running p.state ∧ t = complete p.state) ∨
    ∃ cause, p = .raised cause p.state ∧ t = raise cause (loseState c lo p.state) := by
  cases p with
  | running s => exact .inl ⟨rfl, by cases h; rfl⟩
  | raised cause s => exact .inr ⟨cause, rfl, by cases h; rfl⟩

theorem finish_legal {lo : Nat} {p : Progress} {t : State} (hp : Sound c p.state)
    (hne : ∀ cause s, p = .raised cause s → cause ≠ .none) (h : finish c lo p = .next t) : Legal c t := by
  rcases finish_cases h with ⟨-, rfl⟩ | ⟨cause, hr, rfl⟩
  · exact complete_legal hp
  · exact raise_loseState_legal hp (hne cause _ hr) lo

theorem seedIn_legal {value : BitVec 64} {s t : State} (h : Sound c s) (ht : seedIn c value s = .next t) :
    Legal c t := by
  obtain ⟨hf, hcause, -, -, hlen, hlanes, hmem⟩ := h
  cases ht
  exact complete_legal ⟨hf, hcause, remap_container_ne_zero c _, container_fits _, hlen, hlanes, hmem⟩

/-- DISCARD as one update of the state (`41_seed_state.md` R92). -/
theorem discardIn_eq {s : State} (hfit : FitsW c s.S) (count : BitVec 64) :
    discardIn c count s = .next (complete { accept s with
      S := mixed c count.toNat s.S, cnt := 0, phase := .discarding }) := by
  have h := iterate_discardStep c count.toNat { accept s with cnt := count.toNat, phase := .discarding } hfit
  simp only [Nat.sub_self] at h
  exact congrArg (fun u => Host.Outcome.next (complete u)) h

theorem discardIn_legal {count : BitVec 64} {s t : State} (h : Sound c s) (ht : discardIn c count s = .next t) :
    Legal c t := by
  obtain ⟨hf, hcause, hS, hfit, hlen, hlanes, hmem⟩ := h
  cases (discardIn_eq hfit count).symm.trans ht
  exact complete_legal ⟨hf, hcause, mixed_ne_zero c _ hfit hS, mixed_fits c _ _, hlen, hlanes, hmem⟩

/-- A fill command has been accepted and its operands latched (`10_state.md` R23). -/
def fillBegun (len f0 : Nat) (e : EndianMode) (s : State) : State := { accept s with len := len, f0 := f0, e := e }

/-- FILL_LANE of a nonzero length (`42_lane_fill.md` R109). -/
theorem fillLaneIn_of_ne {len : BitVec 64} (hne : len ≠ 0#64) (e : EndianMode) (s : State) :
    fillLaneIn c len e s = finish c 0 (laneFill c len.toNat (fillBegun len.toNat s.f0 e s)) := if_neg hne

/-- FILL of a nonzero length (`44_composite.md` R150). -/
theorem fillIn_of_ne {len : BitVec 64} (hne : len ≠ 0#64) (e : EndianMode) (x : ExecMode) (s : State) :
    fillIn c len e x s = finish c 0 ((laneFill c (initialSegment c len.toNat)
      (fillBegun len.toNat (initialSegment c len.toNat) e s)).andThen (expansion c)) := if_neg hne

theorem fillBegun_sound (len f0 : Nat) (e : EndianMode) {s : State} (h : Sound c s) : Sound c (fillBegun len f0 e s) := h

theorem fillLaneIn_legal {len : BitVec 64} {e : EndianMode} {s t : State} (h : Sound c s)
    (ht : fillLaneIn c len e s = .next t) : Legal c t := by
  by_cases hne : len = 0#64
  · subst hne
    cases ht
    exact complete_legal (s := accept s) h
  · rw [fillLaneIn_of_ne hne] at ht
    refine finish_legal (laneFill_sound _ (fillBegun_sound _ _ e h)) (fun cause s' hr => ?_) ht
    rw [laneFill_raised hr]
    decide

theorem expandIn_legal {len f0 : BitVec 64} {e : EndianMode} {x : ExecMode} {s t : State} (h : Sound c s)
    (ht : expandIn c len f0 e x s = .next t) : Legal c t := by
  refine finish_legal (expansion_sound (fillBegun_sound len.toNat f0.toNat e h)) (fun cause s' hr => ?_) ht
  rcases expansion_raised hr with rfl | rfl <;> decide

theorem fillIn_legal {len : BitVec 64} {e : EndianMode} {x : ExecMode} {s t : State} (h : Sound c s)
    (ht : fillIn c len e x s = .next t) : Legal c t := by
  by_cases hne : len = 0#64
  · subst hne
    cases ht
    exact complete_legal (s := accept s) h
  · rw [fillIn_of_ne hne] at ht
    have hsound := andThen_keeps (Sound c) (laneFill_sound (initialSegment c len.toNat)
      (fillBegun_sound len.toNat (initialSegment c len.toNat) e h)) fun _ => expansion_sound
    refine finish_legal hsound (fun cause s' hr => ?_) ht
    rcases andThen_raised hr with hr | ⟨s₁, -, hr⟩
    · rw [laneFill_raised hr]
      decide
    · rcases expansion_raised hr with rfl | rfl <;> decide

/-- Every command performed in a sound state ends in a legal one. -/
theorem exec_legal {i : Instr} {s t : State} (h : Sound cfg s) (ht : exec i s = .next t) : Legal cfg t := by
  cases i with
  | seed value => exact seedIn_legal h ht
  | discard count => exact discardIn_legal h ht
  | fillLane len e => exact fillLaneIn_legal h ht
  | expand len f0 e x => exact expandIn_legal (x := x) h ht
  | fill len e x => exact fillIn_legal (x := x) h ht

theorem fault_of_cmdReady {s : State} (h : cmdReady s = true) : s.fault = false := by
  simp only [cmdReady, Bool.and_eq_true, Bool.not_eq_true'] at h
  exact h.2

theorem presentWord_legal {w : CommandWord} {s t : State} (h : Legal cfg s)
    (ht : presentWord cfg exec w s = .next t) : Legal cfg t := by
  have hready : cmdReady s = true → Sound cfg (takeInput s) := fun hr => sound_of_legal h (fault_of_cmdReady hr)
  rcases presentWord_cases ht with ⟨hr, i, -, hi⟩ | ⟨hr, -, rfl⟩ | ⟨-, -, rfl⟩
  · exact exec_legal (hready hr) hi
  · exact raise_legal (hready hr) (by decide)
  · exact h

theorem attachBuffer_legal (size : Option Nat) (cells : List Host.Cell) {s : State} (h : Legal c s) :
    Legal c (attachBuffer c size cells s) := by
  obtain ⟨hb, hp, hcause, hS, hfit, hlen, hlanes, -⟩ := h
  exact ⟨hb, hp, hcause, hS, hfit, hlen, hlanes, Memory.foldl_write_wf _ _ rfl⟩

/-- Settles O14, by the input on the ports; a command keeps `Sound` through its phases, and either end makes it
`Legal`. -/
theorem stepKeepsLegal : Obligations.StepKeepsLegal := by
  intro s t h ht
  have hmem := wf_of_legal h
  rcases step_cases ht with ⟨-, -, rfl⟩ | ⟨w, -, hw⟩ | ⟨size, cells, -, -, rfl⟩ | ⟨-, rfl⟩ | ⟨w, -, rfl⟩
  · exact h
  · exact presentWord_legal h hw
  · exact attachBuffer_legal size cells (s := takeInput s) h
  · exact resetEvent_legal hmem
  · exact resetDuringWord_legal w hmem

/-! ## Only reset clears `UNDERFILL` (`10_state.md` R24) -/

theorem Extends.underfill {s s' : State} (hx : Extends c s s') : s'.underfill = s.underfill := by rw [hx.frame]

theorem laneFill_underfill (len : Nat) (s : State) : (laneFill c len s).state.underfill = s.underfill := by
  rcases laneFill_cases c len s with ⟨-, h'⟩ | ⟨-, -, h'⟩ | ⟨-, -, h'⟩ <;> rw [h']
  · rfl
  · rw [Progress.state, lanePhases_frame]
  · rfl

theorem fallbackPass_underfill {s : State} (h : s.underfill = true) : (fallbackPass c s).state.underfill = true := by
  rcases fallbackPass_cases c s with ⟨-, h'⟩ | ⟨-, h'⟩ | ⟨-, -, -, h'⟩ | ⟨-, -, -, h'⟩ <;>
    simp [h', h, Progress.state]

theorem expansion_underfill {s : State} (h : s.underfill = true) : (expansion c s).state.underfill = true := by
  rw [expansion_eq]
  exact andThen_keeps (·.underfill = true) ((expandLoop_extends c _ (expandStart s)).underfill.trans h)
    fun _ => fallbackPass_underfill

theorem finish_underfill {lo : Nat} {p : Progress} {t : State} (h : finish c lo p = .next t) :
    t.underfill = p.state.underfill := by
  rcases finish_cases h with ⟨-, rfl⟩ | ⟨cause, -, rfl⟩ <;> rfl

theorem iterate_discardStep_underfill (k : Nat) (s : State) :
    (Nat.iterate (discardStep c) k s).underfill = s.underfill := by
  induction k with
  | zero => rfl
  | succ k ih => rw [Function.iterate_succ_apply', discardStep_underfill, ih]

/-- No command clears `UNDERFILL` (`43_expansion.md` R134). -/
theorem exec_underfill {i : Instr} {s t : State} (h : s.underfill = true) (ht : exec i s = .next t) :
    t.underfill = true := by
  cases i with
  | seed value =>
    cases ht
    exact h
  | discard count =>
    cases ht
    exact (iterate_discardStep_underfill _ _).trans h
  | fillLane len e =>
    by_cases hne : len = 0#64
    · subst hne
      cases ht
      exact h
    · exact (finish_underfill ((fillLaneIn_of_ne hne e s).symm.trans ht)).trans ((laneFill_underfill _ _).trans h)
  | expand len f0 e x => exact (finish_underfill ht).trans (expansion_underfill h)
  | fill len e x =>
    by_cases hne : len = 0#64
    · subst hne
      cases ht
      exact h
    · exact (finish_underfill ((fillIn_of_ne hne e x s).symm.trans ht)).trans
        (andThen_keeps (·.underfill = true) ((laneFill_underfill _ _).trans h) fun _ => expansion_underfill)

theorem presentWord_underfill {w : CommandWord} {s t : State} (h : s.underfill = true)
    (ht : presentWord cfg exec w s = .next t) : t.underfill = true := by
  rcases presentWord_cases ht with ⟨-, i, -, hi⟩ | ⟨-, -, rfl⟩ | ⟨-, -, rfl⟩
  · exact exec_underfill (s := takeInput s) h hi
  · exact h
  · exact h

/-- Settles O18, by the input on the ports; the one phase that writes the flag, the fallback pass, only sets it. -/
theorem underfillIsSticky : Obligations.UnderfillIsSticky := by
  intro s t ht h
  rcases step_cases ht with ⟨-, -, rfl⟩ | ⟨w, -, hw⟩ | ⟨size, cells, -, -, rfl⟩ | ⟨hp, -⟩ | ⟨w, hp, -⟩
  · exact .inl h
  · exact .inl (presentWord_underfill h hw)
  · exact .inl h
  · exact .inr (.inl hp)
  · exact .inr (.inr ⟨w, hp⟩)

/-! ## An expansion passes over the lanes (`10_state.md` R22) -/

/-- The state with other lanes. -/
def State.withLanes (lanes : List Word) (s : State) : State := { s with L := lanes }

/-- The command under way with other lanes. -/
def Progress.withLanes (lanes : List Word) : Progress → Progress
  | .running s => .running (s.withLanes lanes)
  | .raised cause s => .raised cause (s.withLanes lanes)

theorem andThen_withLanes (lanes : List Word) (p : Progress) {f : State → Progress}
    (hf : ∀ s, f (s.withLanes lanes) = (f s).withLanes lanes) :
    (p.withLanes lanes).andThen f = (p.andThen f).withLanes lanes := by
  cases p with
  | running s => exact hf s
  | raised cause s => rfl

theorem subStep_withLanes (lanes : List Word) (f : BitVec c.XW → BitVec c.XW) (ph : Phase) (s : State) :
    subStep c f ph (s.withLanes lanes) = (subStep c f ph s).withLanes lanes := by
  simp only [subStep, apply_ite (Progress.withLanes lanes)]
  rfl

theorem alphaStep_withLanes (lanes : List Word) (p : Nat) (s : State) :
    alphaStep c p (s.withLanes lanes) = (alphaStep c p s).withLanes lanes :=
  subStep_withLanes lanes (transformA c p) .expAlpha { s with nin := inputWindow c s.filled s.offset }

theorem betaStep_withLanes (lanes : List Word) (p : Nat) (s : State) :
    betaStep c p (s.withLanes lanes) = (betaStep c p s).withLanes lanes := by
  by_cases h : s.filled < s.len
  · rw [betaStep, betaStep, if_pos h, if_pos (show (s.withLanes lanes).filled < (s.withLanes lanes).len from h)]
    exact subStep_withLanes lanes (transformB c p) .expBeta { s with nin := betaWindow c s }
  · rw [betaStep_full c p h]
    exact betaStep_full c p (s := s.withLanes lanes) h

theorem iteration_withLanes (lanes : List Word) (s : State) :
    iteration c (s.withLanes lanes) = (iteration c s).withLanes lanes := by
  rw [iteration, alphaStep_withLanes, andThen_withLanes lanes _ (betaStep_withLanes lanes _),
    andThen_withLanes lanes _ fun _ => rfl]
  rfl

theorem expandLoop_withLanes (lanes : List Word) (n : Nat) (s : State) :
    expandLoop c n (s.withLanes lanes) = (expandLoop c n s).withLanes lanes := by
  induction n generalizing s with
  | zero => rfl
  | succ n ih =>
    simp only [expandLoop, iteration_withLanes, andThen_withLanes lanes _ ih, apply_ite (Progress.withLanes lanes)]
    rfl

theorem fallbackPass_withLanes (lanes : List Word) (s : State) :
    fallbackPass c (s.withLanes lanes) = (fallbackPass c s).withLanes lanes := by
  simp only [fallbackPass, apply_ite (Progress.withLanes lanes)]
  rfl

/-- An expansion neither reads nor writes a lane. -/
theorem expansion_withLanes (lanes : List Word) (s : State) :
    expansion c (s.withLanes lanes) = (expansion c s).withLanes lanes := by
  rw [expansion_eq, expansion_eq, ← andThen_withLanes lanes _ (fallbackPass_withLanes lanes), ← expandLoop_withLanes]
  rfl

/-! ## An expansion of fewer than `XB` bytes (`43_expansion.md` R132) -/

theorem subStep_short (f : BitVec c.XW → BitVec c.XW) (ph : Phase) {s : State} (h : s.len - s.filled < c.XB) :
    subStep c f ph s = .running { s with phase := ph } := by
  have h0 : slotCount c s.len s.filled s.nin = 0 := by rw [slotCount, Nat.div_eq_of_lt h, Nat.min_zero]
  simp [subStep, h0, copySlots]

theorem betaStep_short (p : Nat) {s : State} (h : s.len - s.filled < c.XB) :
    ∃ s', betaStep c p s = .running s' ∧ s'.filled = s.filled ∧ s'.len = s.len := by
  unfold betaStep
  split
  · exact ⟨_, subStep_short _ _ h, rfl, rfl⟩
  · exact ⟨s, rfl, rfl, rfl⟩

/-- With fewer than `XB` bytes owed an iteration fills none, on any buffer. -/
theorem iteration_short {s : State} (h : s.len - s.filled < c.XB) :
    ∃ s', iteration c s = .running s' ∧ s'.filled = s.filled ∧ s'.len = s.len := by
  obtain ⟨s', hs', hfilled, hlen⟩ := betaStep_short (c := c) (stepAt c s.kidx)
    (s := { s with nin := inputWindow c s.filled s.offset, phase := .expAlpha }) h
  refine ⟨nextIteration c s', ?_, hfilled, hlen⟩
  rw [iteration, alphaStep, subStep_short _ _ (s := { s with nin := inputWindow c s.filled s.offset }) h]
  simp only [Progress.andThen, hs']

theorem expandLoop_short (n : Nat) {s : State} (h : s.len - s.filled < c.XB) :
    ∃ s', expandLoop c n s = .running s' ∧ s'.filled = s.filled ∧ s'.len = s.len := by
  induction n generalizing s with
  | zero => exact ⟨s, rfl, rfl, rfl⟩
  | succ n ih =>
    rw [expandLoop]
    split
    · obtain ⟨s₁, hs₁, hfilled₁, hlen₁⟩ := iteration_short h
      obtain ⟨s₂, hs₂, hfilled₂, hlen₂⟩ := ih (s := s₁) (by rwa [hfilled₁, hlen₁])
      exact ⟨s₂, by rw [hs₁]; exact hs₂, hfilled₂.trans hfilled₁, hlen₂.trans hlen₁⟩
    · exact ⟨s, rfl, rfl, rfl⟩

/-- With nothing filled and fewer than `XB` bytes owed an expansion underruns, on any buffer (`60_exceptions.md` R163). -/
theorem expansion_underrun_of_short {s : State} (hf0 : s.f0 = 0) (hpos : 0 < s.len) (hlt : s.len < c.XB) :
    ∃ s', expansion c s = .raised .fallbackUnderrun s' := by
  have hfilled : (expandStart s).filled = 0 := by rw [expandStart_filled, hf0, Nat.zero_min]
  obtain ⟨s', hs', hfilled', hlen'⟩ := expandLoop_short c.params.stepList.length (c := c) (s := expandStart s)
    (by rw [hfilled]; exact hlt)
  have hlen : s'.len = s.len := hlen'
  rw [expansion_eq, hs']
  rcases fallbackPass_cases c s' with ⟨h, -⟩ | ⟨-, h⟩ | ⟨-, h, -⟩ | ⟨-, h, -⟩
  · omega
  · exact ⟨_, h⟩
  · omega
  · omega

/-- A FILL has no initial segment only when it is shorter than one integer (`44_composite.md` R150). -/
theorem lt_XB_of_initialSegment_eq_zero {len : Nat} (h : initialSegment c len = 0) : len < c.XB := by
  have hinit := Config.initRangeSize_pos c
  have hB := Config.XB_pos c
  by_contra hle
  have hdiv : 0 < len / c.XB * c.XB := Nat.mul_pos (Nat.div_pos (by omega) hB) hB
  unfold initialSegment at h
  omega

/-! ## No fill reads a lane an earlier command left (`10_state.md` R22) -/

/-- LANE_INIT writes every lane before one is read. -/
theorem lanePhases_withLanes (len : Nat) (lanes : List Word) (s : State) :
    lanePhases c len (s.withLanes lanes) = lanePhases c len s := rfl

/-- A fault takes the lanes with it (`60_exceptions.md` R161). -/
theorem finish_raised_withLanes (lo : Nat) (cause : Cause) (lanes : List Word) (s : State) :
    finish c lo (.raised cause (s.withLanes lanes)) = finish c lo (.raised cause s) := rfl

/-- After a lane fill of nonzero length the lanes held before are gone, or lost with the fault. -/
theorem finish_laneFill_withLanes (lo : Nat) {len : Nat} (hne : len ≠ 0) (lanes : List Word) (s : State)
    (f : State → Progress) :
    finish c lo ((laneFill c len (s.withLanes lanes)).andThen f) = finish c lo ((laneFill c len s).andThen f) := by
  have hadm : admits (s.withLanes lanes) len = admits s len := rfl
  rw [laneFill, laneFill, if_neg hne, if_neg hne, hadm]
  cases admits s len with
  | true => exact congrArg (fun u => finish c lo (f u)) (lanePhases_withLanes len lanes s)
  | false => exact finish_raised_withLanes lo .bufferAccess lanes s

theorem andThen_running (p : Progress) : p.andThen .running = p := by cases p <;> rfl

theorem fillBegun_withLanes (len f0 : Nat) (e : EndianMode) (lanes : List Word) (s : State) :
    fillBegun len f0 e (s.withLanes lanes) = (fillBegun len f0 e s).withLanes lanes := rfl

theorem fillLaneIn_withLanes {len : BitVec 64} (hne : len ≠ 0#64) (e : EndianMode) (lanes : List Word) (s : State) :
    fillLaneIn c len e (s.withLanes lanes) = fillLaneIn c len e s := by
  have hlen : len.toNat ≠ 0 := fun h => hne (BitVec.eq_of_toNat_eq h)
  have h := finish_laneFill_withLanes (c := c) 0 hlen lanes (fillBegun len.toNat s.f0 e s) .running
  rw [andThen_running, andThen_running] at h
  rw [fillLaneIn_of_ne hne, fillLaneIn_of_ne hne, ← h]
  rfl

theorem fillIn_withLanes {len : BitVec 64} (hne : len ≠ 0#64) (e : EndianMode) (x : ExecMode) (lanes : List Word)
    (s : State) : fillIn c len e x (s.withLanes lanes) = fillIn c len e x s := by
  have hlen : len.toNat ≠ 0 := fun h => hne (BitVec.eq_of_toNat_eq h)
  rw [fillIn_of_ne hne, fillIn_of_ne hne, fillBegun_withLanes]
  by_cases hseg : initialSegment c len.toNat = 0
  · -- no lane is written, but the expansion underruns
    rw [hseg]
    obtain ⟨s', hs'⟩ := expansion_underrun_of_short (c := c) (s := fillBegun len.toNat 0 e s) rfl
      (Nat.pos_of_ne_zero hlen) (lt_XB_of_initialSegment_eq_zero hseg)
    calc finish c 0 (expansion c ((fillBegun len.toNat 0 e s).withLanes lanes))
        = finish c 0 (.raised .fallbackUnderrun (s'.withLanes lanes)) := by rw [expansion_withLanes, hs']; rfl
      _ = finish c 0 (expansion c (fillBegun len.toNat 0 e s)) := by rw [finish_raised_withLanes, hs']
  · exact finish_laneFill_withLanes 0 hseg lanes _ (expansion c)

/-- Settles O36: a lane fill derives its lanes from `S`, and a FILL too short for one faults, which loses the lanes. -/
theorem staleLanesAreNeverRead : Obligations.StaleLanesAreNeverRead := fun _ e x stale s hne =>
  ⟨fillLaneIn_withLanes hne e stale s, fillIn_withLanes hne e x stale s⟩

end Sys2Proof.Machine
end

section
/-!
PROOFS. The encoding (`30_encoding.md`): the decoder and the encoder agree on every word and every command, the decoder
is the match and mask of R65, and what a ready block does with a word that decodes.
-/

namespace Sys2Proof.Machine

open Sys2Proof.Safety

/-! ## A word and its fields (R63) -/

/-- The six fields cover the word. -/
theorem word_ext {v w : CommandWord} (hop : v.op = w.op) (he : v.e = w.e) (hx : v.x = w.x) (hrsv : v.rsv = w.rsv)
    (h0 : v.arg0 = w.arg0) (h1 : v.arg1 = w.arg1) : v = w := by
  -- bit `i` of the word is bit `i - start` of the field that covers it
  have hfield : ∀ {start len : Nat}, v.extractLsb' start len = w.extractLsb' start len →
      ∀ i, start ≤ i → i < start + len → v.getLsbD i = w.getLsbD i := by
    intro start len h i hlo hhi
    have hbit := congrArg (·.getLsbD (i - start)) h
    have hin : i - start < len := by omega
    simpa [BitVec.getLsbD_extractLsb', hin, Nat.add_sub_cancel' hlo] using hbit
  apply BitVec.eq_of_getLsbD_eq
  intro i hi
  rcases (by omega : i < 8 ∨ i = 8 ∨ i = 9 ∨ (10 ≤ i ∧ i < 64) ∨ (64 ≤ i ∧ i < 128) ∨ 128 ≤ i) with
    h | rfl | rfl | ⟨hlo, hhi⟩ | ⟨hlo, hhi⟩ | hlo
  · exact hfield hop i (Nat.zero_le i) h
  · exact he
  · exact hx
  · exact hfield hrsv i hlo hhi
  · exact hfield h0 i hlo hhi
  · exact hfield h1 i hlo hi

/-- Masking a word masks each field. -/
theorem word_and_fields (w m : CommandWord) :
    (w &&& m).op = w.op &&& m.op ∧ (w &&& m).e = (w.e && m.e) ∧ (w &&& m).x = (w.x && m.x) ∧
    (w &&& m).rsv = w.rsv &&& m.rsv ∧ (w &&& m).arg0 = w.arg0 &&& m.arg0 ∧ (w &&& m).arg1 = w.arg1 &&& m.arg1 :=
  ⟨BitVec.extractLsb'_and, BitVec.getLsbD_and, BitVec.getLsbD_and, BitVec.extractLsb'_and, BitVec.extractLsb'_and,
    BitVec.extractLsb'_and⟩

@[simp] theorem endianMode_toBit_ofBit (b : Bool) : (EndianMode.ofBit b).toBit = b := by cases b <;> rfl

@[simp] theorem endianMode_ofBit_toBit (e : EndianMode) : EndianMode.ofBit e.toBit = e := by cases e <;> rfl

@[simp] theorem execMode_toBit_ofBit (b : Bool) : (ExecMode.ofBit b).toBit = b := by cases b <;> rfl

@[simp] theorem execMode_ofBit_toBit (x : ExecMode) : ExecMode.ofBit x.toBit = x := by cases x <;> rfl

@[simp] theorem exists_endianMode_toBit (b : Bool) : ∃ e : EndianMode, b = e.toBit := ⟨.ofBit b, by simp⟩

@[simp] theorem exists_execMode_toBit (b : Bool) : ∃ x : ExecMode, b = x.toBit := ⟨.ofBit b, by simp⟩

theorem endianMode_neutral_iff (e : EndianMode) : e = .neutral ↔ e.toBit = true := by cases e <;> decide

theorem execMode_parallel_iff (x : ExecMode) : x = .parallel ↔ x.toBit = true := by cases x <;> decide

/-! ## The words of a command (R64) -/

/-- The fields of `w` are the row of R64 for the command `i`: what `Laws.Encoding.Statement` says of `encode i`, said of
any word. -/
def Carries (w : CommandWord) (i : Instr) : Prop :=
  w.op = i.opcode ∧ w.rsv = 0#54 ∧
  match i with
  | .seed value => w.arg0 = value ∧ w.arg1 = 0#64 ∧ w.e = false ∧ w.x = false
  | .discard count => w.arg0 = count ∧ w.arg1 = 0#64 ∧ w.e = false ∧ w.x = false
  | .fillLane len e => w.arg0 = len ∧ w.arg1 = 0#64 ∧ w.e = e.toBit ∧ w.x = false
  | .expand len f0 e x => w.arg0 = len ∧ w.arg1 = f0 ∧ w.e = e.toBit ∧ w.x = x.toBit
  | .fill len e x => w.arg0 = len ∧ w.arg1 = 0#64 ∧ w.e = e.toBit ∧ w.x = x.toBit

theorem carries_encode (i : Instr) : Carries (encode i) i := by
  cases i with
  | seed value => exact Laws.Encoding.seed value
  | discard count => exact Laws.Encoding.discard count
  | fillLane len e => exact Laws.Encoding.fillLane len e
  | expand len f0 e x => exact Laws.Encoding.expand len f0 e x
  | fill len e x => exact Laws.Encoding.fill len e x

/-- A command fixes every field of its word. -/
theorem Carries.unique {v w : CommandWord} {i : Instr} (hv : Carries v i) (hw : Carries w i) : v = w := by
  obtain ⟨vop, vrsv, hv⟩ := hv
  obtain ⟨wop, wrsv, hw⟩ := hw
  cases i <;>
    (obtain ⟨v0, v1, ve, vx⟩ := hv
     obtain ⟨w0, w1, we, wx⟩ := hw
     exact word_ext (vop.trans wop.symm) (ve.trans we.symm) (vx.trans wx.symm) (vrsv.trans wrsv.symm)
       (v0.trans w0.symm) (v1.trans w1.symm))

/-! ## The decoder (R65) -/

theorem whenZero_eq_ok {zero : Bool} {i j : Instr} : whenZero zero i = .ok j ↔ zero = true ∧ i = j := by
  cases zero <;> simp [whenZero]

theorem decodeIn_of_carries {c : Config} {w : CommandWord} {i : Instr} (h : Carries w i)
    (hwf : i.WellFormed c = true) : decodeIn c w = .ok i := by
  obtain ⟨hop, hrsv, h⟩ := h
  rw [decodeIn, if_neg (not_not.mpr hrsv), hop]
  cases i <;>
    (obtain ⟨h0, h1, he, hx⟩ := h
     simp_all [Instr.opcode, Instr.WellFormed, whenZero])

theorem carries_of_decodeIn {c : Config} {w : CommandWord} {i : Instr} (h : decodeIn c w = .ok i) :
    Carries w i ∧ i.WellFormed c = true := by
  unfold decodeIn at h
  split at h
  · cases h
  next hrsv =>
    have hrsv := not_not.mp hrsv
    split at h
    case h_6 => cases h
    -- a row of the opcode map
    all_goals
      next hop =>
      obtain ⟨hzero, rfl⟩ := whenZero_eq_ok.mp h
      refine ⟨⟨BitVec.eq_of_toNat_eq hop, hrsv, ?_⟩, ?_⟩ <;> simp_all [Instr.WellFormed]

/-- The decoder answers a command exactly on the word whose fields are the command's row. -/
theorem decodeIn_eq_ok_iff {c : Config} {w : CommandWord} {i : Instr} :
    decodeIn c w = .ok i ↔ Carries w i ∧ i.WellFormed c = true :=
  ⟨carries_of_decodeIn, fun ⟨h, hwf⟩ => decodeIn_of_carries h hwf⟩

/-- Settles O2: the word of a command has the command's row in its fields, which is all the decoder asks. -/
theorem decodeEncodeRoundTrip : Obligations.DecodeEncodeRoundTrip := fun i hwf =>
  decodeIn_of_carries (carries_encode i) hwf

/-- Settles O3: both words have the command's row in their fields, so they are one word. -/
theorem encodeDecodeRoundTrip : Obligations.EncodeDecodeRoundTrip := fun _ i h =>
  have ⟨hcarries, hwf⟩ := carries_of_decodeIn h
  ⟨(carries_encode i).unique hcarries, hwf⟩

/-! ## The rows as masks (R65) -/

/-- A masked word is a bare opcode: field by field, for a mask that covers `OP` and `RSV`. -/
theorem and_mask_eq_iff {m : CommandWord} {m0 m1 : BitVec 64} {me mx : Bool} (hop : m.op = BitVec.allOnes 8)
    (hrsv : m.rsv = BitVec.allOnes 54) (h0 : m.arg0 = m0) (h1 : m.arg1 = m1) (he : m.e = me) (hx : m.x = mx)
    (w : CommandWord) (op : BitVec 8) :
    w &&& m = assemble 0#64 0#64 false false op ↔
      w.op = op ∧ w.rsv = 0#54 ∧ w.arg0 &&& m0 = 0#64 ∧ w.arg1 &&& m1 = 0#64 ∧
        (w.e && me) = false ∧ (w.x && mx) = false := by
  obtain ⟨aop, ae, ax, arsv, a0, a1⟩ := Laws.Encoding.assemble_fields 0#64 0#64 false false op
  obtain ⟨wop, we, wx, wrsv, w0, w1⟩ := word_and_fields w m
  rw [hop, BitVec.and_allOnes] at wop
  rw [hrsv, BitVec.and_allOnes] at wrsv
  subst he hx h0 h1
  rw [← wop, ← wrsv, ← we, ← wx, ← w0, ← w1]
  constructor
  · intro h
    rw [h]
    exact ⟨aop, arsv, a0, a1, ae, ax⟩
  · rintro ⟨hop, hrsv, h0, h1, he, hx⟩
    exact word_ext (hop.trans aop.symm) (he.trans ae.symm) (hx.trans ax.symm) (hrsv.trans arsv.symm)
      (h0.trans a0.symm) (h1.trans a1.symm)

/-- The upper half of a 64-bit field is 0 exactly when its value fits 32 bits. -/
theorem and_upperHalf_eq_zero_iff (v : BitVec 64) : v &&& 0xFFFFFFFF00000000#64 = 0#64 ↔ v.toNat < 2 ^ 32 := by
  have hmask : 0xFFFFFFFF00000000#64 = BitVec.allOnes 64 <<< 32 := rfl
  rw [hmask, ← BitVec.shiftLeft_ushiftRight, BitVec.toNat_eq]
  simp only [BitVec.toNat_shiftLeft, BitVec.toNat_ushiftRight, BitVec.toNat_ofNat, Nat.shiftLeft_eq,
    Nat.shiftRight_eq_div_pow]
  omega

/-- SEED's operand check as a mask on its field: the upper half at `W = 32`, nothing at `W = 64` (R61, R64). -/
theorem valueFits_iff_and_mask (c : Config) (v : BitVec 64) :
    valueFits c v = true ↔ v &&& (if c.W = 32 then 0xFFFFFFFF00000000#64 else 0#64) = 0#64 := by
  rcases Config.W_cases c with hW | hW
  · rw [if_pos hW, and_upperHalf_eq_zero_iff, valueFits, hW]
    simp
  · simp [valueFits, hW]

section Rows

variable (c : Config) (w : CommandWord)

theorem decodeIn_seed_iff :
    (∃ v, decodeIn c w = .ok (.seed v)) ↔
      w &&& (if c.W = 32 then 0xFFFFFFFFFFFFFFFFFFFFFFFF00000000FFFFFFFFFFFFFFFF#192
        else 0xFFFFFFFFFFFFFFFF0000000000000000FFFFFFFFFFFFFFFF#192) = 0x01#192 := by
  refine Iff.trans ?_ (and_mask_eq_iff (m0 := if c.W = 32 then 0xFFFFFFFF00000000#64 else 0#64)
    (m1 := BitVec.allOnes 64) (me := true) (mx := true) ?_ ?_ ?_ ?_ ?_ ?_ w 0x01#8).symm
  · rw [← valueFits_iff_and_mask]
    simp [decodeIn_eq_ok_iff, Carries, Instr.opcode, Instr.WellFormed, and_assoc, and_comm, and_left_comm,
      -BitVec.reduceAllOnes]
  all_goals split <;> rfl

theorem decodeIn_discard_iff :
    (∃ k, decodeIn c w = .ok (.discard k)) ↔
      w &&& 0xFFFFFFFFFFFFFFFF0000000000000000FFFFFFFFFFFFFFFF#192 = 0x02#192 := by
  refine Iff.trans ?_ (and_mask_eq_iff (m0 := 0#64) (m1 := BitVec.allOnes 64) (me := true) (mx := true)
    rfl rfl rfl rfl rfl rfl w 0x02#8).symm
  simp [decodeIn_eq_ok_iff, Carries, Instr.opcode, Instr.WellFormed, -BitVec.reduceAllOnes]

theorem decodeIn_fillLane_iff :
    (∃ n e, decodeIn c w = .ok (.fillLane n e)) ↔
      w &&& 0xFFFFFFFFFFFFFFFF0000000000000000FFFFFFFFFFFFFEFF#192 = 0x03#192 := by
  refine Iff.trans ?_ (and_mask_eq_iff (m0 := 0#64) (m1 := BitVec.allOnes 64) (me := false) (mx := true)
    rfl rfl rfl rfl rfl rfl w 0x03#8).symm
  simp [decodeIn_eq_ok_iff, Carries, Instr.opcode, Instr.WellFormed, -BitVec.reduceAllOnes]

theorem decodeIn_expand_iff :
    (∃ n f e x, decodeIn c w = .ok (.expand n f e x)) ↔
      w &&& 0x00000000000000000000000000000000FFFFFFFFFFFFFCFF#192 = 0x04#192 := by
  refine Iff.trans ?_ (and_mask_eq_iff (m0 := 0#64) (m1 := 0#64) (me := false) (mx := false)
    rfl rfl rfl rfl rfl rfl w 0x04#8).symm
  simp [decodeIn_eq_ok_iff, Carries, Instr.opcode, Instr.WellFormed, -BitVec.reduceAllOnes]

theorem decodeIn_fill_iff :
    (∃ n e x, decodeIn c w = .ok (.fill n e x)) ↔
      w &&& 0xFFFFFFFFFFFFFFFF0000000000000000FFFFFFFFFFFFFCFF#192 = 0x05#192 := by
  refine Iff.trans ?_ (and_mask_eq_iff (m0 := 0#64) (m1 := BitVec.allOnes 64) (me := false) (mx := false)
    rfl rfl rfl rfl rfl rfl w 0x05#8).symm
  simp [decodeIn_eq_ok_iff, Carries, Instr.opcode, Instr.WellFormed, -BitVec.reduceAllOnes]

/-- The operands of a decoded command are the fields of its word (R63). -/
theorem operands_of_decodeIn {i : Instr} (h : decodeIn c w = .ok i) :
    match i with
    | .seed v => v = w.arg0
    | .discard k => k = w.arg0
    | .fillLane n e => n = w.arg0 ∧ (e = .neutral ↔ w.e = true)
    | .expand n f e x => n = w.arg0 ∧ f = w.arg1 ∧ (e = .neutral ↔ w.e = true) ∧ (x = .parallel ↔ w.x = true)
    | .fill n e x => n = w.arg0 ∧ (e = .neutral ↔ w.e = true) ∧ (x = .parallel ↔ w.x = true) := by
  obtain ⟨⟨-, -, hfields⟩, -⟩ := carries_of_decodeIn h
  cases i <;>
    (obtain ⟨h0, h1, he, hx⟩ := hfields
     simp [h0, h1, he, hx, endianMode_neutral_iff, execMode_parallel_iff])

end Rows

/-- Settles O4: each row's fields as one masked comparison, and the operands from the fields. -/
theorem decoderAsMatchAndMask : Obligations.DecoderAsMatchAndMask := fun w =>
  ⟨decodeIn_seed_iff cfg w, decodeIn_discard_iff cfg w, decodeIn_fillLane_iff cfg w, decodeIn_expand_iff cfg w,
    decodeIn_fill_iff cfg w, fun i h => by
      have hops := operands_of_decodeIn cfg w h
      cases i <;> exact hops⟩

/-- Settles O6: the port takes the word and the decoder's answer is performed. -/
theorem stepRunsDecodedCommand : Obligations.StepRunsDecodedCommand := by
  intro s w i hport hready hdecode
  rw [step, portStep, hport]
  simp only [inputStep]
  rw [presentWord, if_pos hready, perform, show decodeIn cfg w = .ok i from hdecode]
  rfl

theorem cmdReady_iff (s : State) : cmdReady s = true ↔ s.busy = false ∧ s.fault = false := by simp [cmdReady]

/-- On a ready block `STATE_Q` shows `S` (`10_state.md` R26). -/
theorem stateQ_container {c : Config} {s : State} (hfit : FitsW c s.S) (hready : cmdReady s = true) :
    (stateQ c s).setWidth 64 = s.S := by
  rw [stateQ, if_pos hready, container_setWidth hfit]

/-- Settles O17: the registers are numbered 0 and 1, and `S` survives the container. -/
theorem readyAndStateQ : Obligations.ReadyAndStateQ := fun s =>
  ⟨cmdReady_iff s, rfl, fun hfit hready => congrArg some (stateQ_container hfit hready), fun
    | _ + 2, _ => rfl⟩

end Sys2Proof.Machine
end

section
/-!
PROOFS. SEED and DISCARD (`41_seed_state.md`): the next state of each, from the remap and from the iterates of `M`.
-/

namespace Sys2Proof.Machine

open Sys2Proof.Safety

/-- The operand of a legal SEED has the width of `S` (`30_encoding.md` R61). -/
theorem fitsW_of_valueFits {c : Config} {value : Word} (h : valueFits c value = true) : FitsW c value := by
  simp only [valueFits, Bool.or_eq_true, decide_eq_true_eq] at h
  rcases h with hlow | hW
  · have hW : 32 ≤ c.W := by have := Config.W_cases c; omega
    exact hlow.trans_le (Nat.pow_le_pow_right (by decide) hW)
  · rw [FitsW, hW]
    exact value.isLt

/-- The remap seen through the container of a register (`41_seed_state.md` R90). -/
theorem remap_container {w : Nat} {v : Word} (hv : v.toNat < 2 ^ w) :
    (remap (v.setWidth w)).setWidth 64 = if v = 0#64 then (BitVec.allOnes w).setWidth 64 else v := by
  split
  next hzero => rw [hzero, BitVec.setWidth_zero, remap_zero]
  next hne =>
    have hlow : v.setWidth w ≠ 0#w := fun h => hne (by rw [← container_setWidth hv, h, BitVec.setWidth_zero])
    rw [remap_of_ne hlow, container_setWidth hv]

/-- Settles O21: the iteration as one update of the state, which reports its own `CNT`. -/
theorem discardResult : Obligations.DiscardResult := fun count _ hfit => ⟨_, discardIn_eq hfit count, rfl⟩

/-- Settles O19: a legal value fits `S`, so the register holds its remap. -/
theorem seedResult : Obligations.SeedResult := by
  intro value s hwf
  rw [← remap_container (fitsW_of_valueFits (c := cfg) hwf)]
  rfl

end Sys2Proof.Machine
end

section
/-!
PROOFS. The lane fill (`42_lane_fill.md`): the lanes `S` gives, what FILL_LANE leaves in every slot and unchanged, and
the fills of length zero.
-/

namespace Sys2Proof.Machine

open Sys2Proof.Safety

/-! ## The lanes (`42_lane_fill.md` R100) -/

theorem rotr_zero {n : Nat} (v : BitVec n) : rotr v 0 = v := rotl_of_mod_eq_zero v (by simp)

/-- `L[N/2] = not S`. -/
theorem deriveLanes_half (c : Config) (s : BitVec c.W) : (deriveLanes c s).getD (c.N / 2) 0#c.W = ~~~s := by
  have hpos : 0 < c.N / 2 := by
    have h1 := Config.N_pos c
    have h2 := Config.N_half c
    omega
  rw [← Nat.add_zero (c.N / 2), deriveLanes_high c s hpos, Nat.zero_mul, Nat.zero_mod, rotr_zero]

/-- Settles O27: LANE_INIT writes the derived lanes, and a lane is read back as it was derived. -/
theorem laneDerivation : Obligations.LaneDerivation := fun s =>
  ⟨laneInit_L_length cfg s, rfl,
    fun _ hi => (readLane_laneInit cfg s _).trans (deriveLanes_low cfg _ hi),
    fun _ hj => (readLane_laneInit cfg s _).trans (deriveLanes_high cfg _ hj),
    (readLane_laneInit cfg s 0).trans (deriveLanes_zero cfg _),
    (readLane_laneInit cfg s _).trans (deriveLanes_half cfg _)⟩

/-! ## FILL_LANE of a length the platform admits (`42_lane_fill.md` R109) -/

section Completes

variable {c : Config}

/-- What FILL_LANE leaves: its phases done, the block idle. -/
def fillLaneEnd (c : Config) (len : BitVec 64) (e : EndianMode) (s : State) : State :=
  complete (lanePhases c len.toNat (fillBegun len.toNat s.f0 e s))

theorem fillLaneIn_completes {len : BitVec 64} (hne : len ≠ 0#64) (e : EndianMode) {s : State}
    (ha : admits s len.toNat = true) : fillLaneIn c len e s = .next (fillLaneEnd c len e s) := by
  have hlen : len.toNat ≠ 0 := fun h => hne (BitVec.eq_of_toNat_eq h)
  have hbegun : admits (fillBegun len.toNat s.f0 e s) len.toNat = true := ha
  rw [fillLaneIn_of_ne hne, laneFill, if_neg hlen, if_pos hbegun]
  rfl

theorem fillLaneIn_zero (c : Config) (e : EndianMode) (s : State) :
    fillLaneIn c 0#64 e s = .next { s with busy := false, phase := .idle } := rfl

theorem fillLaneEnd_frame (len : BitVec 64) (e : EndianMode) (s : State) :
    fillLaneEnd c len e s = { s with
      S := (fillLaneEnd c len e s).S, L := (fillLaneEnd c len e s).L, mem := (fillLaneEnd c len e s).mem,
      len := len.toNat, e := e, t := len.toNat / c.WB, busy := false, phase := .idle } := by
  rw [fillLaneEnd, lanePhases_frame]
  rfl

/-- `S` after FILL_LANE depends on `S` and the length alone (`42_lane_fill.md` R110). -/
theorem fillLaneEnd_S (len : BitVec 64) (e : EndianMode) (s : State) :
    (fillLaneEnd c len e s).S =
      mixed c (laneZeroSlots c (len.toNat / c.WB) + (if len.toNat % c.WB = 0 then 1 else 2)) s.S :=
  lanePhases_S c _ _

/-- Every byte after FILL_LANE: the slots, the tail, and the rest as before (`42_lane_fill.md` R104, R110). -/
theorem bufByte_fillLaneEnd (len : BitVec 64) (e : EndianMode) {s : State}
    (hw : Memory.wf c.unwritten s.mem = true) (a : Nat) :
    bufByte c (fillLaneEnd c len e s) a =
      if a < len.toNat / c.WB * c.WB then
        (enc (ord c e) (Nat.iterate (mix c.params.shifts) (a / c.WB / c.N + 1)
          ((deriveLanes c (readS c s)).getD (a / c.WB % c.N) 0#c.W)) c.WB).getD (a % c.WB) 0#8
      else if a < len.toNat then
        (enc (ord c e) ((mixed c (laneZeroSlots c (len.toNat / c.WB) + 2) s.S).setWidth c.W) c.WB).getD
          (a - len.toNat / c.WB * c.WB) 0#8
      else bufByte c s a :=
  read_lanePhases c len.toNat (s := fillBegun len.toNat s.f0 e s) hw a

/-- A slot after FILL_LANE holds the integer of `42_lane_fill.md` R104 in the command's byte order. -/
theorem readBytes_fillLaneEnd (len : BitVec 64) (e : EndianMode) {s : State}
    (hw : Memory.wf c.unwritten s.mem = true) {slot : Nat} (hslot : slot < len.toNat / c.WB) :
    Memory.readBytes c.unwritten (fillLaneEnd c len e s).mem (slot * c.WB) c.WB =
      enc (ord c e) (Nat.iterate (mix c.params.shifts) (slot / c.N + 1)
        ((deriveLanes c (readS c s)).getD (slot % c.N) 0#c.W)) c.WB := by
  apply List.ext_getElem
  · rw [Memory.readBytes_length, enc_length]
  · intro i hi hi'
    have hiB : i < c.WB := by rwa [enc_length] at hi'
    have hin : slot * c.WB + i < len.toNat / c.WB * c.WB :=
      calc slot * c.WB + i < (slot + 1) * c.WB := by rw [Nat.succ_mul]; omega
        _ ≤ len.toNat / c.WB * c.WB := Nat.mul_le_mul_right _ hslot
    have hdiv : (slot * c.WB + i) / c.WB = slot := by
      rw [Nat.mul_comm, Nat.mul_add_div (Config.WB_pos c), Nat.div_eq_of_lt hiB, Nat.add_zero]
    have hmod : (slot * c.WB + i) % c.WB = i := by rw [Nat.mul_add_mod', Nat.mod_eq_of_lt hiB]
    rw [Memory.readBytes_getElem, ← bufByte, bufByte_fillLaneEnd len e hw, if_pos hin, hdiv, hmod,
      List.getD_eq_getElem _ _ hi']

/-- FILL_LANE of any length the platform admits, zero too, completes with every whole slot as R104 gives it. -/
theorem fillLaneIn_slots (len : BitVec 64) (e : EndianMode) {s : State}
    (hw : Memory.wf c.unwritten s.mem = true) (ha : admits s len.toNat = true) :
    ∃ t, fillLaneIn c len e s = .next t ∧ ∀ slot, slot < len.toNat / c.WB →
      Memory.readBytes c.unwritten t.mem (slot * c.WB) c.WB =
        enc (ord c e) (Nat.iterate (mix c.params.shifts) (slot / c.N + 1)
          ((deriveLanes c (readS c s)).getD (slot % c.N) 0#c.W)) c.WB := by
  by_cases hne : len = 0#64
  · subst hne
    refine ⟨_, fillLaneIn_zero c e s, fun slot hslot => ?_⟩
    rw [show (0#64).toNat = 0 from rfl, Nat.zero_div] at hslot
    exact absurd hslot (Nat.not_lt_zero _)
  · exact ⟨_, fillLaneIn_completes hne e ha, fun _ => readBytes_fillLaneEnd len e hw⟩

/-- The bytes FILL_LANE writes come from `S`, the length and the byte order (`42_lane_fill.md` R111). -/
theorem bufByte_fillLaneEnd_congr {len : BitVec 64} {e e' : EndianMode} {s s' : State}
    (hw : Memory.wf c.unwritten s.mem = true) (hw' : Memory.wf c.unwritten s'.mem = true) (hS : s.S = s'.S)
    (ho : ord c e = ord c e') {a : Nat} (ha : a < len.toNat) :
    bufByte c (fillLaneEnd c len e s) a = bufByte c (fillLaneEnd c len e' s') a := by
  rw [bufByte_fillLaneEnd len e hw, bufByte_fillLaneEnd len e' hw', readS_congr c hS, hS, ho, if_pos ha, if_pos ha]

end Completes

/-- Settles O29: the lane phases leave all but their own registers alone, and write no byte from `LEN` on. -/
theorem fillLaneCompletes : Obligations.FillLaneCompletes := by
  intro len e s hw hne ha
  have hframe := fillLaneEnd_frame (c := cfg) len e s
  refine ⟨_, fillLaneIn_completes hne e ha, ?_, fun a hlen => ?_⟩
  · generalize fillLaneEnd cfg len e s = t at hframe ⊢
    rw [hframe]
  · have hslots : ¬ a < len.toNat / cfg.WB * cfg.WB := ((Nat.div_mul_le_self _ _).trans hlen).not_gt
    rw [bufByte_fillLaneEnd len e hw, if_neg hslots, if_neg hlen.not_gt]

/-- Settles O33, by length: zero leaves `S` and owes no byte; otherwise both are given by `S`, `LEN` and the order. -/
theorem fillLaneIsDeterminedBySeedAndLength : Obligations.FillLaneIsDeterminedBySeedAndLength := by
  intro len e e' s s' hw hw' hS ho ha ha'
  by_cases hne : len = 0#64
  · subst hne
    exact ⟨_, _, fillLaneIn_zero cfg e s, fillLaneIn_zero cfg e' s', hS, fun a h => absurd h (Nat.not_lt_zero a)⟩
  · exact ⟨_, _, fillLaneIn_completes hne e ha, fillLaneIn_completes hne e' ha',
      by rw [fillLaneEnd_S, fillLaneEnd_S, hS], fun _ => bufByte_fillLaneEnd_congr hw hw' hS ho⟩

/-! ## The degenerate start (`42_lane_fill.md` R103) -/

theorem rotl_allOnes (n k : Nat) : rotl (BitVec.allOnes n) k = BitVec.allOnes n := by
  apply BitVec.eq_of_getElem_eq
  intro i hi
  simp [rotl, BitVec.getElem_rotateLeft]

theorem zero_rotr (n k : Nat) : rotr (0#n) k = 0#n := by
  apply BitVec.eq_of_getElem_eq
  intro i hi
  simp [rotr, rotl, BitVec.getElem_rotateLeft]

theorem mix_zero {w : Nat} (sh : Shifts) : mix sh 0#w = 0#w := by simp [mix]

theorem enc_zero {w : Nat} (o : ByteOrder) (n : Nat) : enc o 0#w n = List.replicate n 0#8 := by
  have hbyte : ∀ i, byteOf (0#w) i = 0#8 := fun i => by simp [byteOf]
  cases o <;> simp [enc, hbyte]

/-- From `S = MAXW` every lane of the first half is `MAXW`. -/
theorem deriveLanes_allOnes_low (c : Config) {l : Nat} (hl : l < c.N / 2) :
    (deriveLanes c (BitVec.allOnes c.W)).getD l 0#c.W = BitVec.allOnes c.W := by
  rw [deriveLanes_low c _ hl, rotl_allOnes]

/-- From `S = MAXW` every lane of the second half is zero. -/
theorem deriveLanes_allOnes_high (c : Config) {l : Nat} (hl : c.N / 2 ≤ l) (hN : l < c.N) :
    (deriveLanes c (BitVec.allOnes c.W)).getD l 0#c.W = 0#c.W := by
  obtain ⟨j, rfl⟩ := Nat.exists_eq_add_of_le hl
  have hj : j < c.N / 2 := by
    have := Config.N_half c
    omega
  rw [deriveLanes_high c _ hj, BitVec.not_allOnes, zero_rotr]

/-- Settles O35: the second half's lanes start at zero, which `M` keeps, and the first half's all start at `MAXW`. -/
theorem degenerateStartPattern : Obligations.DegenerateStartPattern := by
  intro len e s hw ha hS
  have hreadS : readS cfg s = BitVec.allOnes cfg.W := by rw [readS, hS, setWidth_container (Config.W_le cfg)]
  obtain ⟨t, ht, hslots⟩ := fillLaneIn_slots len e hw ha
  rw [hreadS] at hslots
  refine ⟨t, ht, fun slot hslot => ⟨fun hhigh => ?_, fun hlow => ?_⟩⟩
  · rw [hslots slot hslot, deriveLanes_allOnes_high cfg hhigh (Nat.mod_lt _ (Config.N_pos cfg)),
      Function.iterate_fixed (mix_zero _), enc_zero]
  · rw [hslots slot hslot, deriveLanes_allOnes_low cfg hlow]

/-! ## Fills of length zero (`42_lane_fill.md` R109, `43_expansion.md` R137, `44_composite.md` R150) -/

theorem fillIn_zero (c : Config) (e : EndianMode) (x : ExecMode) (s : State) :
    fillIn c 0#64 e x s = .next { s with busy := false, phase := .idle } := rfl

/-- An expansion of no bytes only initialises its registers: no iteration runs and no byte remains. -/
theorem expansion_of_len_zero {c : Config} {s : State} (h : s.len = 0) :
    expansion c s = .running (expandStart s) := by
  have hlen : (expandStart s).len = 0 := h
  rw [expansion, if_neg (by omega), Progress.andThen, fallbackPass, if_pos (by omega)]

theorem expandIn_zero {c : Config} (f0 : BitVec 64) (e : EndianMode) (x : ExecMode) (s : State) :
    expandIn c 0#64 f0 e x s = .next (complete (expandStart (fillBegun 0 f0.toNat e s))) :=
  congrArg (finish c _) (expansion_of_len_zero (s := fillBegun 0 f0.toNat e s) rfl)

/-- Settles O32: with no bytes to fill, no phase of any of the three commands runs. -/
theorem zeroLengthFillsChangeNothing : Obligations.ZeroLengthFillsChangeNothing := fun f0 e x s =>
  ⟨fillLaneIn_zero cfg e s, fillIn_zero cfg e x s, _, expandIn_zero f0 e x s, rfl⟩

end Sys2Proof.Machine
end

section
/-!
PROOFS. The pure part of the expansion (`43_expansion.md`): the two transforms, the offset sequence, and how far the
step list carries a FILL, from lengths alone.
-/

namespace Sys2Proof.Machine

open Sys2Proof.Safety

/-! ## The transforms (`43_expansion.md` R121) -/

theorem rotl_bijective {n : Nat} (hn : 0 < n) (k : Nat) : Function.Bijective (fun v : BitVec n => rotl v k) :=
  Function.bijective_iff_has_inverse.mpr ⟨fun v => rotr v k, fun v => rotr_rotl hn v k, fun v => rotl_rotr hn v k⟩

theorem rotr_bijective {n : Nat} (hn : 0 < n) (k : Nat) : Function.Bijective (fun v : BitVec n => rotr v k) :=
  Function.bijective_iff_has_inverse.mpr ⟨fun v => rotl v k, fun v => rotl_rotr hn v k, fun v => rotr_rotl hn v k⟩

theorem xor_bijective {n : Nat} (m : BitVec n) : Function.Bijective (fun v : BitVec n => v ^^^ m) :=
  Function.Involutive.bijective fun v => by rw [BitVec.xor_assoc, BitVec.xor_self, BitVec.xor_zero]

theorem complement_bijective (n : Nat) : Function.Bijective (fun v : BitVec n => ~~~v) :=
  Function.Involutive.bijective fun _ => BitVec.not_not

theorem complement_rotl {n : Nat} (v : BitVec n) (k : Nat) : ~~~(rotl v k) = rotl (~~~v) k := by
  apply BitVec.eq_of_getElem_eq
  intro i hi
  simp only [rotl, BitVec.getElem_not, BitVec.getElem_rotateLeft]
  split <;> rfl

theorem transformA_bijective (c : Config) (s : Nat) : Function.Bijective (transformA c s) :=
  (rotl_bijective (by have := Config.XW_cases c; omega) s).comp (xor_bijective (maskA c))

theorem transformB_bijective (c : Config) (s : Nat) : Function.Bijective (transformB c s) :=
  (complement_bijective c.XW).comp
    ((rotr_bijective (by have := Config.XW_cases c; omega) s).comp (xor_bijective (maskB c)))

/-- Settles O38: each transform is a composition of bijections, and a rotation moves bits without looking at them. -/
theorem transformsAreBijections : Obligations.TransformsAreBijections := fun s =>
  ⟨transformA_bijective cfg s, transformB_bijective cfg s, fun _ => ⟨rfl, rfl, complement_rotl _ _⟩⟩

/-! ## The offset sequence (`43_expansion.md` R124) -/

/-- The offset of iteration `k` is a position the sequence may use. -/
theorem iterate_nextOffset_valid (c : Config) (k : Nat) :
    0 < Nat.iterate (nextOffset c) k 1 ∧ Nat.iterate (nextOffset c) k 1 % c.XB ≠ 0 := by
  induction k with
  | zero => rcases Config.XB_cases c with hB | hB <;> simp [hB]
  | succ k ih =>
    rw [Function.iterate_succ_apply']
    refine ⟨(Nat.zero_le _).trans_lt (nextOffset_gt c _), ?_⟩
    unfold nextOffset
    rcases Config.XB_cases c with hB | hB <;> rw [hB] at ih ⊢ <;> split <;> omega

/-- Every such position but 1 comes right after another one. -/
theorem exists_nextOffset_eq (c : Config) {m : Nat} (hm : 1 < m) (hmod : m % c.XB ≠ 0) :
    ∃ o, o < m ∧ 0 < o ∧ o % c.XB ≠ 0 ∧ nextOffset c o = m := by
  by_cases hprev : (m - 1) % c.XB = 0
  · refine ⟨m - 2, ?_⟩
    unfold nextOffset
    rcases Config.XB_cases c with hB | hB <;> rw [hB] at hmod hprev ⊢ <;> split <;> omega
  · refine ⟨m - 1, by omega, by omega, hprev, ?_⟩
    rw [nextOffset, Nat.sub_add_cancel hm.le, if_neg hmod]

theorem exists_iterate_nextOffset (c : Config) (m : Nat) (hpos : 0 < m) (hmod : m % c.XB ≠ 0) :
    ∃ k, Nat.iterate (nextOffset c) k 1 = m := by
  induction m using Nat.strong_induction_on with
  | _ m ih =>
    rcases (by omega : m = 1 ∨ 1 < m) with rfl | hm
    · exact ⟨0, rfl⟩
    · obtain ⟨o, hlt, hopos, homod, hnext⟩ := exists_nextOffset_eq c hm hmod
      obtain ⟨k, hk⟩ := ih o hlt hopos homod
      exact ⟨k + 1, by rw [Function.iterate_succ_apply', hk, hnext]⟩

/-- The offset step where an integer has `n` bytes. -/
theorem nextOffset_of_XB {c : Config} {n : Nat} (h : c.XB = n) :
    nextOffset c = fun o => if (o + 1) % n = 0 then o + 2 else o + 1 := by
  subst h
  rfl

/-- Settles O39: the step goes from each position that is no multiple of `XB` to the next, and misses none. -/
theorem offsetSequence : Obligations.OffsetSequence := by
  intro c
  refine ⟨fun k => ?_, fun m => ⟨?_, fun ⟨hpos, hmod⟩ => exists_iterate_nextOffset c m hpos hmod⟩, fun hB => ?_,
    fun hB => ?_⟩
  · rw [Function.iterate_succ_apply']
    exact nextOffset_gt c _
  · rintro ⟨k, rfl⟩
    exact iterate_nextOffset_valid c k
  · rw [nextOffset_of_XB hB]
    decide
  · rw [nextOffset_of_XB hB]
    decide

/-! ## Growth on a buffer without end (`43_expansion.md` R135) -/

/-- One iteration of the growth table: `FILLED` and `OFFSET` after it. -/
def growthStep (c : Config) (p : Nat × Nat) : Nat × Nat := (growFree c p.1 p.2, nextOffset c p.2)

theorem freeReach_eq_iterate (c : Config) (n filled offset : Nat) :
    freeReach c n filled offset = (Nat.iterate (growthStep c) n (filled, offset)).1 := by
  induction n generalizing filled offset with
  | zero => rfl
  | succ n ih => rw [freeReach, ih, Function.iterate_succ_apply, growthStep]

/-- With the same window an iteration copies it twice (`43_expansion.md` R128). -/
theorem growFree_of_same {c : Config} (h : c.params.betaWindow = .same) (filled offset : Nat) :
    growFree c filled offset = filled + (filled - offset) / c.XB * c.XB + (filled - offset) / c.XB * c.XB := by
  simp only [growFree, h, inputWindow]

theorem growthStep_of_XB {c : Config} {n : Nat} (hB : c.XB = n) (h : c.params.betaWindow = .same) :
    growthStep c = fun p =>
      (p.1 + (p.1 - p.2) / n * n + (p.1 - p.2) / n * n, if (p.2 + 1) % n = 0 then p.2 + 2 else p.2 + 1) := by
  funext p
  rw [growthStep, growFree_of_same h, nextOffset_of_XB hB, hB]

/-- Settles O50: the table is the iteration of a closed function on pairs. -/
theorem growthTable : Obligations.GrowthTable := by
  intro c hB hsame
  simp only [freeReach_eq_iterate, growthStep_of_XB hB hsame]
  decide

/-! ## What a FILL leaves to the fallback (`44_composite.md` R155) -/

section Thresholds

variable (c : Config)

/-- The input window of the Beta sub-step, from the lengths (`43_expansion.md` R128). -/
def betaInput (filled mid offset : Nat) : Nat :=
  match c.params.betaWindow with
  | .same => inputWindow c filled offset
  | .recomputed => inputWindow c mid offset

/-- `FILLED` after the Alpha sub-step, from the lengths (`43_expansion.md` R127). -/
def alphaEnd (len filled offset : Nat) : Nat :=
  filled + slotCount c len filled (inputWindow c filled offset) * c.XB

/-- With no byte left a window has no slot. -/
theorem slotCount_full {len filled : Nat} (nin : Nat) (h : len ≤ filled) :
    slotCount c len filled nin = 0 := by
  rw [slotCount, Nat.sub_eq_zero_of_le h, Nat.zero_div, Nat.min_zero]

/-- Without space nothing is copied, so the growth of an iteration needs no case for it. -/
theorem grow_eq (len filled offset : Nat) :
    grow c len filled offset = alphaEnd c len filled offset +
      slotCount c len (alphaEnd c len filled offset) (betaInput c filled (alphaEnd c len filled offset) offset) *
        c.XB := by
  by_cases h : alphaEnd c len filled offset < len
  · exact if_pos h
  · rw [slotCount_full c _ (not_lt.mp h), Nat.zero_mul, Nat.add_zero]
    exact if_neg h

theorem growFree_eq (filled offset : Nat) :
    growFree c filled offset = filled + inputWindow c filled offset * c.XB +
      betaInput c filled (filled + inputWindow c filled offset * c.XB) offset * c.XB := rfl

/-- A sub-step from a whole number of integers fills its input window again, up to the whole integers of the buffer. -/
theorem filled_add_slots {len filled : Nat} (nin : Nat) (hmod : filled % c.XB = 0) (hle : filled ≤ len) :
    filled + slotCount c len filled nin * c.XB = min (filled + nin * c.XB) (len / c.XB * c.XB) := by
  obtain ⟨q, rfl⟩ := Nat.dvd_of_mod_eq_zero hmod
  have hq : q ≤ len / c.XB := (Nat.le_div_iff_mul_le (Config.XB_pos c)).mpr (by rwa [Nat.mul_comm])
  rw [slotCount, Nat.sub_mul_div, Nat.mul_comm c.XB q, ← Nat.add_mul, ← Nat.add_mul, ← Nat.add_min_add_left,
    Nat.add_sub_cancel' hq, Nat.mul_min_mul_right]

theorem filled_le_growFree (filled offset : Nat) : filled ≤ growFree c filled offset := by
  rw [growFree_eq, Nat.add_assoc]
  exact Nat.le_add_right _ _

theorem growFree_mod {filled : Nat} (offset : Nat) (hmod : filled % c.XB = 0) :
    growFree c filled offset % c.XB = 0 := by
  rw [growFree_eq, Nat.add_mul_mod_self_right, Nat.add_mul_mod_self_right, hmod]

theorem wholeIntegers_le (len : Nat) : len / c.XB * c.XB ≤ len := Nat.div_mul_le_self _ _

theorem lt_wholeIntegers_add (len : Nat) : len < len / c.XB * c.XB + c.XB :=
  Nat.lt_div_mul_add (Config.XB_pos c)

/-- An iteration on a buffer of `len` bytes is one without end, cut at the whole integers of the buffer. -/
theorem grow_eq_min {len filled : Nat} (offset : Nat) (hmod : filled % c.XB = 0) (hle : filled ≤ len) :
    grow c len filled offset = min (growFree c filled offset) (len / c.XB * c.XB) := by
  have hwhole := wholeIntegers_le c len
  have hmid : alphaEnd c len filled offset =
      min (filled + inputWindow c filled offset * c.XB) (len / c.XB * c.XB) := filled_add_slots c _ hmod hle
  have hbeta : ∀ nin, alphaEnd c len filled offset +
      slotCount c len (alphaEnd c len filled offset) nin * c.XB =
        min (alphaEnd c len filled offset + nin * c.XB) (len / c.XB * c.XB) := fun nin =>
    filled_add_slots c nin (by rw [alphaEnd, Nat.add_mul_mod_self_right, hmod]) (by omega)
  rw [grow_eq, hbeta, growFree_eq]
  by_cases hcut : filled + inputWindow c filled offset * c.XB ≤ len / c.XB * c.XB
  · rw [hmid, Nat.min_eq_left hcut]
  · omega

theorem filled_le_freeReach (n filled offset : Nat) : filled ≤ freeReach c n filled offset := by
  induction n generalizing filled offset with
  | zero => exact le_rfl
  | succ n ih => exact (filled_le_growFree c filled offset).trans (ih _ _)

theorem freeReach_mod (n : Nat) {filled : Nat} (offset : Nat) (hmod : filled % c.XB = 0) :
    freeReach c n filled offset % c.XB = 0 := by
  induction n generalizing filled offset with
  | zero => exact hmod
  | succ n ih => exact ih _ (growFree_mod c offset hmod)

/-- The loop on a buffer of `len` bytes is the one without end, cut at the whole integers of the buffer. -/
theorem growLoop_eq_min {len filled : Nat} (n offset : Nat) (hmod : filled % c.XB = 0)
    (hle : filled ≤ len / c.XB * c.XB) :
    growLoop c len n filled offset = min (freeReach c n filled offset) (len / c.XB * c.XB) := by
  have hwhole := wholeIntegers_le c len
  have hshort := lt_wholeIntegers_add c len
  induction n generalizing filled offset with
  | zero => exact (Nat.min_eq_left hle).symm
  | succ n ih =>
    rw [growLoop]
    split
    next hlt =>
      rw [grow_eq_min c offset hmod hlt.le, freeReach]
      by_cases hcut : growFree c filled offset ≤ len / c.XB * c.XB
      · rw [Nat.min_eq_left hcut, ih _ (growFree_mod c offset hmod) hcut]
      · have hfree := filled_le_freeReach c n (growFree c filled offset) (nextOffset c offset)
        rw [Nat.min_eq_right (not_le.mp hcut).le, growLoop_short c _ _ _ (by omega), Nat.min_eq_right (by omega)]
    next hfull =>
      have hfree := filled_le_freeReach c (n + 1) filled offset
      omega

/-- Where the loop of a FILL ends: at the last figure of the growth table, or at the whole integers of the buffer. -/
theorem reach_initialSegment (len : Nat) :
    reach c len (initialSegment c len) = min (growthLimit c) (len / c.XB * c.XB) := by
  have hwhole := wholeIntegers_le c len
  rw [reach, Nat.min_eq_left (initialSegment_le c len),
    growLoop_eq_min c _ _ (initialSegment_mod_XB c len) (Nat.min_le_right _ _)]
  by_cases hinit : c.params.initRangeSize ≤ len / c.XB * c.XB
  · rw [initialSegment, Nat.min_eq_left hinit, growthLimit]
  · have hseg : initialSegment c len = len / c.XB * c.XB := Nat.min_eq_right (not_le.mp hinit).le
    have hreach := filled_le_freeReach c c.params.stepList.length (initialSegment c len) 1
    have hlimit : c.params.initRangeSize ≤ growthLimit c := filled_le_freeReach c _ _ _
    omega

theorem growthLimit_mod : growthLimit c % c.XB = 0 := freeReach_mod c _ _ (Config.initRangeSize_mod c)

/-- Beyond the whole integers of the buffer the growth limit is at least one integer beyond. -/
theorem wholeIntegers_add_le_growthLimit {len : Nat} (h : len / c.XB * c.XB < growthLimit c) :
    len / c.XB * c.XB + c.XB ≤ growthLimit c := by
  obtain ⟨q, hq⟩ := Nat.dvd_of_mod_eq_zero (growthLimit_mod c)
  rw [hq, Nat.mul_comm c.XB q] at h ⊢
  rw [← Nat.succ_mul]
  exact Nat.mul_le_mul_right _ (Nat.lt_of_mul_lt_mul_right h)

end Thresholds

/-- Settles O51, by whether the growth limit or the length of the buffer ends the loop. -/
theorem fillThresholds : Obligations.FillThresholds := by
  intro c len hpos
  have hreach := reach_initialSegment c len
  have hwhole := wholeIntegers_le c len
  have hshort := lt_wholeIntegers_add c len
  refine ⟨fun hB => ?_, fun hlt => ?_⟩
  · have hone : c.XB ≤ len / c.XB * c.XB := Nat.le_mul_of_pos_left _ (Nat.div_pos hB (Config.XB_pos c))
    rw [Underruns, remaining]
    by_cases hend : growthLimit c ≤ len / c.XB * c.XB
    · rw [hreach, Nat.min_eq_left hend]
      omega
    · have hbeyond := wholeIntegers_add_le_growthLimit c (not_le.mp hend)
      rw [hreach, Nat.min_eq_right (by omega)]
      omega
  · have hzero : reach c len (initialSegment c len) = 0 := by
      rw [hreach, Nat.div_eq_of_lt hlt, Nat.zero_mul, Nat.min_zero]
    rw [Underruns, remaining, hzero]
    omega

end Sys2Proof.Machine
end

section
/-!
PROOFS. The sub-steps of the expansion (`43_expansion.md` R125 to R129): what stands in each slot, which bytes are kept,
and why the order of the slots does not matter.
-/

namespace Sys2Proof.Machine

open Sys2Proof.Safety

section Slots

variable {c : Config} {o : ByteOrder} {f : BitVec c.XW → BitVec c.XW} {src dst n : Nat} {m m' : Memory}

/-- The two memories hold the same bytes below an address. -/
def AgreeBelow (c : Config) (hi : Nat) (m m' : Memory) : Prop :=
  ∀ a, a < hi → Memory.read c.unwritten m a = Memory.read c.unwritten m' a

theorem AgreeBelow.mono {lo hi : Nat} (h : AgreeBelow c hi m m') (hle : lo ≤ hi) : AgreeBelow c lo m m' :=
  fun a ha => h a (ha.trans_le hle)

theorem AgreeBelow.trans {hi : Nat} {m'' : Memory} (h : AgreeBelow c hi m m') (h' : AgreeBelow c hi m' m'') :
    AgreeBelow c hi m m'' := fun a ha => (h a ha).trans (h' a ha)

theorem AgreeBelow.readBytes {hi a k : Nat} (h : AgreeBelow c hi m m') (hle : a + k ≤ hi) :
    Memory.readBytes c.unwritten m a k = Memory.readBytes c.unwritten m' a k :=
  Memory.readBytes_congr fun x _ hx => h x (hx.trans_le hle)

theorem Extends.of_running {s s' : State} {p : Progress} (hx : Extends c s p.state) (h : p = .running s') :
    Extends c s s' := by
  subst h
  exact hx

/-- Phases of an expansion write no byte below the `FILLED` they start from. -/
theorem Extends.agreeBelow {s s' : State} (hx : Extends c s s') (hw : Memory.wf c.unwritten s.mem = true) :
    AgreeBelow c s.filled s'.mem s.mem := fun a ha => hx.read hw a (.inl ha)

/-- Slot `j` of `n` ends where slot `n` would begin, or before. -/
theorem slot_end_le {j B : Nat} (hj : j < n) : j * B + B ≤ n * B := by
  rw [← Nat.succ_mul]
  exact Nat.mul_le_mul_right _ hj

/-- A slot's output depends on its input bytes alone. -/
theorem slotOutput_congr {hi j : Nat} (h : AgreeBelow c hi m m') (hle : src + j * c.XB + c.XB ≤ hi) :
    slotOutput c o f src m j = slotOutput c o f src m' j := by
  rw [slotOutput, slotOutput, h.readBytes hle]

/-- A slot holds the transform of its input as it was before the sub-step (`43_expansion.md` R126, R129). -/
theorem readBytes_copySlots (hw : Memory.wf c.unwritten m = true) (hsrc : src + n * c.XB ≤ dst) {j : Nat} (hj : j < n) :
    Memory.readBytes c.unwritten (copySlots c o f src dst m n) (dst + j * c.XB) c.XB =
      enc o (slotOutput c o f src m j) c.XB := by
  apply List.ext_getElem
  · rw [Memory.readBytes_length, enc_length]
  · intro i hi hi'
    have hiB : i < c.XB := by rwa [enc_length] at hi'
    have hend := slot_end_le (B := c.XB) hj
    have hpos : dst + j * c.XB + i - dst = j * c.XB + i := by omega
    have hdiv : (j * c.XB + i) / c.XB = j := by
      rw [Nat.mul_comm, Nat.mul_add_div (Config.XB_pos c), Nat.div_eq_of_lt hiB, Nat.add_zero]
    have hmod : (j * c.XB + i) % c.XB = i := by rw [Nat.mul_add_mod', Nat.mod_eq_of_lt hiB]
    rw [Memory.readBytes_getElem, read_copySlots c o f src dst hw _ n hsrc, if_pos (by omega), hpos, hdiv, hmod,
      List.getD_eq_getElem _ _ hi']

/-! ## The order of the slots (`43_expansion.md` R136) -/

theorem copySlot_wf (hw : Memory.wf c.unwritten m = true) (j : Nat) :
    Memory.wf c.unwritten (copySlot c o f src dst m j) = true := Memory.writeBytes_wf _ _ _ hw

/-- Every byte after one slot: the slot's own bytes, and the rest as before. -/
theorem read_copySlot (hw : Memory.wf c.unwritten m = true) (j x : Nat) :
    Memory.read c.unwritten (copySlot c o f src dst m j) x =
      if dst ≤ x ∧ (x - dst) / c.XB = j then (enc o (slotOutput c o f src m j) c.XB).getD ((x - dst) % c.XB) 0#8
      else Memory.read c.unwritten m x := by
  have hB := Config.XB_pos c
  have hinside : (dst + j * c.XB ≤ x ∧ x < dst + j * c.XB + c.XB) ↔ dst ≤ x ∧ (x - dst) / c.XB = j := by
    rw [Nat.div_eq_iff hB]
    omega
  rw [copySlot, Memory.read_writeBytes _ _ _ _ hw, enc_length]
  simp only [hinside]
  split
  next h =>
    have hmod := Nat.div_add_mod' (x - dst) c.XB
    rw [h.2] at hmod
    rw [show x - (dst + j * c.XB) = (x - dst) % c.XB by omega]
    rfl
  next => rfl

/-- A slot leaves the input of every slot as it was. -/
theorem copySlot_agreeBelow (hw : Memory.wf c.unwritten m = true) (j : Nat) :
    AgreeBelow c dst (copySlot c o f src dst m j) m := fun a ha => by
  rw [read_copySlot hw, if_neg (by omega)]

theorem foldl_copySlot_wf (order : List Nat) (hw : Memory.wf c.unwritten m = true) :
    Memory.wf c.unwritten (order.foldl (copySlot c o f src dst) m) = true := by
  induction order generalizing m with
  | nil => exact hw
  | cons j js ih => exact ih (copySlot_wf hw j)

/-- Every byte after the slots of a list: it depends on which slots the list names, not on their order. -/
theorem read_foldl_copySlot (hsrc : src + n * c.XB ≤ dst) (order : List Nat) (hlt : ∀ j ∈ order, j < n)
    (hw : Memory.wf c.unwritten m = true) (x : Nat) :
    Memory.read c.unwritten (order.foldl (copySlot c o f src dst) m) x =
      if dst ≤ x ∧ (x - dst) / c.XB ∈ order then
        (enc o (slotOutput c o f src m ((x - dst) / c.XB)) c.XB).getD ((x - dst) % c.XB) 0#8
      else Memory.read c.unwritten m x := by
  induction order generalizing m with
  | nil => simp
  | cons j js ih =>
    rw [List.foldl_cons, ih (fun i hi => hlt i (List.mem_cons_of_mem j hi)) (copySlot_wf hw j), read_copySlot hw]
    by_cases hjs : dst ≤ x ∧ (x - dst) / c.XB ∈ js
    · have hend := slot_end_le (B := c.XB) (hlt _ (List.mem_cons_of_mem j hjs.2))
      rw [if_pos hjs, if_pos ⟨hjs.1, List.mem_cons_of_mem j hjs.2⟩,
        slotOutput_congr (copySlot_agreeBelow hw j) (by omega)]
    · rw [if_neg hjs]
      by_cases hj : dst ≤ x ∧ (x - dst) / c.XB = j
      · rw [if_pos hj, if_pos ⟨hj.1, hj.2 ▸ List.mem_cons_self⟩, hj.2]
      · have hnot : ¬ (dst ≤ x ∧ (x - dst) / c.XB ∈ j :: js) := by
          rw [List.mem_cons]
          tauto
        rw [if_neg hj, if_neg hnot]

theorem copySlots_eq_foldl (m : Memory) (n : Nat) :
    copySlots c o f src dst m n = (List.range n).foldl (copySlot c o f src dst) m := by
  induction n with
  | zero => rfl
  | succ n ih => rw [copySlots, ih, List.range_succ, List.foldl_append, List.foldl_cons, List.foldl_nil]

/-- Lists that name the same slots give the same buffer. -/
theorem foldl_copySlot_congr (hsrc : src + n * c.XB ≤ dst) {order order' : List Nat}
    (hmem : ∀ j, j ∈ order ↔ j ∈ order') (hlt : ∀ j ∈ order, j < n) (hw : Memory.wf c.unwritten m = true) :
    order.foldl (copySlot c o f src dst) m = order'.foldl (copySlot c o f src dst) m := by
  refine Memory.ext_of_read (foldl_copySlot_wf order hw) (foldl_copySlot_wf order' hw) fun x => ?_
  rw [read_foldl_copySlot hsrc order hlt hw, read_foldl_copySlot hsrc order' (fun j hj => hlt j ((hmem j).mpr hj)) hw]
  simp only [hmem]

end Slots

/-- Settles O42: a permutation names the same slots, and no slot reads what another writes. -/
theorem slotOrderIsFree : Obligations.SlotOrderIsFree := by
  intro o f src dst n m order hw hsrc hperm
  rw [copySlots_eq_foldl]
  exact foldl_copySlot_congr hsrc (fun _ => hperm.mem_iff) (fun _ hj => List.mem_range.mp (hperm.mem_iff.mp hj)) hw

/-! ## The two sub-steps (`43_expansion.md` R125 to R129) -/

section SubSteps

variable {c : Config} {f : BitVec c.XW → BitVec c.XW} {ph : Phase} {s : State}

/-- A sub-step has run over the window of `s`. -/
def afterSubStep (c : Config) (f : BitVec c.XW → BitVec c.XW) (ph : Phase) (s : State) : State :=
  { s with
    mem := copySlots c (ord c s.e) f s.offset s.filled s.mem (slotCount c s.len s.filled s.nin)
    filled := s.filled + slotCount c s.len s.filled s.nin * c.XB
    phase := ph }

theorem subStep_eq (hf : s.filled ≤ s.len) (ha : admits s s.len = true) :
    subStep c f ph s = .running (afterSubStep c f ph s) := subStep_running c f ph hf ha

theorem afterSubStep_extends (hwin : WindowBelow c s) (hf : s.filled ≤ s.len) (ha : admits s s.len = true) :
    Extends c s (afterSubStep c f ph s) := (subStep_extends c f ph hwin).of_running (subStep_eq hf ha)

theorem readBytes_afterSubStep (hwin : WindowBelow c s) (hw : Memory.wf c.unwritten s.mem = true) {j : Nat}
    (hj : j < slotCount c s.len s.filled s.nin) :
    Memory.readBytes c.unwritten (afterSubStep c f ph s).mem (s.filled + j * c.XB) c.XB =
      enc (ord c s.e) (slotOutput c (ord c s.e) f s.offset s.mem j) c.XB := by
  rcases slots_below c hwin with hzero | hbelow
  · omega
  · exact readBytes_copySlots hw hbelow hj

/-- The Alpha sub-step computes its window, then runs (`43_expansion.md` R125). -/
theorem alphaStep_eq (p : Nat) (hf : s.filled ≤ s.len) (ha : admits s s.len = true) :
    alphaStep c p s = .running
      (afterSubStep c (transformA c p) .expAlpha { s with nin := inputWindow c s.filled s.offset }) := subStep_eq hf ha

/-- The Beta sub-step keeps or renews the window, then runs (`43_expansion.md` R128). -/
theorem betaStep_eq (p : Nat) (hf : s.filled < s.len) (ha : admits s s.len = true) :
    betaStep c p s = .running (afterSubStep c (transformB c p) .expBeta { s with nin := betaWindow c s }) :=
  betaStep_running c p hf ha

end SubSteps

/-- Settles O40: the sub-step over the window it computes, which lies below `FILLED`. -/
theorem alphaSubStep : Obligations.AlphaSubStep := by
  intro p s hw hf ha
  have hwin := windowBelow_input cfg s
  have hslots := fun j => readBytes_afterSubStep (f := transformA cfg p) (ph := .expAlpha) hwin hw (j := j)
  have hx := afterSubStep_extends (f := transformA cfg p) (ph := .expAlpha) hwin hf ha
  exact ⟨_, alphaStep_eq p hf ha, rfl, rfl, hslots, hx.read hw, rfl⟩

/-- Settles O41, by whether space remains; the window the sub-step keeps or renews lies below `FILLED`. -/
theorem betaSubStep : Obligations.BetaSubStep := by
  intro p s hw ha hbelow
  refine ⟨fun hfull => betaStep_full cfg p hfull.not_gt, fun hspace => ?_⟩
  have hwin := windowBelow_beta cfg hbelow
  have hslots := fun j => readBytes_afterSubStep (f := transformB cfg p) (ph := .expBeta) hwin hw (j := j)
  have hx := afterSubStep_extends (f := transformB cfg p) (ph := .expBeta) hwin hspace.le ha
  exact ⟨_, betaStep_eq p hspace ha, rfl, rfl, hslots, hx.read hw, rfl⟩

end Sys2Proof.Machine
end

section
/-!
PROOFS. EXPAND and the expansion phase of FILL as commands (`43_expansion.md` R137): every window in the finished
buffer, the fallback bytes, the registers a completing command leaves, and the underrun.
-/

namespace Sys2Proof.Machine

open Sys2Proof.Safety

section Windows

variable {c : Config} {o : ByteOrder} {f : BitVec c.XW → BitVec c.XW} {ph : Phase} {s s' : State} {m : Memory}

/-! ## The windows of one iteration -/

/-- Slots `0 .. n-1` stand in `m` as `43_expansion.md` R126 and R129 say of the integers in `m` itself. -/
def SlotsHold (c : Config) (o : ByteOrder) (f : BitVec c.XW → BitVec c.XW) (src dst n : Nat) (m : Memory) : Prop :=
  ∀ j, j < n → Memory.readBytes c.unwritten m (dst + j * c.XB) c.XB = enc o (slotOutput c o f src m j) c.XB

/-- Both windows of the iteration with step `p` that starts at `filled` and `offset` stand in `m`. -/
def IterationHolds (c : Config) (o : ByteOrder) (len p filled offset : Nat) (m : Memory) : Prop :=
  SlotsHold c o (transformA c p) offset filled (slotCount c len filled (inputWindow c filled offset)) m ∧
  SlotsHold c o (transformB c p) offset (alphaEnd c len filled offset)
    (slotCount c len (alphaEnd c len filled offset) (betaInput c filled (alphaEnd c len filled offset) offset)) m

theorem slotsHold_full {src dst len filled nin : Nat} (h : len ≤ filled) :
    SlotsHold c o f src dst (slotCount c len filled nin) m := fun j hj => by
  rw [slotCount_full c nin h] at hj
  exact absurd hj (Nat.not_lt_zero j)

theorem iterationHolds_full {len p filled offset : Nat} (h : len ≤ filled) :
    IterationHolds c o len p filled offset m :=
  ⟨slotsHold_full h, slotsHold_full (h.trans (Nat.le_add_right _ _))⟩

/-- What a sub-step wrote stands in every memory that keeps the bytes below its end: its input lies there too. -/
theorem afterSubStep_slotsHold (hwin : WindowBelow c s) (hw : Memory.wf c.unwritten s.mem = true)
    (hf : s.filled ≤ s.len) (ha : admits s s.len = true)
    (hm : AgreeBelow c (afterSubStep c f ph s).filled m (afterSubStep c f ph s).mem) :
    SlotsHold c (ord c s.e) f s.offset s.filled (slotCount c s.len s.filled s.nin) m := by
  intro j hj
  have hx := afterSubStep_extends (f := f) (ph := ph) hwin hf ha
  have hend := slot_end_le (B := c.XB) hj
  have hfilled : (afterSubStep c f ph s).filled = s.filled + slotCount c s.len s.filled s.nin * c.XB := rfl
  have hinput : AgreeBelow c s.filled m s.mem := (hm.mono hx.filled_le).trans (hx.agreeBelow hw)
  rcases slots_below c hwin with hzero | hbelow
  · omega
  · rw [hm.readBytes (by omega), readBytes_afterSubStep hwin hw hj, slotOutput_congr hinput (by omega)]

/-- The Alpha window after the Alpha sub-step on a buffer the platform admits. -/
theorem alphaStep_slotsHold {p : Nat} (hw : Memory.wf c.unwritten s.mem = true) (hf : s.filled ≤ s.len)
    (ha : admits s s.len = true) (h : alphaStep c p s = .running s') (hm : AgreeBelow c s'.filled m s'.mem) :
    SlotsHold c (ord c s.e) (transformA c p) s.offset s.filled
      (slotCount c s.len s.filled (inputWindow c s.filled s.offset)) m := by
  cases (alphaStep_eq p hf ha).symm.trans h
  exact afterSubStep_slotsHold (s := { s with nin := inputWindow c s.filled s.offset }) (windowBelow_input c s) hw hf ha
    hm

/-- The Beta window after the Beta sub-step on a buffer the platform admits, with space left or without. -/
theorem betaStep_slotsHold {p : Nat} (hwin : WindowBelow c s) (hw : Memory.wf c.unwritten s.mem = true)
    (ha : admits s s.len = true) (h : betaStep c p s = .running s') (hm : AgreeBelow c s'.filled m s'.mem) :
    SlotsHold c (ord c s.e) (transformB c p) s.offset s.filled (slotCount c s.len s.filled (betaWindow c s)) m := by
  by_cases hspace : s.filled < s.len
  · cases (betaStep_eq p hspace ha).symm.trans h
    exact afterSubStep_slotsHold (s := { s with nin := betaWindow c s }) (windowBelow_beta c hwin) hw hspace.le ha hm
  · exact slotsHold_full (not_lt.mp hspace)

theorem andThen_running_iff {p : Progress} {g : State → Progress} {t : State} :
    p.andThen g = .running t ↔ ∃ u, p = .running u ∧ g u = .running t := by
  cases p with
  | running u => simp [Progress.andThen]
  | raised cause u => simp [Progress.andThen]

/-- Both windows of an iteration stand in every memory that keeps the bytes below its end. -/
theorem iteration_holds (hw : Memory.wf c.unwritten s.mem = true) (hf : s.filled ≤ s.len) (ha : admits s s.len = true)
    (h : iteration c s = .running s') (hm : AgreeBelow c s'.filled m s'.mem) :
    IterationHolds c (ord c s.e) s.len (stepAt c s.kidx) s.filled s.offset m := by
  obtain ⟨s₂, h₂, hnext⟩ := andThen_running_iff.mp h
  obtain ⟨s₁, halpha, hbeta⟩ := andThen_running_iff.mp h₂
  cases hnext
  have hwin := alphaStep_window c halpha
  have hxA := (alphaStep_extends c _ s).of_running halpha
  have hxB := (betaStep_extends c _ hwin).of_running hbeta
  have hw₁ := hxA.wf hw
  have ha₁ : admits s₁ s₁.len = true := by rw [hxA.len, admits_congr hxA.attached]; exact ha
  have hslotsA := alphaStep_slotsHold hw hf ha halpha ((hm.mono hxB.filled_le).trans (hxB.agreeBelow hw₁))
  have hslotsB := betaStep_slotsHold hwin hw₁ ha₁ hbeta hm
  cases (alphaStep_eq _ hf ha).symm.trans halpha
  exact ⟨hslotsA, hslotsB⟩

/-! ## The windows of the loop -/

theorem growLoop_full {len filled : Nat} (k offset : Nat) (h : len ≤ filled) :
    growLoop c len k filled offset = filled :=
  growLoop_short c k filled offset (by have := Config.XB_pos c; omega)

/-- The windows of every iteration stand in every memory that keeps the bytes below the end of the loop; an iteration
after that has none. -/
theorem expandLoop_holds (n : Nat) (hw : Memory.wf c.unwritten s.mem = true) (hf : s.filled ≤ s.len)
    (ha : admits s s.len = true) (hk : s.kidx + n ≤ c.params.stepList.length) (h : expandLoop c n s = .running s')
    (hm : AgreeBelow c s'.filled m s'.mem) {k : Nat} (hkn : k < n) :
    IterationHolds c (ord c s.e) s.len (stepAt c (s.kidx + k)) (growLoop c s.len k s.filled s.offset)
      (Nat.iterate (nextOffset c) k s.offset) m := by
  induction n generalizing s k with
  | zero => exact absurd hkn (Nat.not_lt_zero k)
  | succ n ih =>
    by_cases hlt : s.filled < s.len
    · obtain ⟨s₁, h₁, hx, hfilled, hoffset, hkidx⟩ := iteration_running c hf ha
      rw [expandLoop, if_pos ⟨hlt, by omega⟩, h₁] at h
      have hrest := (expandLoop_extends c n s₁).of_running h
      cases k with
      | zero => exact iteration_holds hw hf ha h₁ ((hm.mono hrest.filled_le).trans (hrest.agreeBelow (hx.wf hw)))
      | succ k =>
        have hnext := ih (s := s₁) (k := k) (hx.wf hw) (by rw [hx.len]; exact hx.filled_le_len hf)
          (by rw [hx.len, admits_congr hx.attached]; exact ha) (by omega) h (by omega)
        rw [hx.len, hx.e, hfilled, hoffset, hkidx, Nat.add_right_comm] at hnext
        rw [growLoop, if_pos hlt, Function.iterate_succ_apply]
        exact hnext
    · rw [growLoop_full k _ (not_lt.mp hlt)]
      exact iterationHolds_full (not_lt.mp hlt)

end Windows

/-! ## EXPAND that completes (`43_expansion.md` R132 to R137) -/

section Completes

variable {c : Config} {s s₁ : State}

/-- What a completing expansion leaves when its loop ended in `s`: the fallback pass done, the block idle. -/
def expansionEnd (c : Config) (s : State) : State :=
  complete { flagUnderfill c (s.len - s.filled) s with
    mem := fallbackBytes c (s.len - s.filled) s.filled s.mem (s.len - s.filled) }

/-- A command whose loop leaves nothing, or no more than it filled on a buffer the platform admits, completes. -/
theorem finish_fallbackPass (lo : Nat) (hle : s.len - s.filled ≤ s.filled)
    (ha : s.len ≤ s.filled ∨ admits s s.len = true) :
    finish c lo (fallbackPass c s) = .next (expansionEnd c s) := by
  have hB := Config.XB_pos c
  rcases fallbackPass_cases c s with ⟨hzero, h⟩ | ⟨hmore, -⟩ | ⟨-, -, -, h⟩ | ⟨hpos, -, hno, -⟩
  · rw [h, expansionEnd, hzero, flagUnderfill, decide_eq_false (by omega), Bool.or_false]
    rfl
  · omega
  · rw [h]
    rfl
  · rcases ha with hfull | hyes
    · omega
    · exact absurd (hno.symm.trans hyes) (by decide)

/-- Every byte after a completing expansion: the fallback bytes, and the rest as the loop left it. -/
theorem bufByte_expansionEnd (hw : Memory.wf c.unwritten s.mem = true) (hle : s.len - s.filled ≤ s.filled) (a : Nat) :
    bufByte c (expansionEnd c s) a =
      if s.filled ≤ a ∧ a < s.len then fallbackByte (bufByte c s (a - (s.len - s.filled))) else bufByte c s a := by
  have hrange : (s.filled ≤ a ∧ a < s.filled + (s.len - s.filled)) ↔ s.filled ≤ a ∧ a < s.len := by omega
  have hread := read_fallbackBytes c (s.len - s.filled) s.filled hw hle a _ le_rfl
  simp only [hrange] at hread
  exact hread

/-- The fallback pass writes nothing below the end of the loop. -/
theorem expansionEnd_agreeBelow (hw : Memory.wf c.unwritten s.mem = true) (hle : s.len - s.filled ≤ s.filled) :
    AgreeBelow c s.filled (expansionEnd c s).mem s.mem := fun a ha =>
  (bufByte_expansionEnd hw hle a).trans (if_neg fun h => absurd ha h.1.not_gt)

/-- Where the loop of an expansion ends when it owes nothing, or on a buffer the platform admits. -/
theorem expandLoop_end (h : s.len ≤ s.f0 ∨ admits s s.len = true) :
    ∃ s₁, expandLoop c c.params.stepList.length (expandStart s) = .running s₁ ∧ Extends c (expandStart s) s₁ ∧
      s₁.filled = reach c s.len s.f0 := by
  rcases h with hfull | ha
  · have hB := Config.XB_pos c
    have hstop : ¬ (expandStart s).filled < (expandStart s).len := by
      simp only [expandStart_filled, expandStart_len]
      omega
    refine ⟨expandStart s, ?_, Extends.refl _, (reach_short c (by omega)).symm⟩
    cases c.params.stepList.length with
    | zero => rfl
    | succ n => rw [expandLoop, if_neg fun hrun => hstop hrun.1]
  · exact expandLoop_reach c ha

/-- An expansion whose loop leaves no more than it filled completes, after the loop and the fallback pass. -/
theorem finish_expansion (lo : Nat) (h : s.len ≤ s.f0 ∨ admits s s.len = true) (hu : ¬ Underruns c s.len s.f0) :
    ∃ s₁, expandLoop c c.params.stepList.length (expandStart s) = .running s₁ ∧ Extends c (expandStart s) s₁ ∧
      s₁.filled = reach c s.len s.f0 ∧ s₁.len - s₁.filled ≤ s₁.filled ∧
      finish c lo (expansion c s) = .next (expansionEnd c s₁) := by
  obtain ⟨s₁, hloop, hx, hfilled⟩ := expandLoop_end (c := c) h
  have hlen : s₁.len = s.len := hx.len
  have hle : s₁.len - s₁.filled ≤ s₁.filled := by
    rw [hlen, hfilled]
    exact not_lt.mp hu
  have hadmit : s₁.len ≤ s₁.filled ∨ admits s₁ s₁.len = true := by
    refine h.imp (fun hfull => ?_) fun ha => ?_
    · have hstart := hx.filled_le
      simp only [expandStart_filled] at hstart
      omega
    · rw [hlen, admits_congr hx.attached]
      exact ha
  refine ⟨s₁, hloop, hx, hfilled, hle, ?_⟩
  rw [expansion_eq, hloop]
  exact finish_fallbackPass lo hle hadmit

/-- EXPAND whose loop leaves no more than it filled: the loop from the latched operands, then the fallback pass
(`43_expansion.md` R137). -/
theorem expandIn_completes {len f0 : BitVec 64} (e : EndianMode) (x : ExecMode)
    (h : len.toNat ≤ f0.toNat ∨ admits s len.toNat = true) (hu : ¬ Underruns c len.toNat f0.toNat) :
    ∃ s₁, expandLoop c c.params.stepList.length (expandStart (fillBegun len.toNat f0.toNat e s)) = .running s₁ ∧
      Extends c (expandStart (fillBegun len.toNat f0.toNat e s)) s₁ ∧ s₁.len = len.toNat ∧
      s₁.filled = reach c len.toNat f0.toNat ∧ s₁.len - s₁.filled ≤ s₁.filled ∧
      expandIn c len f0 e x s = .next (expansionEnd c s₁) := by
  obtain ⟨s₁, hloop, hx, hfilled, hle, hend⟩ :=
    finish_expansion (c := c) (s := fillBegun len.toNat f0.toNat e s) (min f0.toNat len.toNat) h hu
  exact ⟨s₁, hloop, hx, hx.len, hfilled, hle, hend⟩

/-- What the loop of an expansion keeps, seen from the command that begins it. -/
theorem Extends.bufByte_of_start (hx : Extends c (expandStart s) s₁) (hw : Memory.wf c.unwritten s.mem = true) {a : Nat}
    (ha : a < min s.f0 s.len ∨ s.len ≤ a) : bufByte c s₁ a = bufByte c s a := by
  have hend := hx.filled_le_len (expandStart_filled_le s)
  simp only [expandStart_len] at hend
  exact hx.read hw a (ha.imp_right fun h => hend.trans h)

end Completes

/-- Settles O44: the loop writes between the two values of `FILLED`, the fallback pass from there to `LEN`. -/
theorem expandCompletes : Obligations.ExpandCompletes := by
  intro len f0 e x s hw h hu
  obtain ⟨s₁, -, hx, hlen, hfilled, hle, hend⟩ := expandIn_completes (c := cfg) e x h hu
  refine ⟨expansionEnd cfg s₁, hend, ?_, fun a ha => ?_⟩
  · rw [remaining, ← hfilled, hx.frame]
    rfl
  · have hkept : bufByte cfg s₁ a = bufByte cfg s a := hx.bufByte_of_start hw ha
    have hstart : min f0.toNat len.toNat ≤ s₁.filled := hx.filled_le
    rw [bufByte_expansionEnd (hx.wf hw) hle, if_neg (by omega), hkept]

/-- Settles O45: the loop left every window, and the fallback pass writes above them. -/
theorem expandEveryWindow : Obligations.ExpandEveryWindow := by
  intro len f0 e x s hw ha hu
  obtain ⟨s₁, hloop, hx, -, -, hle, hend⟩ := expandIn_completes (c := cfg) e x (.inr ha) hu
  refine ⟨expansionEnd cfg s₁, hend, fun k hk => ?_⟩
  have hholds := expandLoop_holds (s := expandStart (fillBegun len.toNat f0.toNat e s)) _ hw (expandStart_filled_le _)
    ha (Nat.zero_add _).le hloop (expansionEnd_agreeBelow (hx.wf hw) hle) hk
  rw [expandStart_kidx, Nat.zero_add] at hholds
  exact hholds

/-- The fallback function as a rotation to the right (`43_expansion.md` R133). -/
theorem fallbackByte_eq (b : Byte) : fallbackByte b = b.rotateRight 2 := BitVec.or_comm _ _

/-- Settles O46: a fallback byte is written from below the end of the loop, where nothing changes any more. -/
theorem expandFallbackBytes : Obligations.ExpandFallbackBytes := by
  intro len f0 e x s hw ha hu
  obtain ⟨s₁, -, hx, hlen, hfilled, hle, hend⟩ := expandIn_completes (c := cfg) e x (.inr ha) hu
  refine ⟨expansionEnd cfg s₁, hend, fun i hlo hhi => ?_⟩
  have hread := bufByte_expansionEnd (hx.wf hw) hle
  rw [remaining, ← hfilled, ← hlen, hread i, if_pos (by omega), hread, if_neg (by omega), fallbackByte_eq]

/-! ## The underrun (`43_expansion.md` R132, `60_exceptions.md` R163) -/

section Underrun

variable {c : Config} {s : State}

/-- What FALLBACK_UNDERRUN leaves when the loop ended in `s` and the command owes the bytes from `lo` on. -/
def underrunEnd (c : Config) (lo : Nat) (s : State) : State :=
  raise .fallbackUnderrun (loseState c lo { s with phase := .expFallback })

theorem finish_underrun (lo : Nat) (ha : admits s s.len = true) (hu : Underruns c s.len s.f0) :
    ∃ s₁, Extends c (expandStart s) s₁ ∧ finish c lo (expansion c s) = .next (underrunEnd c lo s₁) := by
  obtain ⟨s₁, hx, -, ⟨hzero, -⟩ | ⟨-, h⟩ | ⟨-, hnot, -⟩⟩ := expansion_running c ha
  · rw [Underruns, hzero] at hu
    exact absurd hu (Nat.not_lt_zero _)
  · exact ⟨s₁, hx, by rw [h]; rfl⟩
  · exact absurd hu hnot

/-- The losses of the fault stop at the bytes the command owes. -/
theorem bufByte_underrunEnd {lo a : Nat} (hw : Memory.wf c.unwritten s.mem = true) (ha : a < lo ∨ s.len ≤ a) :
    bufByte c (underrunEnd c lo s) a = bufByte c s a :=
  (Memory.read_scramble hw lo a (s.len - lo)).trans (if_neg (by omega))

/-- The first fault enters with its own cause (`60_exceptions.md` R161). -/
theorem raise_of_no_fault (cause : Cause) (hf : s.fault = false) :
    raise cause s = { s with fault := true, cause := cause, phase := .faulted, busy := false } := by
  rw [raise, hf]
  rfl

theorem underrunEnd_of_no_fault (lo : Nat) (hf : s.fault = false) :
    underrunEnd c lo s = { loseState c lo s with
      fault := true, cause := .fallbackUnderrun, phase := .faulted, busy := false } :=
  raise_of_no_fault _ hf

/-- The lane fill of a length the platform admits runs on; it touches its own registers and no byte from `len` on. -/
theorem laneFill_running {len : Nat} (ha : admits s len = true) :
    ∃ s', laneFill c len s = .running s' ∧
      s' = { s with S := s'.S, L := s'.L, mem := s'.mem, t := s'.t, phase := s'.phase } ∧
      (Memory.wf c.unwritten s.mem = true → Memory.wf c.unwritten s'.mem = true ∧
        ∀ a, len ≤ a → bufByte c s' a = bufByte c s a) := by
  rcases laneFill_cases c len s with ⟨-, h⟩ | ⟨-, -, h⟩ | ⟨-, hno, -⟩
  · exact ⟨s, h, rfl, fun hw => ⟨hw, fun _ _ => rfl⟩⟩
  · have hframe := lanePhases_frame c len s
    refine ⟨_, h, ?_, fun hw => ⟨lanePhases_wf c len hw, fun a hle => ?_⟩⟩
    · generalize lanePhases c len s = s' at hframe ⊢
      rw [hframe]
    · have hslots := Nat.div_mul_le_self len c.WB
      rw [read_lanePhases c len hw, if_neg (by omega), if_neg (by omega)]
  · exact absurd (hno.symm.trans ha) (by decide)

end Underrun

/-- Settles O47: the loop and the losses both stay within the bytes EXPAND owes. -/
theorem expandUnderrunFaults : Obligations.ExpandUnderrunFaults := by
  intro len f0 e x s hw ha hf hu
  obtain ⟨s₁, hx, hend⟩ :=
    finish_underrun (s := fillBegun len.toNat f0.toNat e s) (min f0.toNat len.toNat) ha hu
  have hf₁ : s₁.fault = false := by rw [hx.frame]; exact hf
  have hlen : s₁.len = len.toNat := hx.len
  refine ⟨_, hend, ?_, fun a h => ?_⟩
  · rw [underrunEnd_of_no_fault _ hf₁, hx.frame]
    rfl
  · rw [bufByte_underrunEnd (hx.wf hw) (by rwa [hlen])]
    exact hx.bufByte_of_start hw h

/-- Settles O58: the lane fill, the loop and the losses all stay below `LEN`. -/
theorem fillUnderrunFaults : Obligations.FillUnderrunFaults := by
  intro c len e x s hw hf hne ha hu
  obtain ⟨s', hlane, hframe, hkeeps⟩ := laneFill_running (c := c)
    (s := fillBegun len.toNat (initialSegment c len.toNat) e s) (len := initialSegment c len.toNat)
    (admits_mono (s := s) (initialSegment_le c len.toNat) ha)
  obtain ⟨hw', hbytes⟩ := hkeeps hw
  have hlen' : s'.len = len.toNat := by rw [hframe]; rfl
  have hf0' : s'.f0 = initialSegment c len.toNat := by rw [hframe]; rfl
  have hatt : s'.attached = s.attached := by rw [hframe]; rfl
  obtain ⟨s₁, hx, hend⟩ := finish_underrun (c := c) (s := s') 0 (by rw [hlen', admits_congr hatt]; exact ha)
    (by rw [hlen', hf0']; exact hu)
  have hf₁ : s₁.fault = false := by rw [hx.frame, hframe]; exact hf
  have hlen : s₁.len = len.toNat := hx.len.trans hlen'
  refine ⟨underrunEnd c 0 s₁, ?_, ?_, fun a h => ?_⟩
  · rw [fillIn_of_ne hne, hlane]
    exact hend
  · rw [underrunEnd_of_no_fault _ hf₁, hx.frame, hframe]
    rfl
  · rw [bufByte_underrunEnd (hx.wf hw') (.inr (by rwa [hlen])), hx.bufByte_of_start hw' (.inr (by rwa [hlen']))]
    exact hbytes a ((initialSegment_le c len.toNat).trans h)

/-- Settles O43: neither meaning looks at the mode. -/
theorem executionModeHasNoEffect : Obligations.ExecutionModeHasNoEffect := fun _ _ _ _ => ⟨rfl, rfl⟩

end Sys2Proof.Machine
end

section
/-!
PROOFS. FILL as a command (`44_composite.md` R150 to R155): it is FILL_LANE of its initial segment and then EXPAND, so
what it leaves is what those two leave.
-/

namespace Sys2Proof.Machine

open Sys2Proof.Safety

section FillIsTwoCommands

variable {c : Config} {s : State}

/-! ## An expansion does not read `PHASE` -/

/-- `s` with its sequencer idle. -/
def State.withIdlePhase (s : State) : State := { s with phase := .idle }

theorem alphaStep_withIdlePhase (p : Nat) (hf : s.filled ≤ s.len) (ha : admits s s.len = true) :
    alphaStep c p s.withIdlePhase = alphaStep c p s :=
  (alphaStep_running c p (s := s.withIdlePhase) hf ha).trans (alphaStep_running c p hf ha).symm

theorem iteration_withIdlePhase (hf : s.filled ≤ s.len) (ha : admits s s.len = true) :
    iteration c s.withIdlePhase = iteration c s :=
  congrArg (fun p => (p.andThen (betaStep c (stepAt c s.kidx))).andThen fun s => .running (nextIteration c s))
    (alphaStep_withIdlePhase (stepAt c s.kidx) hf ha)

/-- A loop with an iteration to run forgets the `PHASE` it begins in. -/
theorem expandLoop_withIdlePhase {n : Nat} (hn : 0 < n) (hlt : s.filled < s.len)
    (hk : s.kidx < c.params.stepList.length) (ha : admits s s.len = true) :
    expandLoop c n s.withIdlePhase = expandLoop c n s := by
  obtain ⟨n, rfl⟩ := Nat.exists_eq_add_one.mpr hn
  have hidle : s.withIdlePhase.filled < s.withIdlePhase.len ∧ s.withIdlePhase.kidx < c.params.stepList.length :=
    ⟨hlt, hk⟩
  rw [expandLoop, expandLoop, if_pos hidle, if_pos ⟨hlt, hk⟩, iteration_withIdlePhase hlt.le ha]

/-- An expansion that finds every byte filled only initialises its registers. -/
theorem expansion_of_full (h : s.len ≤ s.f0) : expansion c s = .running (expandStart s) := by
  have hfull : (expandStart s).len ≤ (expandStart s).filled := le_min h le_rfl
  rw [expansion, if_neg hfull.not_gt, Progress.andThen, fallbackPass, if_pos (Nat.sub_eq_zero_of_le hfull)]

theorem finish_expansion_withIdlePhase (lo : Nat) (ha : admits s s.len = true) :
    finish c lo (expansion c s.withIdlePhase) = finish c lo (expansion c s) := by
  by_cases hfull : s.len ≤ s.f0
  · rw [expansion_of_full hfull, expansion_of_full (s := s.withIdlePhase) hfull]
    rfl
  · have hsteps := List.length_pos_of_ne_nil (Config.steps_ne_nil c)
    have hlt : (expandStart s).filled < (expandStart s).len := (Nat.min_le_left _ _).trans_lt (not_le.mp hfull)
    have hstart : expandStart s.withIdlePhase = (expandStart s).withIdlePhase := rfl
    rw [expansion_eq, expansion_eq, hstart, expandLoop_withIdlePhase hsteps hlt hsteps ha]

/-- A completing expansion owes no byte, wherever its losses would have begun. -/
theorem finish_expansion_lo (lo lo' : Nat) (ha : admits s s.len = true) (hu : ¬ Underruns c s.len s.f0) :
    finish c lo (expansion c s) = finish c lo' (expansion c s) := by
  obtain ⟨s₁, -, -, ⟨-, h⟩ | ⟨hunder, -⟩ | ⟨-, -, h⟩⟩ := expansion_running c ha
  · rw [h]
    rfl
  · exact absurd hunder hu
  · rw [h]
    rfl

/-! ## A lane fill reads neither `LEN` nor `F0` -/

/-- `s` with other lengths latched. -/
def State.withLengths (len f0 : Nat) (s : State) : State := { s with len := len, f0 := f0 }

theorem laneSlots_withLengths (n len f0 : Nat) (s : State) :
    laneSlots c n (s.withLengths len f0) = (laneSlots c n s).withLengths len f0 :=
  (Function.Semiconj.iterate_right (f := State.withLengths len f0) (ga := laneSlot c) (fun _ => rfl) n s).symm

theorem lanePhases_withLengths (n len f0 : Nat) (s : State) :
    lanePhases c n (s.withLengths len f0) = (lanePhases c n s).withLengths len f0 := by
  have hinit : laneInit c (s.withLengths len f0) = (laneInit c s).withLengths len f0 := rfl
  unfold lanePhases
  rw [hinit, laneSlots_withLengths]
  split <;> rfl

/-- The operands of a FILL latched before its lane fill, or after it by a command of their own. -/
theorem fillBegun_complete_lanePhases (n : Nat) (len f0 len' f0' : Nat) (e : EndianMode) (s : State) :
    fillBegun len f0 e (complete (lanePhases c n (fillBegun len' f0' e s))) =
      (lanePhases c n (fillBegun len f0 e s)).withIdlePhase := by
  have hbegun : fillBegun len f0 e s = (fillBegun len' f0' e s).withLengths len f0 := rfl
  rw [hbegun, lanePhases_withLengths, lanePhases_frame]
  rfl

/-! ## FILL is FILL_LANE of the initial segment, then EXPAND (`44_composite.md` R150) -/

/-- `seg` as the operand of a command. -/
def segment (c : Config) (len : BitVec 64) : BitVec 64 := BitVec.ofNat 64 (initialSegment c len.toNat)

variable {len : BitVec 64}

theorem segment_toNat (c : Config) (len : BitVec 64) : (segment c len).toNat = initialSegment c len.toNat :=
  (BitVec.toNat_ofNat _ _).trans (Nat.mod_eq_of_lt ((initialSegment_le c len.toNat).trans_lt len.isLt))

theorem segment_ne_zero (h : c.XB ≤ len.toNat) : segment c len ≠ 0#64 := fun hzero =>
  h.not_gt (lt_XB_of_initialSegment_eq_zero ((segment_toNat c len).symm.trans (congrArg BitVec.toNat hzero)))

/-- A FILL that does not underrun has at least one integer to fill (`44_composite.md` R155). -/
theorem XB_le_of_not_underruns {n : Nat} (hpos : 0 < n) (hu : ¬ Underruns c n (initialSegment c n)) : c.XB ≤ n :=
  not_lt.mp fun hlt => hu ((fillThresholds c n hpos).2 hlt).2

theorem ne_zero_of_XB_le (h : c.XB ≤ len.toNat) : len ≠ 0#64 := fun hzero => by
  rw [hzero] at h
  exact (Config.XB_pos c).not_ge h

theorem admits_segment (ha : admits s len.toNat = true) : admits s (segment c len).toNat = true := by
  rw [segment_toNat]
  exact admits_mono (initialSegment_le c len.toNat) ha

/-- A FILL that completes does what EXPAND does after FILL_LANE of the initial segment. -/
theorem fillIn_eq_expandIn (e : EndianMode) (x : ExecMode) (hB : c.XB ≤ len.toNat) (ha : admits s len.toNat = true)
    (hu : ¬ Underruns c len.toNat (segment c len).toNat) :
    fillIn c len e x s = expandIn c len (segment c len) e x (fillLaneEnd c (segment c len) e s) := by
  have hne := ne_zero_of_XB_le hB
  have hseg : (segment c len).toNat ≠ 0 := fun h => segment_ne_zero hB (BitVec.eq_of_toNat_eq h)
  have hadm : admits (fillBegun len.toNat (segment c len).toNat e s) (segment c len).toNat = true := admits_segment ha
  rw [fillIn_of_ne hne, ← segment_toNat, laneFill, if_neg hseg, if_pos hadm]
  have hframe := lanePhases_frame c (segment c len).toNat (fillBegun len.toNat (segment c len).toNat e s)
  have hbegun := fillBegun_complete_lanePhases (c := c) (segment c len).toNat len.toNat (segment c len).toNat
    (segment c len).toNat s.f0 e s
  generalize lanePhases c (segment c len).toNat (fillBegun len.toNat (segment c len).toNat e s) = u at hframe hbegun
  have ha' : admits u u.len = true := by rw [hframe]; exact ha
  have hu' : ¬ Underruns c u.len u.f0 := by rw [hframe]; exact hu
  calc finish c 0 (expansion c u)
      = finish c (min (segment c len).toNat len.toNat) (expansion c u) := finish_expansion_lo _ _ ha' hu'
    _ = finish c (min (segment c len).toNat len.toNat) (expansion c u.withIdlePhase) :=
        (finish_expansion_withIdlePhase _ ha').symm
    _ = expandIn c len (segment c len) e x (fillLaneEnd c (segment c len) e s) := by rw [← hbegun]; rfl

theorem admits_fillLaneEnd (len : BitVec 64) (e : EndianMode) {n : Nat} (ha : admits s n = true) :
    admits (fillLaneEnd c len e s) n = true := by
  rw [fillLaneEnd_frame]
  exact ha

theorem fillLaneEnd_wf (len : BitVec 64) (e : EndianMode) (hw : Memory.wf c.unwritten s.mem = true) :
    Memory.wf c.unwritten (fillLaneEnd c len e s).mem = true :=
  lanePhases_wf c len.toNat (s := fillBegun len.toNat s.f0 e s) hw

end FillIsTwoCommands

/-- Settles O53: neither the lane fill reads the lengths FILL latches beside it, nor the expansion the `PHASE` it begins
in. -/
theorem fillIsLaneFillThenExpand : Obligations.FillIsLaneFillThenExpand := by
  intro len e x s hne ha hu
  have hpos : 0 < len.toNat := Nat.pos_of_ne_zero fun h => hne (BitVec.eq_of_toNat_eq h)
  have hB := XB_le_of_not_underruns hpos hu
  rw [← segment_toNat] at hu
  have hlane : exec (.fillLane (segment cfg len) e) s = .next (fillLaneEnd cfg (segment cfg len) e s) :=
    fillLaneIn_completes (segment_ne_zero hB) e (admits_segment ha)
  have hfill : exec (.fill len e x) s =
      exec (.expand len (segment cfg len) e x) (fillLaneEnd cfg (segment cfg len) e s) :=
    fillIn_eq_expandIn e x hB ha hu
  obtain ⟨s₁, -, -, -, -, -, hend⟩ := expandIn_completes (c := cfg) (s := fillLaneEnd cfg (segment cfg len) e s) e x
    (.inr (admits_fillLaneEnd _ e ha)) hu
  have hexpand : exec (.expand len (segment cfg len) e x) (fillLaneEnd cfg (segment cfg len) e s) =
    .next (expansionEnd cfg s₁) := hend
  refine ⟨_, hfill.trans hexpand, ?_⟩
  rw [← segment]
  simp only [runCommands, hlane, hexpand]

/-- Settles O52: `S` is FILL_LANE's, of a segment of whole slots, and `UNDERFILL` is EXPAND's. -/
theorem fillCompletes : Obligations.FillCompletes := by
  intro len e x s hw hB ha hu
  rw [← segment_toNat] at hu ⊢
  have hfill := fillIn_eq_expandIn e x hB ha hu
  have hS := fillLaneEnd_S (c := cfg) (segment cfg len) e s
  rw [segment_toNat, if_pos (initialSegment_mod_WB cfg len.toNat), ← segment_toNat] at hS
  obtain ⟨t, ht, hframe, hkept⟩ := expandCompletes len (segment cfg len) e x (fillLaneEnd cfg (segment cfg len) e s)
    (fillLaneEnd_wf _ e hw) (.inr (admits_fillLaneEnd _ e ha)) hu
  refine ⟨t, hfill.trans ht, ?_, fun a hlen => ?_⟩
  · rw [hframe, ← hS, fillLaneEnd_frame]
  · have hseg : (segment cfg len).toNat ≤ a := by
      rw [segment_toNat]
      exact (initialSegment_le cfg len.toNat).trans hlen
    have hslots := (Nat.div_mul_le_self (segment cfg len).toNat cfg.WB).trans hseg
    rw [hkept a (.inr hlen), bufByte_fillLaneEnd _ e hw, if_neg hslots.not_gt, if_neg hseg.not_gt]

/-! ## The first expanded integer (`44_composite.md` R151) -/

section FirstInteger

variable {c : Config}

/-- `dec` undoes `enc` at a width known only to be `n` bytes. -/
theorem dec_enc_of_width {w n : Nat} (hw : w = 8 * n) (o : ByteOrder) (v : BitVec w) : dec w o (enc o v n) = v := by
  subst hw
  exact dec_enc o v

/-- The windows of the first iteration of an EXPAND that completes. -/
theorem expandIn_firstIteration {len f0 : BitVec 64} (e : EndianMode) (x : ExecMode) {s : State}
    (hw : Memory.wf c.unwritten s.mem = true) (ha : admits s len.toNat = true)
    (hu : ¬ Underruns c len.toNat f0.toNat) :
    ∃ t, expandIn c len f0 e x s = .next t ∧
      IterationHolds c (ord c e) len.toNat (stepAt c 0) (min f0.toNat len.toNat) 1 t.mem := by
  obtain ⟨s₁, hloop, hx, -, -, hle, hend⟩ := expandIn_completes (c := c) e x (.inr ha) hu
  have hfirst := expandLoop_holds (s := expandStart (fillBegun len.toNat f0.toNat e s)) _ hw
    (expandStart_filled_le _) ha (Nat.zero_add _).le hloop (expansionEnd_agreeBelow (hx.wf hw) hle)
    (List.length_pos_of_ne_nil (Config.steps_ne_nil c))
  exact ⟨_, hend, hfirst⟩

end FirstInteger

/-- Settles O56: the first Alpha slot of the expansion, whose window holds an integer and whose output fits. -/
theorem fillFirstExpandedInteger : Obligations.FillFirstExpandedInteger := by
  intro c len e x s hw ha hu hinit hlen
  have hB := Config.XB_pos c
  have hwhole : c.params.initRangeSize ≤ len.toNat / c.XB * c.XB := by
    have := lt_wholeIntegers_add c len.toNat
    omega
  have hseg : initialSegment c len.toNat = c.params.initRangeSize := Nat.min_eq_left hwhole
  rw [← segment_toNat] at hu
  obtain ⟨t, ht, halpha, -⟩ := expandIn_firstIteration e x (fillLaneEnd_wf (segment c len) e hw)
    (admits_fillLaneEnd _ e ha) hu
  rw [segment_toNat, hseg, Nat.min_eq_left (by omega)] at halpha
  have hslot : 0 < slotCount c len.toNat c.params.initRangeSize (inputWindow c c.params.initRangeSize 1) :=
    lt_min (Nat.div_pos (by omega) hB) (Nat.div_pos (by omega) hB)
  have hfirst := halpha 0 hslot
  rw [Nat.zero_mul, Nat.add_zero, slotOutput, Nat.zero_mul, Nat.add_zero] at hfirst
  refine ⟨t, (fillIn_eq_expandIn e x (by omega) ha hu).trans ht, ?_⟩
  rw [hfirst, dec_enc_of_width (Config.XW_eq c)]
  rfl

/-! ## Lengths that leave nothing to the loop (`44_composite.md` R155) -/

section ShortLengths

variable {c : Config} {n : Nat}

/-- Up to one integer beyond `INIT_RANGE_SIZE` the initial segment is every whole integer of the buffer. -/
theorem initialSegment_of_short (h : n < c.params.initRangeSize + c.XB) : initialSegment c n = n - n % c.XB := by
  obtain ⟨k, hk⟩ := Nat.dvd_of_mod_eq_zero (Config.initRangeSize_mod c)
  have hdiv : n / c.XB < k + 1 := Nat.div_lt_of_lt_mul (by rwa [Nat.mul_succ, ← hk])
  have hinit : n / c.XB * c.XB ≤ c.params.initRangeSize := by
    rw [hk, Nat.mul_comm c.XB]
    exact Nat.mul_le_mul_right _ (Nat.lt_succ_iff.mp hdiv)
  rw [initialSegment, Nat.min_eq_right hinit]
  exact Nat.eq_sub_of_add_eq (Nat.div_add_mod' n c.XB)

theorem reach_of_short (h : n < c.params.initRangeSize + c.XB) : reach c n (initialSegment c n) = n - n % c.XB := by
  have hmod := Nat.mod_lt n (Config.XB_pos c)
  have hle := Nat.mod_le n c.XB
  rw [initialSegment_of_short h, reach_short c (by omega), Nat.min_eq_left (Nat.sub_le _ _)]

theorem remaining_of_short (h : n < c.params.initRangeSize + c.XB) :
    remaining c n (initialSegment c n) = n % c.XB := by
  rw [remaining, reach_of_short h, Nat.sub_sub_self (Nat.mod_le n c.XB)]

theorem not_underruns_of_short (hB : c.XB ≤ n) (h : n < c.params.initRangeSize + c.XB) :
    ¬ Underruns c n (initialSegment c n) := by
  have hmod := Nat.mod_lt n (Config.XB_pos c)
  have hone : c.XB ≤ n / c.XB * c.XB := Nat.le_mul_of_pos_left _ (Nat.div_pos hB (Config.XB_pos c))
  have hsum := Nat.div_add_mod' n c.XB
  rw [Underruns, reach_of_short h, remaining_of_short h]
  omega

end ShortLengths

/-- Settles O57: the whole integers are FILL_LANE's, and EXPAND leaves the bytes after them to the fallback pass. -/
theorem fillOfShortLengths : Obligations.FillOfShortLengths := by
  intro len e x s hw ha hB hshort
  have hu := not_underruns_of_short hB hshort
  have hmod := Nat.mod_lt len.toNat (Config.XB_pos cfg)
  obtain ⟨t, ht, hframe, habove⟩ := fillCompletes len e x s hw hB ha hu
  have hseg := segment_toNat cfg len
  rw [remaining_of_short hshort, decide_eq_false hmod.not_ge, Bool.or_false, initialSegment_of_short hshort] at hframe
  rw [← hseg] at hu
  have hw' := fillLaneEnd_wf (segment cfg len) e hw
  have ha' := admits_fillLaneEnd (c := cfg) (segment cfg len) e ha
  have hexpand : exec (.expand len (segment cfg len) e x) (fillLaneEnd cfg (segment cfg len) e s) = .next t :=
    (fillIn_eq_expandIn e x hB ha hu).symm.trans ht
  refine ⟨t, ht, hframe, fun slot hslot => ?_, fun i hlo hhi => ?_, habove⟩
  · obtain ⟨t', ht', -, hkept⟩ := expandCompletes len (segment cfg len) e x _ hw' (.inr ha') hu
    cases hexpand.symm.trans ht'
    rw [← initialSegment_of_short hshort, ← hseg] at hslot
    have hend := (slot_end_le (B := cfg.WB) hslot).trans (Nat.div_mul_le_self _ _)
    have hle : (segment cfg len).toNat ≤ len.toNat := hseg.trans_le (initialSegment_le cfg _)
    rw [← readBytes_fillLaneEnd _ e hw hslot]
    exact Memory.readBytes_congr fun a _ hlt => hkept a (.inl (by omega))
  · obtain ⟨t', ht', hfallback⟩ := expandFallbackBytes len (segment cfg len) e x _ hw' ha' hu
    cases hexpand.symm.trans ht'
    rw [hseg, reach_of_short hshort, remaining_of_short hshort] at hfallback
    exact hfallback i hlo hhi

end Sys2Proof.Machine
end

section
/-!
PROOFS. The faults (`60_exceptions.md`): what fault entry does, that the faulted state accepts no command and only reset
leaves it, and that a fill that owes bytes to a buffer shorter than `LEN` always faults.
-/

namespace Sys2Proof.Machine

open Sys2Proof.Safety

/-! ## Fault entry (`60_exceptions.md` R161) -/

theorem cmdReady_of_fault {s : State} (hf : s.fault = true) : cmdReady s = false := by simp [cmdReady, hf]

/-- Settles O7: `raise` is the update itself, and a block with a fault is not ready. -/
theorem raiseEntersFaultedState : Obligations.RaiseEntersFaultedState := fun _ _ => ⟨rfl, cmdReady_of_fault rfl⟩

/-! ## The faulted state (`60_exceptions.md` R161, R169) -/

section Faulted

variable {s t : State}

theorem step_without_input (hp : s.port = none) (hb : s.busy = false) : step s = .next s := by
  rw [step, portStep, hp]
  exact if_neg (Bool.eq_false_iff.mp hb)

theorem step_attach {size : Option Nat} {cells : List Host.Cell} (hp : s.port = some (.attach size cells))
    (hb : s.busy = false) : step s = .next (attachBuffer cfg size cells (takeInput s)) := by
  rw [step, portStep, hp]
  exact if_neg (Bool.eq_false_iff.mp hb)

/-- A block that is not ready has accepted no word that reset could cut short (`70_reset_and_hazards.md` R180). -/
theorem step_resetDuring_of_fault {w : CommandWord} (hp : s.port = some (.resetDuring w)) (hf : s.fault = true) :
    step s = .next (resetEvent cfg s) := by
  rw [step, portStep, hp]
  simp only [inputStep, resetDuringWord, cmdReady_of_fault hf]

/-- `t` is `s` but for what the host put there: the input on the ports and the buffer. -/
def SameBlock (s t : State) : Prop := t = { s with port := t.port, attached := t.attached, mem := t.mem }

theorem SameBlock.fault (h : SameBlock s t) : t.fault = s.fault := by rw [h]

theorem SameBlock.busy (h : SameBlock s t) : t.busy = s.busy := by rw [h]

theorem SameBlock.trans {u : State} (h : SameBlock s t) (h' : SameBlock t u) : SameBlock s u := by
  unfold SameBlock at h h' ⊢
  rw [h] at h'
  exact h'

/-- An input that is no reset leaves the faulted block as it is (`60_exceptions.md` R161). -/
theorem step_faulted {ev : HostEvent} (hf : s.fault = true) (hb : s.busy = false) (hreset : ev ≠ .reset)
    (hduring : ∀ w, ev ≠ .resetDuring w) : ∃ t, step { s with port := some ev } = .next t ∧ SameBlock s t := by
  cases ev with
  | present w => exact ⟨_, step_present_faulted (s := { s with port := some (.present w) }) rfl hf hb, rfl⟩
  | attach size cells => exact ⟨_, step_attach (s := { s with port := some (.attach size cells) }) rfl hb, rfl⟩
  | reset => exact absurd rfl hreset
  | resetDuring w => exact absurd rfl (hduring w)

/-- A sequence of inputs without a reset leaves the faulted block as it is (`60_exceptions.md` R169). -/
theorem runInputs_faulted {evs : List HostEvent} (hf : s.fault = true) (hb : s.busy = false)
    (hevs : ∀ ev ∈ evs, ev ≠ .reset ∧ ∀ w, ev ≠ .resetDuring w) : ∃ t, runInputs evs s = .next t ∧ SameBlock s t := by
  induction evs generalizing s with
  | nil => exact ⟨s, rfl, rfl⟩
  | cons ev evs ih =>
    obtain ⟨⟨hreset, hduring⟩, hrest⟩ := List.forall_mem_cons.mp hevs
    obtain ⟨u, hstep, hsame⟩ := step_faulted hf hb hreset hduring
    obtain ⟨t, hrun, hsame'⟩ := ih (hsame.fault.trans hf) (hsame.busy.trans hb) hrest
    refine ⟨t, ?_, hsame.trans hsame'⟩
    rw [runInputs, hstep]
    exact hrun

end Faulted

/-- Settles O8, by the input on the ports, and by induction over the inputs. -/
theorem faultedUntilReset : Obligations.FaultedUntilReset := by
  intro s hf hb
  refine ⟨?_, fun evs hevs => ?_⟩
  · cases hp : s.port with
    | none => exact step_without_input hp hb
    | some ev =>
      cases ev with
      | present w => exact step_present_faulted hp hf hb
      | attach size cells => exact ⟨_, step_attach hp hb, rfl, hf⟩
      | reset => exact ⟨_, step_reset hp, rfl, rfl⟩
      | resetDuring w => exact ⟨_, step_resetDuring_of_fault hp hf, rfl, rfl⟩
  · obtain ⟨t, hrun, hsame⟩ := runInputs_faulted hf hb hevs
    exact ⟨t, hrun, hsame, cmdReady_of_fault (hsame.fault.trans hf)⟩

/-! ## A lane fill of a short buffer (`60_exceptions.md` R164) -/

section ShortBuffer

variable {c : Config} {s t : State}

theorem admits_zero (s : State) : admits s 0 = true := by
  unfold admits
  cases s.attached with
  | none => rfl
  | some size => exact decide_eq_true (Nat.zero_le size)

theorem ne_zero_of_not_admits {n : Nat} (hno : admits s n = false) : n ≠ 0 := by
  rintro rfl
  exact Bool.false_ne_true (hno.symm.trans (admits_zero s))

theorem operand_ne_zero_of_not_admits {len : BitVec 64} (hno : admits s len.toNat = false) : len ≠ 0#64 := fun h =>
  ne_zero_of_not_admits hno (congrArg BitVec.toNat h)

/-- A lane fill beyond the extent raises before it has written a byte. -/
theorem laneFill_short {len : Nat} (hno : admits s len = false) : laneFill c len s = .raised .bufferAccess s := by
  rw [laneFill, if_neg (ne_zero_of_not_admits hno), hno]
  rfl

/-- FILL_LANE of a short buffer: its operands latched, then the fault with its losses (`60_exceptions.md` R161). -/
theorem fillLaneIn_short {len : BitVec 64} (e : EndianMode) (hno : admits s len.toNat = false) :
    fillLaneIn c len e s = .next (raise .bufferAccess (loseState c 0 (fillBegun len.toNat s.f0 e s))) := by
  rw [fillLaneIn_of_ne (operand_ne_zero_of_not_admits hno), laneFill_short (s := fillBegun len.toNat s.f0 e s) hno]
  rfl

/-! ## A short buffer is never filled (`60_exceptions.md` R164, R167) -/

/-- Bytes are still owed, and the buffer ends before the last of them. -/
def OwesBeyond (s : State) : Prop := s.filled < s.len ∧ admits s s.len = false

theorem subStep_of_not_admits {f : BitVec c.XW → BitVec c.XW} {ph : Phase}
    (hne : slotCount c s.len s.filled s.nin ≠ 0)
    (hno : admits s (s.filled + slotCount c s.len s.filled s.nin * c.XB) = false) :
    subStep c f ph s = .raised .bufferAccess s := if_neg (by simp [hne, hno])

/-- The slot that would fill the buffer is refused. -/
theorem subStep_owesBeyond (f : BitVec c.XW → BitVec c.XW) (ph : Phase) (h : OwesBeyond s) :
    OwesBeyond (subStep c f ph s).state := by
  obtain ⟨hlt, hno⟩ := h
  have hfits := slotCount_fits c s.nin hlt.le
  rcases hfits.lt_or_eq with hless | hfull
  · rcases subStep_cases c f ph s with h' | ⟨-, h'⟩ <;> rw [h']
    · exact ⟨hless, hno⟩
    · exact ⟨hlt, hno⟩
  · have hne : slotCount c s.len s.filled s.nin ≠ 0 := fun hzero => by
      rw [hzero, Nat.zero_mul] at hfull
      exact hlt.ne hfull
    rw [subStep_of_not_admits hne (by rwa [hfull])]
    exact ⟨hlt, hno⟩

theorem iteration_owesBeyond (h : OwesBeyond s) : OwesBeyond (iteration c s).state := by
  refine andThen_keeps OwesBeyond (andThen_keeps OwesBeyond ?_ fun s₁ h₁ => ?_) fun _ h₂ => h₂
  · exact subStep_owesBeyond (transformA c _) .expAlpha (s := { s with nin := inputWindow c s.filled s.offset }) h
  · have hspace : s₁.filled < s₁.len := h₁.left
    rw [betaStep, if_pos hspace]
    exact subStep_owesBeyond (transformB c _) .expBeta (s := { s₁ with nin := betaWindow c s₁ }) h₁

theorem expandLoop_owesBeyond (n : Nat) (h : OwesBeyond s) : OwesBeyond (expandLoop c n s).state := by
  induction n generalizing s with
  | zero => exact h
  | succ n ih =>
    rw [expandLoop]
    split
    · exact andThen_keeps OwesBeyond (iteration_owesBeyond h) fun _ => ih
    · exact h

/-! ## A loop that runs on ends where the lengths say (`40_mixer.md` R88) -/

/-- `s` on a memory that admits every address. -/
def State.unbounded (s : State) : State := { s with attached := none }

/-- Where `f` runs on, the extent of the buffer has not been seen. -/
def IgnoresExtent (f : State → Progress) : Prop :=
  ∀ ⦃s t : State⦄, f s = .running t → f s.unbounded = .running t.unbounded

theorem IgnoresExtent.andThen {f g : State → Progress} (hf : IgnoresExtent f) (hg : IgnoresExtent g) :
    IgnoresExtent fun s => (f s).andThen g := fun s t h => by
  obtain ⟨u, hu, ht⟩ := andThen_running_iff.mp h
  exact andThen_running_iff.mpr ⟨u.unbounded, hf hu, hg ht⟩

theorem subStep_ignoresExtent (f : BitVec c.XW → BitVec c.XW) (ph : Phase) : IgnoresExtent (subStep c f ph) :=
  fun s t h => by
    rcases subStep_cases c f ph s with h' | ⟨-, h'⟩ <;> cases h'.symm.trans h
    rcases subStep_cases c f ph s.unbounded with h' | ⟨hno, -⟩
    · exact h'
    · cases hno

theorem alphaStep_ignoresExtent (p : Nat) : IgnoresExtent (alphaStep c p) := fun s _ h =>
  subStep_ignoresExtent (transformA c p) .expAlpha (s := { s with nin := inputWindow c s.filled s.offset }) h

theorem betaStep_ignoresExtent (p : Nat) : IgnoresExtent (betaStep c p) := fun s t h => by
  by_cases hlt : s.filled < s.len
  · rw [betaStep, if_pos hlt] at h
    rw [betaStep, if_pos (show s.unbounded.filled < s.unbounded.len from hlt)]
    exact subStep_ignoresExtent (transformB c p) .expBeta (s := { s with nin := betaWindow c s }) h
  · rw [betaStep_full c p hlt] at h
    cases h
    exact betaStep_full c p (s := s.unbounded) hlt

theorem iteration_ignoresExtent : IgnoresExtent (iteration c) := fun s _ h =>
  ((alphaStep_ignoresExtent (stepAt c s.kidx)).andThen (betaStep_ignoresExtent _)).andThen
    (g := fun s => .running (nextIteration c s)) (fun _ _ h => by cases h; rfl) h

theorem expandLoop_ignoresExtent (n : Nat) : IgnoresExtent (expandLoop c n) := by
  induction n with
  | zero =>
    intro s t h
    cases h
    rfl
  | succ n ih =>
    intro s t h
    rw [expandLoop] at h ⊢
    split at h
    next hrun =>
      rw [if_pos (show s.unbounded.filled < s.unbounded.len ∧ s.unbounded.kidx < c.params.stepList.length from hrun)]
      exact iteration_ignoresExtent.andThen ih h
    next hstop =>
      cases h
      exact if_neg hstop

/-- On any buffer, a loop that runs on ends where it would end on one the platform admits. -/
theorem filled_of_expandLoop_running (h : expandLoop c c.params.stepList.length (expandStart s) = .running t) :
    t.filled = reach c s.len s.f0 := by
  obtain ⟨u, hu, -, hfilled⟩ := expandLoop_reach c (s := s.unbounded) rfl
  cases hu.symm.trans (expandLoop_ignoresExtent _ h)
  exact hfilled

/-! ## An expansion on a short buffer -/

theorem Extends.fault (hx : Extends c s t) : t.fault = s.fault := by rw [hx.frame]

/-- An expansion that owes bytes to a short buffer cannot end but in a fault (`60_exceptions.md` R164, R167). -/
theorem expansion_short (hlt : s.f0 < s.len) (hno : admits s s.len = false) :
    ∃ cause t, expansion c s = .raised cause t ∧ t.fault = s.fault ∧
      (cause = .bufferAccess ∨ (cause = .fallbackUnderrun ∧ Underruns c s.len s.f0)) := by
  have hstart : OwesBeyond (expandStart s) := ⟨(Nat.min_le_left _ _).trans_lt hlt, hno⟩
  have howes := expandLoop_owesBeyond (c := c) c.params.stepList.length hstart
  have hx := expandLoop_extends c c.params.stepList.length (expandStart s)
  rw [expansion_eq]
  cases hloop : expandLoop c c.params.stepList.length (expandStart s) with
  | raised cause t =>
    rw [hloop] at hx
    exact ⟨cause, t, rfl, hx.fault, .inl (expandLoop_raised hloop)⟩
  | running t =>
    rw [hloop] at hx howes
    obtain ⟨hpart, hrefused⟩ : t.filled < t.len ∧ admits t t.len = false := howes
    rcases fallbackPass_cases c t with ⟨hnone, -⟩ | ⟨hunder, h⟩ | ⟨-, -, hadmits, -⟩ | ⟨-, -, -, h⟩
    · exact absurd hnone (Nat.sub_pos_of_lt hpart).ne'
    · have hlen : t.len = s.len := hx.len
      rw [filled_of_expandLoop_running hloop, hlen] at hunder
      exact ⟨_, _, h, hx.fault, .inr ⟨rfl, hunder⟩⟩
    · exact absurd (hrefused.symm.trans hadmits) Bool.false_ne_true
    · exact ⟨_, _, h, hx.fault, .inl rfl⟩

/-- The first fault of a command under way, as its end shows it (`60_exceptions.md` R161). -/
theorem finish_raised (lo : Nat) (cause : Cause) (hf : s.fault = false) :
    ∃ t, finish c lo (.raised cause s) = .next t ∧ t.fault = true ∧ t.phase = .faulted ∧ t.busy = false ∧
      t.cause = cause :=
  ⟨_, rfl, rfl, rfl, rfl, by simp [hf]⟩

theorem finish_expansion_short (lo : Nat) (hf : s.fault = false) (hlt : s.f0 < s.len) (hno : admits s s.len = false) :
    ∃ t, finish c lo (expansion c s) = .next t ∧ t.fault = true ∧ t.phase = .faulted ∧ t.busy = false ∧
      (t.cause = .bufferAccess ∨ (t.cause = .fallbackUnderrun ∧ Underruns c s.len s.f0)) := by
  obtain ⟨cause, u, hraised, hfault, hcause⟩ := expansion_short (c := c) hlt hno
  obtain ⟨t, ht, hfaulted, hphase, hbusy, rfl⟩ := finish_raised (c := c) lo cause (hfault.trans hf)
  exact ⟨t, hraised ▸ ht, hfaulted, hphase, hbusy, hcause⟩

/-- A FILL under way: either its initial segment does not fit, or that ends below `LEN` and the expansion faults. -/
theorem finish_fill_short (lo : Nat) (hf : s.fault = false) (hle : s.f0 ≤ s.len) (hno : admits s s.len = false) :
    ∃ t, finish c lo ((laneFill c s.f0 s).andThen (expansion c)) = .next t ∧
      t.fault = true ∧ t.phase = .faulted ∧ t.busy = false ∧
      (t.cause = .bufferAccess ∨ (t.cause = .fallbackUnderrun ∧ Underruns c s.len s.f0)) := by
  cases hseg : admits s s.f0 with
  | false =>
    rw [laneFill_short hseg]
    obtain ⟨t, ht, hfaulted, hphase, hbusy, hcause⟩ := finish_raised (c := c) lo .bufferAccess hf
    exact ⟨t, ht, hfaulted, hphase, hbusy, .inl hcause⟩
  | true =>
    have hlt : s.f0 < s.len := hle.lt_of_ne fun h => by
      rw [h, hno] at hseg
      cases hseg
    obtain ⟨u, hlane, hframe, -⟩ := laneFill_running (c := c) hseg
    have hf' : u.fault = false := by rw [hframe]; exact hf
    have hlen : u.len = s.len := by rw [hframe]
    have hf0 : u.f0 = s.f0 := by rw [hframe]
    have hno' : admits u u.len = false := by rw [hlen, hframe]; exact hno
    have hend := finish_expansion_short (c := c) lo hf' (by rwa [hlen, hf0]) hno'
    rw [hlen, hf0] at hend
    rw [hlane]
    exact hend

end ShortBuffer

/-- Settles O37: the lane fill raises before it writes, and the losses stop at `LEN`. -/
theorem fillLaneOnShortBufferFaults : Obligations.FillLaneOnShortBufferFaults := by
  intro len e size s hw hf hsize hshort
  have hno : admits s len.toNat = false := by
    rw [admits, hsize]
    exact decide_eq_false hshort.not_ge
  refine ⟨_, fillLaneIn_short e hno,
    raise_of_no_fault (s := loseState cfg 0 (fillBegun len.toNat s.f0 e s)) _ hf, fun a ha => ?_⟩
  exact (Memory.read_scramble hw 0 a (len.toNat - 0)).trans (if_neg (by omega))

/-- Settles O48: EXPAND owes the bytes from `F0` on, and its expansion faults. -/
theorem expandOnShortBufferFaults : Obligations.ExpandOnShortBufferFaults := fun len f0 e _ s hf hlt hno =>
  finish_expansion_short (c := cfg) (s := fillBegun len.toNat f0.toNat e s) (min f0.toNat len.toNat) hf hlt hno

/-- Settles O59, from the state with the operands and the initial segment latched. -/
theorem fillOnShortBufferFaults : Obligations.FillOnShortBufferFaults := by
  intro len e x s hf hno
  have hfill : exec (.fill len e x) s = _ := fillIn_of_ne (c := cfg) (operand_ne_zero_of_not_admits hno) e x s
  rw [hfill]
  exact finish_fill_short (s := fillBegun len.toNat (initialSegment cfg len.toNat) e s) 0 hf
    (initialSegment_le cfg len.toNat) hno

end Sys2Proof.Machine
end

section
/-!
PROOFS. Reset during a command, attaching a buffer, and progress (`70_reset_and_hazards.md` R180, R181, R193).
-/

namespace Sys2Proof.Machine

/-! ## A command cut short by reset (R180) -/

section CutShort

variable {c : Config} {s : State} {w : CommandWord}

theorem step_resetDuring (hp : s.port = some (.resetDuring w)) : step s = .next (resetDuringWord cfg w s) := by
  rw [step, portStep, hp]
  rfl

/-- The length of a fill is `ARG0` of its word, and SEED and DISCARD own no byte (`30_encoding.md` R63). -/
theorem ownedBytes_le_arg0 {i : Instr} (h : decodeIn c w = .ok i) : ownedBytes i ≤ w.arg0.toNat := by
  have hops := operands_of_decodeIn c w h
  cases i with
  | seed value => exact Nat.zero_le _
  | discard count => exact Nat.zero_le _
  | fillLane len e =>
    obtain ⟨rfl, -⟩ := hops
    exact Nat.le_refl _
  | expand len f0 e x =>
    obtain ⟨rfl, -⟩ := hops
    exact Nat.le_refl _
  | fill len e x =>
    obtain ⟨rfl, -⟩ := hops
    exact Nat.le_refl _

theorem bufByte_loseBuffer (hw : Memory.wf c.unwritten s.mem = true) {n a : Nat} (ha : n ≤ a) :
    bufByte c (loseBuffer c n s) a = bufByte c s a :=
  (Memory.read_scramble hw 0 a n).trans (if_neg (by omega))

/-- A word cut short ends in the reset event, from the block as it was or with the buffer of an accepted command lost. -/
theorem resetDuringWord_cases (c : Config) (w : CommandWord) (s : State) :
    (∃ i, decodeIn c w = .ok i ∧ resetDuringWord c w s = resetEvent c (loseBuffer c (ownedBytes i) s)) ∨
    resetDuringWord c w s = resetEvent c s := by
  unfold resetDuringWord
  split
  next i _ hd => exact .inl ⟨i, hd, rfl⟩
  · exact .inr rfl

/-- A word cut short ends in the reset event of a block that has lost at most bytes below the word's `ARG0`. -/
theorem resetDuringWord_eq_resetEvent (w : CommandWord) (hw : Memory.wf c.unwritten s.mem = true) :
    ∃ u, resetDuringWord c w s = resetEvent c u ∧ u.attached = s.attached ∧
      ∀ a, w.arg0.toNat ≤ a → bufByte c u a = bufByte c s a := by
  rcases resetDuringWord_cases c w s with ⟨i, hd, h⟩ | h
  · exact ⟨_, h, rfl, fun a ha => bufByte_loseBuffer hw ((ownedBytes_le_arg0 hd).trans ha)⟩
  · exact ⟨s, h, rfl, fun _ _ => rfl⟩

end CutShort

/-- Settles O11: the step is a reset event, and only bytes below the length the word carries can have been lost. -/
theorem resetDuringCommand : Obligations.ResetDuringCommand := by
  intro s w hw hp
  obtain ⟨u, hu, hattached, hbytes⟩ := resetDuringWord_eq_resetEvent (c := cfg) w hw
  exact ⟨resetEvent cfg u, by rw [step_resetDuring hp, hu], remap_container_ne_zero cfg _,
    statusWord_eq_zero rfl rfl rfl rfl, rfl, rfl, hattached, rfl, hbytes⟩

/-! ## Attaching a buffer (R181) -/

section Attach

variable {d : Nat → Byte} {m : Memory} {cells : List Host.Cell} {a : Nat}

/-- Writing cells one after another leaves an address none of them names as it was. -/
theorem Memory.read_foldl_write_unlisted (hw : Memory.wf d m = true) (ha : ∀ p ∈ cells, p.1 ≠ a) :
    Memory.read d (cells.foldl (fun m p => Memory.write d m p.1 p.2) m) a = Memory.read d m a := by
  induction cells generalizing m with
  | nil => rfl
  | cons p ps ih =>
    obtain ⟨hp, hps⟩ := List.forall_mem_cons.mp ha
    rw [List.foldl_cons, ih (Memory.write_wf hw _ _) hps, Memory.read_write_other hw _ hp.symm]

/-- Of the cells that name an address the last is what it reads as. -/
theorem Memory.read_foldl_write_last (hw : Memory.wf d m = true) (front : List Host.Cell) (b : Byte)
    {back : List Host.Cell} (hback : ∀ p ∈ back, p.1 ≠ a) :
    Memory.read d ((front ++ (a, b) :: back).foldl (fun m p => Memory.write d m p.1 p.2) m) a = b := by
  have hfront := Memory.foldl_write_wf front m hw
  rw [List.foldl_append, List.foldl_cons, Memory.read_foldl_write_unlisted (Memory.write_wf hfront _ _) hback,
    Memory.read_write_same hfront]

/-- An address no cell names is named by none of those inside the extent. -/
theorem ne_of_mem_filter_extent (size : Option Nat) (ha : ∀ b, (a, b) ∉ cells) :
    ∀ p ∈ cells.filter (fun p => insideExtent size p.1), p.1 ≠ a := by
  rintro ⟨_, b⟩ hp rfl
  exact ha b (List.mem_of_mem_filter hp)

variable {c : Config} {size : Option Nat} {s : State}

theorem bufByte_attachBuffer_unlisted (ha : ∀ b, (a, b) ∉ cells) :
    bufByte c (attachBuffer c size cells s) a = c.unwritten a :=
  Memory.read_foldl_write_unlisted rfl (ne_of_mem_filter_extent size ha)

theorem bufByte_attachBuffer_last (front : List Host.Cell) (b : Byte) {back : List Host.Cell}
    (hback : ∀ b', (a, b') ∉ back) (hin : insideExtent size a = true) :
    bufByte c (attachBuffer c size (front ++ (a, b) :: back) s) a = b := by
  have hkept := List.filter_cons_of_pos (p := fun p : Host.Cell => insideExtent size p.1) (a := (a, b)) (l := back) hin
  rw [bufByte, attachBuffer_mem, List.filter_append, hkept]
  exact Memory.read_foldl_write_last rfl _ b (ne_of_mem_filter_extent size hback)

end Attach

/-- Settles O12: the cells inside the extent are written in order to an empty buffer. -/
theorem attachReplacesBuffer : Obligations.AttachReplacesBuffer := by
  intro s size cells hb hp
  refine ⟨_, step_attach hp hb, rfl, Memory.foldl_write_wf _ _ rfl, fun a ha => bufByte_attachBuffer_unlisted ha, ?_⟩
  rintro front back a b rfl hback hin
  exact bufByte_attachBuffer_last front b hback hin

/-! ## Progress (R193) -/

section Answers

variable {s : State}

theorem step_present {w : CommandWord} (hp : s.port = some (.present w)) : step s = presentWord cfg exec w s := by
  rw [step, portStep, hp]
  rfl

/-- An accepted word is performed or raises ILLEGAL_COMMAND; both answer a next state (`30_encoding.md` R65). -/
theorem perform_next (w : CommandWord) (s : State) : ∃ t, perform cfg exec w s = .next t := by
  unfold perform
  split
  next i _ => exact exec_next i s
  · exact ⟨_, rfl⟩

theorem presentWord_next (w : CommandWord) (hb : s.busy = false) : ∃ t, presentWord cfg exec w s = .next t := by
  unfold presentWord
  split
  · exact perform_next w (takeInput s)
  · exact ⟨s, if_neg (Bool.eq_false_iff.mp hb)⟩

/-- No step that starts with `BUSY = 0` stops: neither `midCommand` nor `bufferInUse` is reached. -/
theorem step_next (hb : s.busy = false) : ∃ t, step s = .next t := by
  cases hp : s.port with
  | none => exact ⟨s, step_without_input hp hb⟩
  | some ev =>
    cases ev with
    | present w =>
      rw [step_present hp]
      exact presentWord_next w hb
    | attach size cells => exact ⟨_, step_attach hp hb⟩
    | reset => exact ⟨_, step_reset hp⟩
    | resetDuring w => exact ⟨_, step_resetDuring hp⟩

end Answers

/-- Settles O15: in a legal state no command is under way. -/
theorem legalStepAnswersNext : Obligations.LegalStepAnswersNext := by
  rintro s ⟨hb, -⟩
  exact step_next hb

end Sys2Proof.Machine
end

section
/-!
PROOFS. Every word is one command or illegal (`30_encoding.md` R65, R66): the worked words, the list of the illegal
encodings, and what a ready block does with one.
-/

namespace Sys2Proof.Machine

open Sys2Proof.Safety

/-- Settles O1: closed evaluations; SEED's check looks at a small value before the width. -/
theorem decodeWorkedWords : Obligations.DecodeWorkedWords :=
  ⟨rfl, rfl, rfl, rfl, rfl, ⟨_, rfl⟩, ⟨_, rfl⟩, ⟨_, rfl⟩⟩

theorem exists_whenZero_eq_error {zero : Bool} {i : Instr} : (∃ err, whenZero zero i = .error err) ↔ zero = false := by
  cases zero <;> simp [whenZero]

/-- SEED's operand check fails exactly where R66 lists the word: a nonzero upper half at `W = 32`. -/
theorem valueFits_eq_false_iff (c : Config) (v : BitVec 64) :
    valueFits c v = false ↔ c.W = 32 ∧ v.extractLsb' 32 32 ≠ 0#32 := by
  have hupper : v.extractLsb' 32 32 = 0#32 ↔ v.toNat < 2 ^ 32 := by
    rw [BitVec.toNat_eq, BitVec.extractLsb'_toNat, Nat.shiftRight_eq_div_pow, BitVec.toNat_ofNat]
    omega
  rcases Config.W_cases c with hW | hW <;> simp [valueFits, hW, hupper]

/-- The decoder rejects exactly the words R66 lists, row by row. -/
theorem decodeIn_eq_error_iff (c : Config) (w : CommandWord) :
    (∃ err, decodeIn c w = .error err) ↔ IllegalEncoding c w := by
  by_cases hrsv : w.rsv = 0#54
  · rw [decodeIn, if_neg (not_not.mpr hrsv)]
    split
    case h_6 h1 h2 h3 h4 h5 =>
      -- no row of the opcode map
      have hop : w.op = 0x00#8 ∨ 6 ≤ w.op.toNat := by
        rw [BitVec.toNat_eq, BitVec.toNat_ofNat]
        simp only [imp_false] at h1 h2 h3 h4 h5
        omega
      refine iff_of_true ⟨_, rfl⟩ ?_
      rcases hop with hop | hop
      · exact .inl hop
      · exact .inr (.inl hop)
    all_goals
      next hop =>
      obtain ⟨-, hop⟩ := BitVec.toNat_eq_nat.mp hop
      rw [exists_whenZero_eq_error]
      simp [IllegalEncoding, hop, hrsv, valueFits_eq_false_iff, Bool.and_eq_false_iff, or_assoc, -Bool.and_eq_false_imp]
  · exact iff_of_true ⟨_, if_pos hrsv⟩ (.inr (.inr (.inl hrsv)))

/-- Settles O5: the decoder's rows against the list, and fault entry of a block that was ready. -/
theorem illegalWordRaisesIllegalCommand : Obligations.IllegalWordRaisesIllegalCommand := by
  refine ⟨decodeIn_eq_error_iff cfg, fun s w hport hready hillegal => ?_⟩
  obtain ⟨err, herr⟩ := (decodeIn_eq_error_iff cfg w).mpr hillegal
  obtain ⟨hbusy, hfault⟩ := (cmdReady_iff s).mp hready
  rw [step_present hport, presentWord, if_pos hready, perform, herr]
  dsimp only
  -- fault entry clears `BUSY`, which a ready block has clear
  rw [raise_of_no_fault (s := takeInput s) _ hfault, ← hbusy]
  rfl

end Sys2Proof.Machine
end

section
/-!
PROOFS. `M` is a bijection (`40_mixer.md` R83), and sequences of SEED and DISCARD (`41_seed_state.md` R91, R93).
-/

namespace Sys2Proof.Machine

open Sys2Proof.Safety

/-! ## `M` is a bijection (`40_mixer.md` R83) -/

/-- `M` is linear over XOR. -/
theorem mix_xor {w : Nat} (sh : Shifts) (x y : BitVec w) : mix sh (x ^^^ y) = mix sh x ^^^ mix sh y := by
  simp only [mix, BitVec.shiftLeft_xor_distrib, BitVec.ushiftRight_xor_distrib]
  ac_rfl

/-- A linear map whose only zero is zero is one to one. -/
theorem mix_injective {w : Nat} {sh : Shifts} (ha : 1 ≤ sh.a) (hb : 1 ≤ sh.b) (hc : 1 ≤ sh.c) :
    Function.Injective (mix sh : BitVec w → BitVec w) := by
  intro x y h
  have hzero : mix sh (x ^^^ y) = 0#w := by rw [mix_xor, h, BitVec.xor_self]
  by_contra hne
  exact mix_ne_zero ha hb hc (fun hxy => hne (BitVec.xor_eq_zero_iff.mp hxy)) hzero

/-- Settles O23: `M` is one to one, and the words of one width are finitely many. -/
theorem mixIsBijectionFixingZero : Obligations.MixIsBijectionFixingZero := fun _ sh ha hb hc =>
  ⟨mix_zero sh, fun _ => mix_ne_zero ha hb hc, Finite.injective_iff_bijective.mp (mix_injective ha hb hc)⟩

/-! ## DISCARD after DISCARD (`41_seed_state.md` R93) -/

section Discards

variable {c : Config} {s : State}

/-- What DISCARD of `k` leaves. -/
def discardEnd (c : Config) (k : Nat) (s : State) : State :=
  { s with S := mixed c k s.S, cnt := 0, busy := false, phase := .idle }

theorem exec_discard (k : BitVec 64) (hfit : FitsW cfg s.S) :
    exec (.discard k) s = .next (discardEnd cfg k.toNat s) := discardIn_eq hfit k

theorem discardEnd_fits (k : Nat) : FitsW c (discardEnd c k s).S := mixed_fits c k s.S

theorem discardEnd_discardEnd (j k : Nat) : discardEnd c k (discardEnd c j s) = discardEnd c (j + k) s := by
  simp only [discardEnd, mixed_add]

theorem runCommands_discard_cons (k : BitVec 64) (is : List Instr) (hfit : FitsW cfg s.S) :
    runCommands (.discard k :: is) s = runCommands is (discardEnd cfg k.toNat s) := by
  simp only [runCommands, exec_discard k hfit]

/-- One or more single discards. -/
theorem runCommands_replicate_discard (n : Nat) (hfit : FitsW cfg s.S) :
    runCommands (List.replicate (n + 1) (.discard 1#64)) s = .next (discardEnd cfg (n + 1) s) := by
  induction n generalizing s with
  | zero => exact runCommands_discard_cons 1#64 [] hfit
  | succ n ih =>
    rw [List.replicate_succ, runCommands_discard_cons 1#64 _ hfit, ih (discardEnd_fits _), discardEnd_discardEnd]
    rw [Nat.add_comm]
    rfl

end Discards

/-- Settles O22: every DISCARD adds its count to the iterates of `M`, and zero iterates leave `S` as it is. -/
theorem discardsCompose : Obligations.DiscardsCompose := by
  refine ⟨fun j k s hfit hsum => ?_, fun k s hfit hpos => ?_, fun s hfit => ⟨_, exec_discard 0#64 hfit, ?_⟩⟩
  · have hadd : (j + k).toNat = j.toNat + k.toNat := by rw [BitVec.toNat_add, Nat.mod_eq_of_lt hsum]
    rw [runCommands_discard_cons j _ hfit, runCommands_discard_cons k _ (discardEnd_fits _), discardEnd_discardEnd,
      exec_discard _ hfit, hadd]
    rfl
  · obtain ⟨n, hn⟩ := Nat.exists_eq_add_one.mpr hpos
    rw [exec_discard k hfit, hn, runCommands_replicate_discard n hfit]
  · rw [discardEnd, BitVec.toNat_zero, mixed_zero cfg hfit]

/-! ## SEED 0 and SEED MAXW (`41_seed_state.md` R91) -/

/-- Both values are remapped to `MAXW`. -/
theorem seedIn_zero_eq_allOnes (c : Config) (s : State) :
    seedIn c 0#64 s = seedIn c ((BitVec.allOnes c.W).setWidth 64) s := by
  have hpos : 0 < c.W := by have := Config.W_cases c; omega
  rw [seedIn, seedIn, setWidth_container (Config.W_le c), BitVec.setWidth_zero, remap_zero,
    remap_of_ne (allOnes_ne_zero hpos)]

/-- Settles O20: the two seeds leave the same state, so what follows is the same. -/
theorem zeroSeedEquivalence : Obligations.ZeroSeedEquivalence := by
  intro is s
  have hseed : exec (.seed 0#64) s = exec (.seed ((BitVec.allOnes cfg.W).setWidth 64)) s := seedIn_zero_eq_allOnes cfg s
  rw [runCommands, runCommands, hseed]

end Sys2Proof.Machine
end

section
/-!
PROOFS. The bytes and the `S` of FILL_LANE (`42_lane_fill.md` R102, R104, R110, R112).
-/

namespace Sys2Proof.Machine

open Sys2Proof.Safety

/-! ## Which lanes are zero (`42_lane_fill.md` R102) -/

theorem rotr_eq_zero_iff {n : Nat} (hn : 0 < n) (v : BitVec n) (k : Nat) : rotr v k = 0#n ↔ v = 0#n := by
  rw [← (rotr_bijective hn k).injective.eq_iff (a := v), zero_rotr]

theorem rotl_eq_zero_iff {n : Nat} (hn : 0 < n) (v : BitVec n) (k : Nat) : rotl v k = 0#n ↔ v = 0#n := by
  rw [← rotr_eq_zero_iff hn (rotl v k) k, rotr_rotl hn]

theorem complement_eq_zero_iff {n : Nat} (v : BitVec n) : ~~~v = 0#n ↔ v = BitVec.allOnes n := by
  rw [BitVec.not_eq_comm, BitVec.not_zero]

/-- Settles O28: a rotation is zero only of zero, and the complement of `S` is zero only at `MAXW`. -/
theorem lanesZeroOnlyAtMaxW : Obligations.LanesZeroOnlyAtMaxW := by
  intro v hv
  have hpos : 0 < cfg.W := by have := Config.W_cases cfg; omega
  refine ⟨fun i hi => ?_, fun j hj => ?_⟩
  · rw [deriveLanes_low cfg v hi, Ne, rotl_eq_zero_iff hpos]
    exact hv
  · rw [deriveLanes_high cfg v hj, rotr_eq_zero_iff hpos, complement_eq_zero_iff]

/-! ## The slots (`42_lane_fill.md` R104, R112) -/

/-- Settles O30: what the slot phase leaves is not touched by the chaining and the tail. -/
theorem fillLaneSlots : Obligations.FillLaneSlots := fun len e _ hw ha => fillLaneIn_slots len e hw ha

/-- Settles O34: both outputs encode the same integers, each in its own byte order. -/
theorem fillLaneEndiannessRoundTrip : Obligations.FillLaneEndiannessRoundTrip := by
  intro len s hw ha
  obtain ⟨t, ht, hspecific⟩ := fillLaneSlots len .specific s hw ha
  obtain ⟨t', ht', hneutral⟩ := fillLaneSlots len .neutral s hw ha
  refine ⟨t, t', ht, ht', fun slot hslot => ?_⟩
  rw [hspecific slot hslot, hneutral slot hslot]
  exact congrArg (enc cfg.params.hostOrder · cfg.WB) (dec_enc_of_width (Config.W_eq cfg) cfg.params.neutralOrder _)

/-! ## `S` and the tail (`42_lane_fill.md` R110) -/

/-- The tail holds the first bytes of the integer after the chained `S`. -/
theorem readBytes_fillLaneEnd_tail {c : Config} (len : BitVec 64) (e : EndianMode) {s : State}
    (hw : Memory.wf c.unwritten s.mem = true) :
    Memory.readBytes c.unwritten (fillLaneEnd c len e s).mem (len.toNat / c.WB * c.WB) (len.toNat % c.WB) =
      (enc (ord c e) ((mixed c (laneZeroSlots c (len.toNat / c.WB) + 2) s.S).setWidth c.W) c.WB).take
        (len.toNat % c.WB) := by
  have hmod := Nat.mod_lt len.toNat (Config.WB_pos c)
  have hsum := Nat.div_add_mod' len.toNat c.WB
  apply List.ext_getElem
  · rw [Memory.readBytes_length, List.length_take, enc_length, Nat.min_eq_left hmod.le]
  · intro i hi hi'
    rw [Memory.readBytes_length] at hi
    rw [Memory.readBytes_getElem, ← bufByte, bufByte_fillLaneEnd len e hw, if_neg (by omega), if_pos (by omega),
      Nat.add_sub_cancel_left, List.getElem_take, List.getD_eq_getElem _ _ (by rw [enc_length]; omega)]

/-- Settles O31: by length; one application of `M` chains the state, one more serves a tail. -/
theorem fillLaneStateAndTail : Obligations.FillLaneStateAndTail := by
  intro len e s hw ha
  by_cases hne : len = 0#64
  · subst hne
    refine ⟨_, fillLaneIn_zero cfg e s, fun _ => rfl, fun h => absurd rfl h, fun h => absurd rfl h, ?_⟩
    rw [BitVec.toNat_zero, Nat.zero_mod, List.take_zero]
    rfl
  · have hS := fillLaneEnd_S (c := cfg) len e s
    refine ⟨_, fillLaneIn_completes hne e ha, fun h => absurd h hne, fun _ hwhole => ?_, fun _ htail => ?_,
      readBytes_fillLaneEnd_tail len e hw⟩
    · rw [hS, if_pos hwhole]
    · rw [hS, if_neg htail]

end Sys2Proof.Machine
end

section
/-!
PROOFS. The bytes of EXPAND and of FILL are determined (`43_expansion.md` R140, `44_composite.md` R153, R154): the
finished buffer satisfies equations that leave no choice above the bytes filled beforehand.
-/

namespace Sys2Proof.Machine

open Sys2Proof.Safety

/-! ## The windows of two buffers -/

section Windows

variable {c : Config} {o : ByteOrder} {f : BitVec c.XW → BitVec c.XW} {m m' : Memory} {len filled offset : Nat}

theorem Memory.read_eq_of_readBytes_eq {d : Nat → Byte} {a n i : Nat}
    (h : Memory.readBytes d m a n = Memory.readBytes d m' a n) (hi : i < n) :
    Memory.read d m (a + i) = Memory.read d m' (a + i) := by
  rw [← Memory.readBytes_getElem m a n i (by rwa [Memory.readBytes_length]),
    ← Memory.readBytes_getElem m' a n i (by rwa [Memory.readBytes_length])]
  simp only [h]

/-- Buffers that agree below the output of a window, and hold the same window, agree below its end. -/
theorem SlotsHold.agreeBelow {src dst n : Nat} (h : SlotsHold c o f src dst n m) (h' : SlotsHold c o f src dst n m')
    (hsrc : 0 < n → src + n * c.XB ≤ dst) (hm : AgreeBelow c dst m m') : AgreeBelow c (dst + n * c.XB) m m' := by
  intro a ha
  by_cases hlow : a < dst
  · exact hm a hlow
  · have hB := Config.XB_pos c
    have hj : (a - dst) / c.XB < n := Nat.div_lt_of_lt_mul (by rw [Nat.mul_comm]; omega)
    have hend := slot_end_le (B := c.XB) hj
    have hbelow := hsrc (Nat.zero_lt_of_lt hj)
    have hsame : Memory.readBytes c.unwritten m (dst + (a - dst) / c.XB * c.XB) c.XB =
        Memory.readBytes c.unwritten m' (dst + (a - dst) / c.XB * c.XB) c.XB := by
      rw [h _ hj, h' _ hj, slotOutput_congr hm (by omega)]
    have hsum := Nat.div_add_mod' (a - dst) c.XB
    have hpos : dst + (a - dst) / c.XB * c.XB + (a - dst) % c.XB = a := by omega
    rw [← hpos]
    exact Memory.read_eq_of_readBytes_eq hsame (Nat.mod_lt _ hB)

/-- The Beta window lies below the end of the Alpha sub-step, kept or renewed (`43_expansion.md` R128). -/
theorem betaInput_below {mid n : Nat} (hle : filled ≤ mid) (hn : n ≤ betaInput c filled mid offset) (hpos : 0 < n) :
    offset + n * c.XB ≤ mid := by
  unfold betaInput at hn
  split at hn
  · exact (inputWindow_below c hn hpos).trans hle
  · exact inputWindow_below c hn hpos

/-- Buffers that hold the same iteration agree below its end once they agree below its start. -/
theorem IterationHolds.agreeBelow {p : Nat} (h : IterationHolds c o len p filled offset m)
    (h' : IterationHolds c o len p filled offset m') (hm : AgreeBelow c filled m m') :
    AgreeBelow c (grow c len filled offset) m m' := by
  obtain ⟨hA, hB⟩ := h
  obtain ⟨hA', hB'⟩ := h'
  have hmid : AgreeBelow c (alphaEnd c len filled offset) m m' :=
    hA.agreeBelow hA' (inputWindow_below c (Nat.min_le_left _ _)) hm
  rw [grow_eq]
  exact hB.agreeBelow hB' (betaInput_below (Nat.le_add_right _ _) (Nat.min_le_left _ _)) hmid

theorem grow_full (offset : Nat) (h : len ≤ filled) : grow c len filled offset = filled := by
  have hmid : alphaEnd c len filled offset = filled := by
    rw [alphaEnd, slotCount_full c _ h, Nat.zero_mul, Nat.add_zero]
  rw [grow_eq, hmid, slotCount_full c _ h, Nat.zero_mul, Nat.add_zero]

/-- The loop with its last iteration split off, in place of its first. -/
theorem growLoop_succ_last (k filled offset : Nat) :
    growLoop c len (k + 1) filled offset =
      grow c len (growLoop c len k filled offset) (Nat.iterate (nextOffset c) k offset) := by
  by_cases hlt : filled < len
  · induction k generalizing filled offset with
    | zero => exact if_pos hlt
    | succ k ih =>
      have hstep : ∀ n, growLoop c len (n + 1) filled offset =
          growLoop c len n (grow c len filled offset) (nextOffset c offset) := fun _ => if_pos hlt
      rw [hstep, hstep, Function.iterate_succ_apply]
      by_cases hnext : grow c len filled offset < len
      · exact ih _ _ hnext
      · rw [growLoop_full _ _ (not_lt.mp hnext), growLoop_full _ _ (not_lt.mp hnext), grow_full _ (not_lt.mp hnext)]
  · rw [growLoop_full _ _ (not_lt.mp hlt), growLoop_full _ _ (not_lt.mp hlt), grow_full _ (not_lt.mp hlt)]

end Windows

/-! ## The equations of an expanded buffer -/

section Expanded

variable {c : Config} {o : ByteOrder} {m m' : Memory} {len start : Nat}

/-- `m` is the buffer of an EXPAND of `len` bytes that completed with `start` bytes filled beforehand: every window of
`43_expansion.md` R126 and R129, and every fallback byte of R133, stands as the bytes below it say. -/
structure Expanded (c : Config) (o : ByteOrder) (len start : Nat) (m : Memory) : Prop where
  windows : ∀ k, k < c.params.stepList.length →
    IterationHolds c o len (stepAt c k) (growLoop c len k start 1) (Nat.iterate (nextOffset c) k 1) m
  fallback : ∀ i, growLoop c len c.params.stepList.length start 1 ≤ i → i < len →
    Memory.read c.unwritten m i = (Memory.read c.unwritten m
      (i - (len - growLoop c len c.params.stepList.length start 1))).rotateRight 2

/-- The windows carry an agreement on the bytes filled beforehand to the end of every iteration. -/
theorem Expanded.agreeBelow_growLoop (h : Expanded c o len start m) (h' : Expanded c o len start m')
    (hm : AgreeBelow c start m m') {k : Nat} (hk : k ≤ c.params.stepList.length) :
    AgreeBelow c (growLoop c len k start 1) m m' := by
  induction k with
  | zero => exact hm
  | succ k ih =>
    rw [growLoop_succ_last]
    exact (h.windows k hk).agreeBelow (h'.windows k hk) (ih (Nat.le_of_succ_le hk))

/-- Expanded buffers that agree on the bytes filled beforehand agree on every byte, when the loop leaves no more than
it filled. -/
theorem Expanded.agreeBelow (h : Expanded c o len start m) (h' : Expanded c o len start m')
    (hle : len - growLoop c len c.params.stepList.length start 1 ≤ growLoop c len c.params.stepList.length start 1)
    (hm : AgreeBelow c start m m') : AgreeBelow c len m m' := by
  have hloop := h.agreeBelow_growLoop h' hm le_rfl
  intro a ha
  by_cases hlow : a < growLoop c len c.params.stepList.length start 1
  · exact hloop a hlow
  · rw [h.fallback a (not_lt.mp hlow) ha, h'.fallback a (not_lt.mp hlow) ha, hloop _ (by omega)]

end Expanded

/-- EXPAND that completes leaves an expanded buffer and keeps the bytes filled beforehand. -/
theorem exec_expand_leaves_expanded {len f0 : BitVec 64} (e : EndianMode) (x : ExecMode) {s : State}
    (hw : Memory.wf cfg.unwritten s.mem = true) (ha : admits s len.toNat = true)
    (hu : ¬ Underruns cfg len.toNat f0.toNat) :
    ∃ t, exec (.expand len f0 e x) s = .next t ∧
      Expanded cfg (ord cfg e) len.toNat (min f0.toNat len.toNat) t.mem ∧
      AgreeBelow cfg (min f0.toNat len.toNat) t.mem s.mem := by
  obtain ⟨t, ht, -, hkept⟩ := expandCompletes len f0 e x s hw (.inr ha) hu
  obtain ⟨t₁, ht₁, hwindows⟩ := expandEveryWindow len f0 e x s hw ha hu
  obtain ⟨t₂, ht₂, hfallback⟩ := expandFallbackBytes len f0 e x s hw ha hu
  cases ht.symm.trans ht₁
  cases ht.symm.trans ht₂
  exact ⟨t, ht, ⟨hwindows, hfallback⟩, fun a h => hkept a (.inl h)⟩

/-- Settles O49: both finished buffers satisfy the same equations above the same bytes. -/
theorem expandIsDeterminedByPrefix : Obligations.ExpandIsDeterminedByPrefix := by
  intro len f0 f0' e e' x x' s s' hw hw' ha ha' ho hmin hfirst hu
  have hu' : ¬ Underruns cfg len.toNat f0'.toNat := by
    simpa only [Underruns, remaining, reach, ← hmin] using hu
  obtain ⟨t, ht, hexp, hkept⟩ := exec_expand_leaves_expanded e x hw ha hu
  obtain ⟨t', ht', hexp', hkept'⟩ := exec_expand_leaves_expanded e' x' hw' ha' hu'
  rw [← ho, ← hmin] at hexp'
  rw [← hmin] at hkept'
  refine ⟨t, t', ht, ht', hexp.agreeBelow hexp' (not_lt.mp hu) fun a h => ?_⟩
  exact (hkept a h).trans ((hfirst a h).trans (hkept' a h).symm)

/-! ## FILL -/

/-- Settles O55: the initial segments agree, and EXPAND determines the rest; `S` is FILL_LANE's of the segment. -/
theorem fillIsDeterminedBySeedAndLength : Obligations.FillIsDeterminedBySeedAndLength := by
  intro len e e' x x' s s' hw hw' hS ho ha ha' hB hu
  obtain ⟨t, ht, hframe, -⟩ := fillCompletes len e x s hw hB ha hu
  obtain ⟨t', ht', hframe', -⟩ := fillCompletes len e' x' s' hw' hB ha' hu
  rw [← segment_toNat] at hu
  obtain ⟨u, u', hu₁, hu₁', hbytes⟩ := expandIsDeterminedByPrefix len (segment cfg len) (segment cfg len) e e' x x' _ _
    (fillLaneEnd_wf _ e hw) (fillLaneEnd_wf _ e' hw') (admits_fillLaneEnd _ e ha) (admits_fillLaneEnd _ e' ha') ho rfl
    (fun a h => bufByte_fillLaneEnd_congr hw hw' hS ho (h.trans_le (Nat.min_le_left _ _))) hu
  cases ht.symm.trans ((fillIn_eq_expandIn e x hB ha hu).trans hu₁)
  cases ht'.symm.trans ((fillIn_eq_expandIn e' x' hB ha' hu).trans hu₁')
  refine ⟨t, t', ht, ht', ?_, hbytes⟩
  calc t.S = mixed cfg (laneZeroSlots cfg (initialSegment cfg len.toNat / cfg.WB) + 1) s.S := congrArg State.S hframe
    _ = t'.S := hS ▸ (congrArg State.S hframe').symm

section Segments

variable {c : Config} {s : State} {l l' : BitVec 64}

/-- The slots of a lane fill do not depend on how many follow. -/
theorem bufByte_fillLaneEnd_of_le (e : EndianMode) (hw : Memory.wf c.unwritten s.mem = true)
    (hwhole : l.toNat % c.WB = 0) (hle : l.toNat ≤ l'.toNat) {a : Nat} (ha : a < l.toNat) :
    bufByte c (fillLaneEnd c l e s) a = bufByte c (fillLaneEnd c l' e s) a := by
  have hslots : a < l.toNat / c.WB * c.WB := by rwa [Nat.div_mul_cancel (Nat.dvd_of_mod_eq_zero hwhole)]
  have hslots' : a < l'.toNat / c.WB * c.WB := hslots.trans_le (Nat.mul_le_mul_right _ (Nat.div_le_div_right hle))
  rw [bufByte_fillLaneEnd l e hw, bufByte_fillLaneEnd l' e hw, if_pos hslots, if_pos hslots']

end Segments

/-- Settles O54: EXPAND keeps the initial segment, whose slots are those of a shorter lane fill. -/
theorem fillPrefixEquivalence : Obligations.FillPrefixEquivalence := by
  intro len l1 e x s hw hB ha hu hle hwhole
  obtain ⟨t, ht, hframe, -⟩ := fillCompletes len e x s hw hB ha hu
  rw [← segment_toNat] at hu hle hframe ⊢
  have hseg : (segment cfg len).toNat ≤ len.toNat := (segment_toNat cfg len).trans_le (initialSegment_le cfg _)
  obtain ⟨t₁, ht₁, -, hkept⟩ := expandCompletes len (segment cfg len) e x (fillLaneEnd cfg (segment cfg len) e s)
    (fillLaneEnd_wf _ e hw) (.inr (admits_fillLaneEnd _ e ha)) hu
  cases ht.symm.trans ((fillIn_eq_expandIn e x hB ha hu).trans ht₁)
  by_cases hzero : l1 = 0#64
  · subst hzero
    refine ⟨t, _, ht, fillLaneIn_zero cfg e s, fun a h => absurd h (Nat.not_lt_zero a), fun h => ?_⟩
    exact absurd (BitVec.eq_of_toNat_eq h).symm (segment_ne_zero hB)
  · refine ⟨t, _, ht, fillLaneIn_completes hzero e (admits_mono (hle.trans hseg) ha), fun a h => ?_, fun h => ?_⟩
    · rw [hkept a (.inl (lt_min (h.trans_le hle) ((h.trans_le hle).trans_le hseg)))]
      exact (bufByte_fillLaneEnd_of_le e hw hwhole hle h).symm
    · rw [fillLaneEnd_S, if_pos hwhole, h]
      exact congrArg State.S hframe

end Sys2Proof.Machine
end

section
/-!
PROOFS. The next `S` (`41_seed_state.md` R95): a function of the previous one, the command and its length.
-/

namespace Sys2Proof.Machine

open Sys2Proof.Safety

section NextS

variable {c : Config} {s t : State}

/-- `S` after a lane fill of `len` bytes (`42_lane_fill.md` R110). -/
def laneFillS (c : Config) (len : Nat) (v : Word) : Word :=
  if len = 0 then v else mixed c (laneZeroSlots c (len / c.WB) + (if len % c.WB = 0 then 1 else 2)) v

/-- `S` after a command that does not fault, from the `S` before it (`41_seed_state.md` R94, R95). -/
def nextS (c : Config) : Instr → Word → Word
  | .seed value, _ => (remap (value.setWidth c.W)).setWidth 64
  | .discard count, v => mixed c count.toNat v
  | .fillLane len _, v => laneFillS c len.toNat v
  | .expand _ _ _ _, v => v
  | .fill len _ _, v => laneFillS c (initialSegment c len.toNat) v

theorem laneFill_running_S {len : Nat} (h : laneFill c len s = .running t) : t.S = laneFillS c len s.S := by
  rcases laneFill_cases c len s with ⟨hzero, h'⟩ | ⟨hne, -, h'⟩ | ⟨-, -, h'⟩ <;> cases h'.symm.trans h
  · exact (if_pos hzero).symm
  · rw [lanePhases_S, laneFillS, if_neg hne]

theorem fallbackPass_running_S (h : fallbackPass c s = .running t) : t.S = s.S := by
  rcases fallbackPass_cases c s with ⟨-, h'⟩ | ⟨-, h'⟩ | ⟨-, -, -, h'⟩ | ⟨-, -, -, h'⟩ <;> cases h'.symm.trans h <;> rfl

/-- An expansion that runs on does not touch `S` (`43_expansion.md` R137). -/
theorem expansion_running_S (h : expansion c s = .running t) : t.S = s.S := by
  rw [expansion_eq] at h
  obtain ⟨u, hloop, hpass⟩ := andThen_running_iff.mp h
  have hx := (expandLoop_extends c _ (expandStart s)).of_running hloop
  have hS : u.S = s.S := by rw [hx.frame]; rfl
  exact (fallbackPass_running_S hpass).trans hS

/-- A fill command that ends without a fault ran on to its completion. -/
theorem running_of_finish {lo : Nat} {p : Progress} (h : finish c lo p = .next t) (hf : t.fault = false) :
    ∃ u, p = .running u ∧ t.S = u.S := by
  rcases finish_cases h with ⟨hp, rfl⟩ | ⟨cause, -, rfl⟩
  · exact ⟨_, hp, rfl⟩
  · cases hf

theorem fillLaneIn_S {len : BitVec 64} {e : EndianMode} (h : fillLaneIn c len e s = .next t) (hf : t.fault = false) :
    t.S = laneFillS c len.toNat s.S := by
  by_cases hne : len = 0#64
  · subst hne
    cases h
    rfl
  · rw [fillLaneIn_of_ne hne] at h
    obtain ⟨u, hrun, hS⟩ := running_of_finish h hf
    have hlane := laneFill_running_S hrun
    exact hS.trans hlane

theorem fillIn_S {len : BitVec 64} {e : EndianMode} {x : ExecMode} (h : fillIn c len e x s = .next t)
    (hf : t.fault = false) : t.S = laneFillS c (initialSegment c len.toNat) s.S := by
  by_cases hne : len = 0#64
  · subst hne
    cases h
    exact (if_pos (Nat.le_zero.mp (initialSegment_le c 0))).symm
  · rw [fillIn_of_ne hne] at h
    obtain ⟨u, hrun, hS⟩ := running_of_finish h hf
    obtain ⟨u₁, hlane, hexpand⟩ := andThen_running_iff.mp hrun
    have hS₁ := laneFill_running_S hlane
    exact hS.trans ((expansion_running_S hexpand).trans hS₁)

/-- Every command that does not fault leaves the `S` that `nextS` computes. -/
theorem exec_S {i : Instr} (hfit : FitsW cfg s.S) (h : exec i s = .next t) (hf : t.fault = false) :
    t.S = nextS cfg i s.S := by
  cases i with
  | seed value =>
    cases h
    rfl
  | discard count =>
    cases (exec_discard count hfit).symm.trans h
    rfl
  | fillLane len e => exact fillLaneIn_S h hf
  | expand len f0 e x =>
    obtain ⟨u, hrun, hS⟩ := running_of_finish h hf
    have hkept := expansion_running_S hrun
    exact hS.trans hkept
  | fill len e x => exact fillIn_S (x := x) h hf

end NextS

/-- Settles O60: `nextS` looks at neither the modes nor the buffer. -/
theorem nextStateIgnoresModesAndBuffer : Obligations.NextStateIgnoresModesAndBuffer := by
  intro i i' s s' t t' hsame hS hfit h h' hf hf'
  have hnext : nextS cfg i s'.S = nextS cfg i' s'.S :=
    match i, i', hsame with
    | .seed _, .seed _, rfl => rfl
    | .discard _, .discard _, rfl => rfl
    | .fillLane _ _, .fillLane _ _, rfl => rfl
    | .expand _ _ _ _, .expand _ _ _ _, _ => rfl
    | .fill _ _ _, .fill _ _ _, rfl => rfl
  rw [exec_S hfit h hf, exec_S (hS ▸ hfit) h' hf', hS, hnext]

end Sys2Proof.Machine
end
